-- ==== Sys2Proof/Word.lean ====
section
/-! DEFINITION. The word types of HUFCORE: bytes (Symbols), command words, bit sequences, node indices (R5, R6, R7, R90). -/

namespace Sys2Proof

/-- A byte, and equally a Symbol: `SYM_W` = 8 bits (R5). -/
abbrev Byte := BitVec 8

/-- A command word: `CMD_W` = 48 bits (R5, R90). -/
abbrev CmdWord := BitVec 48

/-- A frequency count of one symbol: `CNT_W` = 32 bits (R5, R29). -/
abbrev Count := BitVec 32

/-- The frequency of a tree node: `FREQ_W` = 40 bits (R5, R30). -/
abbrev NodeFreq := BitVec 40

/-- A node index: `IDX_W` = 9 bits (R5, R30). -/
abbrev NodeIdx := BitVec 9

/-- A finite ordered list of bits, the first bit at the head (R7). -/
abbrev BitSeq := List Bool

end Sys2Proof
end

