-- ==== Sys2Proof/Syntax.lean ====
section
/-! DEFINITION. The commands of HUFCORE: one constructor per row of the opcode map (R93), and the fields of a command word (R90, R91). -/

namespace Sys2Proof

/-- The eleven commands. Operands are already extracted: `A` is a byte, `B` a 32-bit count (R91, R92). -/
inductive Instr where
  /-- NOP (R200). -/
  | nop
  /-- CLEAR (R201). -/
  | clear
  /-- SETFREQ sym, count (R110). -/
  | setfreq (sym : Byte) (count : Count)
  /-- COUNT (R111). -/
  | count
  /-- BUILD (R120). -/
  | build
  /-- GEN (R140). -/
  | gen
  /-- PUT byte (R202). -/
  | put (byte : Byte)
  /-- RSTIN (R203). -/
  | rstin
  /-- ENCODE (R160). -/
  | encode
  /-- DECODE (R180). -/
  | decode
  /-- XFER (R204). -/
  | xfer
  deriving DecidableEq, Repr

/-- The three formats of R91: which operand fields a command uses. -/
inductive Format where
  /-- No operand: `A` and `B` must be zero. -/
  | z
  /-- The operand `A`: `B` must be zero. -/
  | a
  /-- The operands `A` and `B`. -/
  | ab
  deriving DecidableEq, Repr

/-- The three fields of a command word, at the same place in every format (R90). -/
structure Fields where
  /-- `OP`, bits [47:40]. -/
  op : Byte
  /-- `A`, bits [39:32]. -/
  a : Byte
  /-- `B`, bits [31:0]. -/
  b : Count
  deriving DecidableEq, Repr

/-- The pseudo-instructions of R98. -/
inductive Pseudo where
  /-- `PUTS "c1c2...cn"`, the characters as their ASCII codes. -/
  | puts (text : List Byte)
  /-- `COMPRESS`. -/
  | compress
  /-- `LOOPBACK`. -/
  | loopback
  deriving DecidableEq, Repr

end Sys2Proof
end

