-- ==== Sys2Proof/WellFormed.lean ====
section
/-! DEFINITION. When the fields of a command word are well formed: a known opcode, and every unused operand field zero (R91, R95). -/

namespace Sys2Proof

/-- The format column of R93, by opcode; none for the 245 reserved opcodes (R95 (a)). -/
def formatOf (op : Byte) : Option Format :=
  match op.toNat with
  | 0x02 => some .ab
  | 0x06 => some .a
  | n => if n ≤ 0x0A then some .z else none

/-- The fields a format leaves unused are zero (R91). -/
def Fields.unusedZero (f : Fields) : Format → Bool
  | .z => f.a == 0 && f.b == 0
  | .a => f.b == 0
  | .ab => true

/-- The opcode is one of the map's, and the unused fields of its format are zero (R91, R93, R95). -/
def Fields.wellFormed (f : Fields) : Bool :=
  match formatOf f.op with
  | none => false
  | some fmt => f.unusedZero fmt

end Sys2Proof
end

