-- ==== Sys2Proof/Decode.lean ====
section
/-! DEFINITION. The decoder of R94 (its state-free part), total on all 2^48 words, the opcode map of R93, the encoder, and the assembler forms of R97 and R98. -/

namespace Sys2Proof

/-- Why a word is no command: the reasons 0 and 1 of R225, with the word's opcode. -/
inductive Illegal where
  /-- Reason 0: an opcode above 0x0A (R95 (a)). -/
  | reservedOpcode (op : Byte)
  /-- Reason 1: a known opcode with a non-zero unused operand field (R95 (b), (c)). -/
  | unusedField (op : Byte)
  deriving DecidableEq, Repr

/-- `OP`, `A` and `B` of a word (R90, R92). -/
def fieldsOf (w : CmdWord) : Fields :=
  { op := w.extractLsb' 40 8, a := w.extractLsb' 32 8, b := w.extractLsb' 0 32 }

/-- The word with the given fields (R90). -/
def Fields.word (f : Fields) : CmdWord := f.op ++ f.a ++ f.b

/-- A format-Z command: legal when `A` and `B` are zero (R91, R94). -/
def decodeZ (f : Fields) (i : Instr) : Except Illegal Instr :=
  if f.a = 0 ∧ f.b = 0 then .ok i else .error (.unusedField f.op)

/-- The decoding procedure of R94 on the fields of a word, after the `ERR` test and before the phase test: the opcode is tested first, then the unused fields. -/
def decodeFields (f : Fields) : Except Illegal Instr :=
  match f.op.toNat with
  | 0x00 => decodeZ f .nop
  | 0x01 => decodeZ f .clear
  | 0x02 => .ok (.setfreq f.a f.b)
  | 0x03 => decodeZ f .count
  | 0x04 => decodeZ f .build
  | 0x05 => decodeZ f .gen
  | 0x06 => if f.b = 0 then .ok (.put f.a) else .error (.unusedField f.op)
  | 0x07 => decodeZ f .rstin
  | 0x08 => decodeZ f .encode
  | 0x09 => decodeZ f .decode
  | 0x0A => decodeZ f .xfer
  | _ => .error (.reservedOpcode f.op)

/-- The command of a word, or why it is none (R90, R94). -/
def decode (w : CmdWord) : Except Illegal Instr := decodeFields (fieldsOf w)

/-- The instruction a word of the opcode table decodes to, the word numbered as the table numbers it: one 48-bit word, bit 0 its least significant bit, bits at and above `nbits` zero (R90; log entry 11). -/
def decodeTableWord (nbits w : Nat) : Option Instr :=
  match decode (BitVec.ofNat 48 (w % 2 ^ nbits)) with
  | .ok i => some i
  | .error _ => none

/-- The opcode of a command (R93). -/
def Instr.opcode : Instr → Byte
  | .nop => 0x00
  | .clear => 0x01
  | .setfreq _ _ => 0x02
  | .count => 0x03
  | .build => 0x04
  | .gen => 0x05
  | .put _ => 0x06
  | .rstin => 0x07
  | .encode => 0x08
  | .decode => 0x09
  | .xfer => 0x0A

/-- The fields of a command's word: its opcode, its operands, and zero in every unused field (R91, R93). -/
def Instr.fields : Instr → Fields
  | .setfreq s c => { op := 0x02, a := s, b := c }
  | .put d => { op := 0x06, a := d, b := 0 }
  | i => { op := i.opcode, a := 0, b := 0 }

/-- A command is well formed when the fields of its word are (R91); its operand types make every command so. -/
def Instr.wellFormed (i : Instr) : Bool := i.fields.wellFormed

/-- The word of a command (R90, R93). -/
def encode (i : Instr) : CmdWord := i.fields.word

/-- One row of the opcode map of R93. -/
structure OpcodeRow where
  mnemonic : String
  format : Format
  mask : CmdWord
  pattern : CmdWord
  deriving DecidableEq, Repr

/-- The opcode map of R93, row by row. -/
def opcodeMap : List OpcodeRow :=
  [ ⟨"NOP", .z, 0xFFFFFFFFFFFF, 0x000000000000⟩,
    ⟨"CLEAR", .z, 0xFFFFFFFFFFFF, 0x010000000000⟩,
    ⟨"SETFREQ", .ab, 0xFF0000000000, 0x020000000000⟩,
    ⟨"COUNT", .z, 0xFFFFFFFFFFFF, 0x030000000000⟩,
    ⟨"BUILD", .z, 0xFFFFFFFFFFFF, 0x040000000000⟩,
    ⟨"GEN", .z, 0xFFFFFFFFFFFF, 0x050000000000⟩,
    ⟨"PUT", .a, 0xFF00FFFFFFFF, 0x060000000000⟩,
    ⟨"RSTIN", .z, 0xFFFFFFFFFFFF, 0x070000000000⟩,
    ⟨"ENCODE", .z, 0xFFFFFFFFFFFF, 0x080000000000⟩,
    ⟨"DECODE", .z, 0xFFFFFFFFFFFF, 0x090000000000⟩,
    ⟨"XFER", .z, 0xFFFFFFFFFFFF, 0x0A0000000000⟩ ]

/-- A word selects a row when `w AND mask = match` (R93). -/
def OpcodeRow.selects (r : OpcodeRow) (w : CmdWord) : Bool := w &&& r.mask == r.pattern

/-- The mnemonic of a command (R93). -/
def Instr.mnemonic : Instr → String
  | .nop => "NOP"
  | .clear => "CLEAR"
  | .setfreq _ _ => "SETFREQ"
  | .count => "COUNT"
  | .build => "BUILD"
  | .gen => "GEN"
  | .put _ => "PUT"
  | .rstin => "RSTIN"
  | .encode => "ENCODE"
  | .decode => "DECODE"
  | .xfer => "XFER"

/-- One assembler line, its mnemonic and the values of its operands in the order `A`, then `B` (R97); none for a line no command has. -/
def assemble (mnemonic : String) (operands : List Nat) : Option Instr :=
  match mnemonic, operands with
  | "NOP", [] => some .nop
  | "CLEAR", [] => some .clear
  | "SETFREQ", [sym, count] =>
    if sym < 2 ^ 8 ∧ count < 2 ^ 32 then some (.setfreq (BitVec.ofNat 8 sym) (BitVec.ofNat 32 count)) else none
  | "COUNT", [] => some .count
  | "BUILD", [] => some .build
  | "GEN", [] => some .gen
  | "PUT", [byte] => if byte < 2 ^ 8 then some (.put (BitVec.ofNat 8 byte)) else none
  | "RSTIN", [] => some .rstin
  | "ENCODE", [] => some .encode
  | "DECODE", [] => some .decode
  | "XFER", [] => some .xfer
  | _, _ => none

/-- A pseudo-instruction's commands, in order (R98); none for a `PUTS` text with a character outside 0x20..0x7E. -/
def Pseudo.expand : Pseudo → Option (List Instr)
  | .puts text => if text.all (fun c => 0x20 ≤ c.toNat && c.toNat ≤ 0x7E) then some (text.map .put) else none
  | .compress => some [.count, .build, .gen, .encode]
  | .loopback => some [.xfer, .decode]

end Sys2Proof
end

