-- ==== Sys2Proof/Config.lean ====
section
/-! DEFINITION. The implementation parameters of HUFCORE (R5). No command leaves a value undefined, so there is no free value. -/

namespace Sys2Proof

/-- `NSYM` = 256, the size of the largest alphabet (R5). -/
abbrev Config.nsym : Nat := 256

/-- `NNODE` = 511, the slots of the node store (R5). -/
abbrev Config.nnode : Nat := 511

/-- `NIL` = 0x1FF, the node index that means "no node" (R5). -/
abbrev Config.nil : NodeIdx := 0x1FF

/-- `MAXLEN` = 255, the largest code length in bits (R5). -/
abbrev Config.maxLen : Nat := 255

/-- `BUF_CAP` = 65536, the capacity in bytes of IBUF and of OBUF (R5).
The spec lets a model take another value (U10); this one fixes the default, log entry 6 (DESIGN CHOICE). -/
def Config.bufCap : Nat := 65536

end Sys2Proof
end

