-- ==== Sys2Proof/Machine/State.lean ====
section
/-! DEFINITION. The state of HUFCORE (R20), its reset value (R36), and the reasons a step can stop. -/

namespace Sys2Proof.Machine

/-- A table of exactly `n` entries, indexed from 0. -/
structure Table (α : Type) (n : Nat) where
  /-- The entries, entry 0 first. -/
  cells : List α
  /-- There are `n` of them. -/
  size : cells.length = n
  deriving DecidableEq, Repr

/-- The table that holds `v` at every index. -/
def Table.fill {α : Type} {n : Nat} (v : α) : Table α n :=
  ⟨List.replicate n v, List.length_replicate⟩

/-- A byte buffer: a list whose length is the length register, never above `BUF_CAP` (R34, U16; log entry 5). -/
structure Buffer where
  /-- The bytes at indices 0 .. length-1, byte 0 first. -/
  bytes : List Byte
  /-- The length is at most the capacity (R61). -/
  fits : bytes.length ≤ Config.bufCap
  deriving DecidableEq, Repr

/-- The buffer of length 0. -/
def Buffer.empty : Buffer := ⟨[], Nat.zero_le _⟩

/-- `PHASE` (R22): a type of three values, since the value 3 is never written. -/
inductive Phase where
  /-- 0: frequencies may be changing; tree and table are not valid. -/
  | collect
  /-- 1: the tree is valid; the table is not. -/
  | built
  /-- 2: tree and table are both valid. -/
  | ready
  deriving DecidableEq, Repr

/-- `ERR` (R26): a type of seven values, since the value 7 is never written. -/
inductive ErrCode where
  /-- 0: no error since reset or CLEAR. -/
  | none
  /-- 1: raised by BUILD (R121). -/
  | emptyAlphabet
  /-- 2: raised by GEN (R144). -/
  | malformedTree
  /-- 3: raised by ENCODE (R165). -/
  | unknownSymbol
  /-- 4: raised by DECODE (R185). -/
  | corruptStream
  /-- 5: raised by PUT, ENCODE and DECODE (R202, R166, R186). -/
  | bufferOverflow
  /-- 6: raised by the decoder (R225). -/
  | illegalCommand
  deriving DecidableEq, Repr

/-- The `kind` field of a node (R30). -/
inductive NodeKind where
  /-- 0: no node. -/
  | free
  /-- 1: a leaf. -/
  | leaf
  /-- 2: an internal node. -/
  | internal
  /-- 3: never written by a command, but R144 (b) says what GEN does on it (log entry 8). -/
  | reserved
  deriving DecidableEq, Repr

/-- One 68-bit entry of `NODE` (R30). -/
structure Node where
  /-- Bits [67:66]. -/
  kind : NodeKind
  /-- Bits [65:58]: the Symbol of a leaf; 0 in any other kind. -/
  sym : Byte
  /-- Bits [57:18]: the node's frequency. -/
  freq : NodeFreq
  /-- Bits [17:9]: the left child of an internal node; NIL in a leaf; 0 in a FREE entry. -/
  left : NodeIdx
  /-- Bits [8:0]: the right child of an internal node; NIL in a leaf; 0 in a FREE entry. -/
  right : NodeIdx
  deriving DecidableEq, Repr

/-- A FREE entry: all zero bits (R30). -/
def Node.free : Node := { kind := .free, sym := 0, freq := 0, left := 0, right := 0 }

/-- One 264-bit entry of `CODE` (R32). -/
structure CodeEntry where
  /-- Bit [263]: 1 when the symbol has a code. -/
  valid : Bool
  /-- Bits [262:255]: the code length in bits. -/
  len : BitVec 8
  /-- Bits [254:0]: the code, left-aligned: code bit `j` is entry bit `254 - j`. -/
  bits : BitVec 255
  deriving DecidableEq, Repr

/-- An invalid entry: all zero bits (R32). -/
def CodeEntry.invalid : CodeEntry := { valid := false, len := 0, bits := 0 }

/-- What the host does to the core between commands, apart from reading (R264). -/
inductive HostInput where
  /-- A command word presented on the command port (R90). -/
  | command (w : CmdWord)
  /-- Hardware reset (R260). -/
  | reset
  deriving DecidableEq, Repr

/-- The state of HUFCORE: the tuple of R20, with `ILEN` and `OLEN` the lengths of the two buffers (R34), and `port`, the model's own field: the host inputs still to come, oldest first (log entry 1, DESIGN CHOICE). -/
structure State where
  /-- `PHASE` (R22). -/
  phase : Phase
  /-- `ERR` (R26). -/
  err : ErrCode
  /-- `ERRINFO` (R27). -/
  errinfo : BitVec 16
  /-- `ERRPOS` (R27). -/
  errpos : BitVec 32
  /-- `NLEAF` (R31), 0..256. -/
  nleaf : Fin 257
  /-- `NNODES` (R31), 0..511. -/
  nnodes : BitVec 9
  /-- `ROOT` (R31). -/
  root : NodeIdx
  /-- `FREQ` (R29). -/
  freq : Table Count Config.nsym
  /-- `NODE` (R30). -/
  node : Table Node Config.nnode
  /-- `CODE` (R32). -/
  code : Table CodeEntry Config.nsym
  /-- `IBUF` and `ILEN` (R34). -/
  ibuf : Buffer
  /-- `OBUF` and `OLEN` (R34). -/
  obuf : Buffer
  /-- The host inputs still to come (R4; log entry 1). -/
  port : List HostInput
  deriving DecidableEq, Repr

/-- The state right after hardware reset: every value of R36, and no host input to come (log entries 1 and 3). -/
def State.reset : State where
  phase := .collect
  err := .none
  errinfo := 0
  errpos := 0
  nleaf := 0
  nnodes := 0
  root := Config.nil
  freq := .fill 0
  node := .fill Node.free
  code := .fill CodeEntry.invalid
  ibuf := .empty
  obuf := .empty
  port := []

/-- Why the machine stops. It has no constructor: every word in every state has a next state (R3, R94), and every error of the spec is a next state (R226). -/
inductive Fault
  deriving DecidableEq, Repr

/-- Why an instruction has no meaning. -/
inductive Refusal where
  /-- Raised by `exec` alone, for an instruction without a meaning yet; safe, since the run stops. No arm raises it now. -/
  | notModelled (mnemonic : String)
  deriving DecidableEq, Repr

end Sys2Proof.Machine
end

