-- ==== Sys2Proof/Machine/Flags.lean ====
section
/-! DEFINITION. The three status flags, pure functions of registers (R25), the output pin `err` (R230), and the bit codes of PHASE, ERR and a node's kind (R22, R26, R30). -/

namespace Sys2Proof.Machine

/-- The 2-bit value of `PHASE` (R22). -/
def Phase.bits : Phase → BitVec 2
  | .collect => 0
  | .built => 1
  | .ready => 2

/-- The 3-bit value of `ERR` (R26, R221). -/
def ErrCode.bits : ErrCode → BitVec 3
  | .none => 0
  | .emptyAlphabet => 1
  | .malformedTree => 2
  | .unknownSymbol => 3
  | .corruptStream => 4
  | .bufferOverflow => 5
  | .illegalCommand => 6

/-- The 2-bit value of a node's `kind` (R30). -/
def NodeKind.bits : NodeKind → BitVec 2
  | .free => 0
  | .leaf => 1
  | .internal => 2
  | .reserved => 3

/-- `TREE_VALID = (PHASE >= 1)` (R25). -/
def State.treeValid (s : State) : Bool := 1 ≤ s.phase.bits

/-- `TABLE_VALID = (PHASE = 2)` (R25). -/
def State.tableValid (s : State) : Bool := s.phase.bits == 2

/-- `FAULT = (ERR != 0)` (R25): the faulted condition of R228. -/
def State.faulted (s : State) : Bool := s.err.bits != 0

/-- The level output `err` between commands (R230). -/
def State.errPin (s : State) : Bool := s.faulted

end Sys2Proof.Machine
end

