-- ==== Sys2Proof/Machine/Operands.lean ====
section
/-! DEFINITION. Operand forms: zero extension (R6), and bit sequences read from and packed into words, most significant bit first (R7, R62). Field extraction from a command word is in Decode.lean (R92). -/

namespace Sys2Proof.Machine

/-- `zext_16` of a byte (R6): how an opcode and a symbol go into `ERRINFO` (R221). -/
def zext16 (b : Byte) : BitVec 16 := b.setWidth 16

/-- `zext_16` of a node index (R142). -/
def zext16Idx (i : NodeIdx) : BitVec 16 := i.setWidth 16

/-- `zext_40` of a count (R120). -/
def zext40 (c : Count) : NodeFreq := c.setWidth 40

/-- `zeros(n)` (R7). -/
def zeros (n : Nat) : BitSeq := List.replicate n false

/-- The number whose `w`-bit numeral starts with the bits of `q`, bit `w-1` first; absent bits are 0, bits past `w` are dropped. -/
def alignBits : Nat → BitSeq → Nat
  | 0, _ => 0
  | _, [] => 0
  | w + 1, b :: rest => (if b then 2 ^ w else 0) + alignBits w rest

/-- A bit sequence left-aligned in a word of `w` bits: its bit `j` is word bit `w-1-j` (R7, R32). -/
def packMsb (w : Nat) (q : BitSeq) : BitVec w := BitVec.ofNat w (alignBits w q)

/-- The first `n` bits of a word, the most significant first (R7, R32). -/
def unpackMsb {w : Nat} (v : BitVec w) (n : Nat) : BitSeq :=
  (List.range n).map (fun j => v.getLsbD (w - 1 - j))

/-- `bits8(b)`: the eight bits of a byte, bit 7 first (R7). -/
def bits8 (b : Byte) : BitSeq := unpackMsb b 8

/-- `byte(q)`: the byte whose bit 7 is the first bit of `q` (R7). -/
def byteOf (q : BitSeq) : Byte := packMsb 8 q

/-- The bytes of `n` groups of 8 bits, group `j` being positions `8j .. 8j+7` (R164). -/
def groupBytes : Nat → BitSeq → List Byte
  | 0, _ => []
  | n + 1, q => byteOf (q.take 8) :: groupBytes n (q.drop 8)

/-- Every byte expanded into 8 bits, in stream order (R62, R180 step 2). -/
def expandBytes (bytes : List Byte) : BitSeq := bytes.flatMap bits8

end Sys2Proof.Machine
end

