-- ==== Sys2Proof/Machine/Ops.lean ====
section
/-! DEFINITION. The named operations over the stores, the buffers and the registers: accessors, the code view of a table entry, `lookup` (R33), error entry (R226), the gates of the decoder (R94), reset (R260), the host's inputs and the read port (R66). -/

namespace Sys2Proof.Machine

/-! ### Tables -/

/-- The entry at an index. -/
def Table.get {α : Type} {n : Nat} (t : Table α n) (i : Fin n) : α :=
  t.cells[i.val]'(t.size.symm ▸ i.isLt)

/-- The table with the entry at one index replaced. -/
def Table.put {α : Type} {n : Nat} (t : Table α n) (i : Fin n) (v : α) : Table α n :=
  ⟨t.cells.set i.val v, by rw [List.length_set, t.size]⟩

/-- The table whose first entries are those of a list and whose other entries are `v`. -/
def Table.ofPrefix {α : Type} {n : Nat} (l : List α) (v : α) : Table α n :=
  ⟨(l ++ List.replicate (n - l.length) v).take n, by
    rw [List.length_take, List.length_append, List.length_replicate]; omega⟩

/-- A symbol as an index of FREQ or CODE (R29, R32). -/
def symIdx (s : Byte) : Fin Config.nsym := ⟨s.toNat, s.isLt⟩

/-- The entry of a symbol: `FREQ[s]`, `CODE[s]` (R8). -/
def Table.sym {α : Type} (t : Table α Config.nsym) (s : Byte) : α := t.get (symIdx s)

/-- The table with a symbol's entry replaced: `FREQ[s] <- v`, `CODE[s] <- v` (R8). -/
def Table.setSym {α : Type} (t : Table α Config.nsym) (s : Byte) (v : α) : Table α Config.nsym :=
  t.put (symIdx s) v

/-- `NODE[i]` (R30). The index NIL names no slot: no rule reads it, and the accessor answers FREE there (log entry 9). -/
def nodeAt (store : Table Node Config.nnode) (i : NodeIdx) : Node :=
  if h : i.toNat < Config.nnode then store.get ⟨i.toNat, h⟩ else Node.free

/-! ### Buffers -/

/-- A list of bytes as a buffer, if it is not longer than `BUF_CAP` (R34). -/
def Buffer.ofBytes? (bytes : List Byte) : Option Buffer :=
  if h : bytes.length ≤ Config.bufCap then some ⟨bytes, h⟩ else none

/-- The buffer with one byte written at its length and the length incremented, unless it is full (R202). -/
def Buffer.push? (b : Buffer) (byte : Byte) : Option Buffer := Buffer.ofBytes? (b.bytes ++ [byte])

/-- The length of a buffer's list is at most the capacity: the form every buffer has by its type (R34, U16). -/
def Memory.wf (b : Buffer) : Bool := decide (b.bytes.length ≤ Config.bufCap)

/-- `ILEN` (R28, R34). -/
def State.ilen (s : State) : BitVec 17 := BitVec.ofNat 17 s.ibuf.bytes.length

/-- `OLEN` (R28, R34). -/
def State.olen (s : State) : BitVec 17 := BitVec.ofNat 17 s.obuf.bytes.length

/-! ### Nodes and codes -/

/-- A LEAF entry (R30, R120 step 1). -/
def Node.leafOf (sym : Byte) (freq : NodeFreq) : Node :=
  { kind := .leaf, sym := sym, freq := freq, left := Config.nil, right := Config.nil }

/-- An INTERNAL entry (R30, R120 step 2). -/
def Node.internalOf (freq : NodeFreq) (left right : NodeIdx) : Node :=
  { kind := .internal, sym := 0, freq := freq, left := left, right := right }

/-- The 68 bits of a node entry (R30). -/
def Node.packed (n : Node) : BitVec 68 :=
  (n.kind.bits ++ n.sym ++ n.freq ++ n.left ++ n.right : BitVec (2 + 8 + 40 + 9 + 9))

/-- The 264 bits of a code entry (R32). -/
def CodeEntry.packed (e : CodeEntry) : BitVec 264 :=
  (BitVec.ofBool e.valid ++ e.len ++ e.bits : BitVec (1 + 8 + 255))

/-- The valid entry whose code is `path`: its length, and its bits left-aligned (R32, R142). -/
def CodeEntry.ofPath (path : BitSeq) : CodeEntry :=
  { valid := true, len := BitVec.ofNat 8 path.length, bits := packMsb 255 path }

/-- The code of an entry: entry bits 254 down to `255 - len`, first code bit first (R32). -/
def CodeEntry.code (e : CodeEntry) : BitSeq := unpackMsb e.bits e.len.toNat

/-- `code(s)`, defined when `CODE[s].valid = 1` (R32). -/
def codeOf (table : Table CodeEntry Config.nsym) (s : Byte) : Option BitSeq :=
  if (table.sym s).valid then some (table.sym s).code else none

/-- `lookup(q)`: the least symbol with a valid code equal to `q` (R33). -/
def lookup (table : Table CodeEntry Config.nsym) (q : BitSeq) : Option Byte :=
  (table.cells.findIdx? (fun e => e.valid && e.code == q)).map (BitVec.ofNat 8)

/-! ### Error entry, reset and the gates of the decoder -/

/-- Error entry: `raise <Error>(info, pos)` (R226). The command's "state left" clause is applied by the command. -/
def State.raise (s : State) (e : ErrCode) (info : BitVec 16) (pos : BitVec 32) : State :=
  { s with err := e, errinfo := info, errpos := pos }

/-- Every piece of the core's state at its reset value; the inputs still to come are the host's and stay (R201, R260, R261; log entry 4). -/
def State.toReset (s : State) : State := { State.reset with port := s.port }

/-- A command's effect, or none while the machine is faulted: the first test of R94, and R228 (log entry 10). -/
def State.unlessFaulted (s : State) (act : State → State) : State := if s.faulted then s else act s

/-- A command's effect in the phases it is legal in; elsewhere IllegalCommand with reason 2 (R94, R225). -/
def State.inPhase (s : State) (legal : Bool) (op : Byte) (act : State → State) : State :=
  if legal then act s else s.raise .illegalCommand (zext16 op) 2

/-- IllegalCommand for a word that is no command: reason 0 or 1 (R94, R225). -/
def State.illegal (s : State) : Illegal → State
  | .reservedOpcode op => s.unlessFaulted (fun s => s.raise .illegalCommand (zext16 op) 0)
  | .unusedField op => s.unlessFaulted (fun s => s.raise .illegalCommand (zext16 op) 1)

/-! ### The host's side -/

/-- The same core with other inputs still to come. -/
def State.setPort (s : State) (inputs : List HostInput) : State := { s with port := inputs }

/-- The next host input, if one has come, and the state once it is taken (log entry 1). -/
def State.takeInput (s : State) : Option (HostInput × State) :=
  match s.port with
  | [] => none
  | i :: rest => some (i, s.setPort rest)

/-- The commands of a list issued after the inputs that wait already, oldest first (R4). -/
def State.issue (s : State) (is : List Instr) : State :=
  s.setPort (s.port ++ is.map (fun i => .command (encode i)))

/-- Read-port space 0: the scalar registers by number; none for the reserved numbers (R28, R66). -/
def State.readCsr (s : State) (n : Nat) : Option (BitVec 264) :=
  match n with
  | 0 => some (s.phase.bits.setWidth 264)
  | 1 => some (s.err.bits.setWidth 264)
  | 2 => some (s.errinfo.setWidth 264)
  | 3 => some (s.errpos.setWidth 264)
  | 4 => some (s.ilen.setWidth 264)
  | 5 => some (s.olen.setWidth 264)
  | 6 => some (BitVec.ofNat 264 s.nleaf.val)
  | 7 => some (s.nnodes.setWidth 264)
  | 8 => some (s.root.setWidth 264)
  | _ => none

/-- The host's read port: the element at an index of a space, zero-extended to 264 bits (R66). The answer is none where the value is unspecified (U6; log entry 7). A read changes no state. -/
def State.readPort (s : State) (space : BitVec 3) (index : BitVec 17) : Option (BitVec 264) :=
  match space.toNat with
  | 0 => s.readCsr index.toNat
  | 1 => s.freq.cells[index.toNat]?.map (fun c => c.setWidth 264)
  | 2 => s.node.cells[index.toNat]?.map (fun n => n.packed.setWidth 264)
  | 3 => s.code.cells[index.toNat]?.map (fun e => e.packed)
  | 4 => s.ibuf.bytes[index.toNat]?.map (fun b => b.setWidth 264)
  | 5 => s.obuf.bytes[index.toNat]?.map (fun b => b.setWidth 264)
  | _ => none

end Sys2Proof.Machine
end

