-- ==== Sys2Proof/Machine/BitPacker.lean ====
section
/-! DEFINITION. The bit-packer: ENCODE (43_bit_packer.md). -/

namespace Sys2Proof.Machine

/-- Step 1 of ENCODE: the codes of a byte sequence concatenated in order; or the first symbol without a code and its index, counted from `i` (R161, R165). -/
def concatCodes (table : Table CodeEntry Config.nsym) : Nat → List Byte → Except (Byte × Nat) BitSeq
  | _, [] => .ok []
  | i, s :: rest =>
    match codeOf table s with
    | none => .error (s, i)
    | some c =>
      match concatCodes table (i + 1) rest with
      | .ok q => .ok (c ++ q)
      | .error e => .error e

/-- `pad = 8 - (L mod 8)`, 1 to 8 (R162). -/
def padAmount (len : Nat) : Nat := 8 - len % 8

/-- Steps 2 to 4 of ENCODE: the header byte, then the padded bits in groups of 8 (R162, R163, R164). -/
def packBits (q : BitSeq) : List Byte :=
  BitVec.ofNat 8 (padAmount q.length) ::
    groupBytes ((q.length + padAmount q.length) / 8) (q ++ zeros (padAmount q.length))

/-- ENCODE on an accepting machine in phase READY (R160, R165, R166). -/
def State.packInput (s : State) : State :=
  match concatCodes s.code 0 s.ibuf.bytes with
  | .error (sym, i) => { s with obuf := .empty }.raise .unknownSymbol (zext16 sym) (BitVec.ofNat 32 i)
  | .ok q =>
    match Buffer.ofBytes? (packBits q) with
    | none => { s with obuf := .empty }.raise .bufferOverflow 1 (BitVec.ofNat 32 (packBits q).length)
    | some out => { s with obuf := out }

/-- ENCODE: pack IBUF into a PackedStream in OBUF; legal in READY (R160). -/
def execEncode (s : State) : Host.Outcome State Fault Refusal :=
  .next (s.unlessFaulted (fun s => s.inPhase s.tableValid 0x08 State.packInput))

end Sys2Proof.Machine
end

