-- ==== Sys2Proof/Machine/BitUnpacker.lean ====
section
/-! DEFINITION. The bit-unpacker: DECODE (44_bit_unpacker.md). -/

namespace Sys2Proof.Machine

/-- Step 3 of DECODE, the greedy scan (R184): `cand` is the candidate, `start` its position, `k` the position of the next bit.
The answer is the symbols emitted, or the start of a candidate left over when the bits run out (R185). -/
def scan (look : BitSeq → Option Byte) : BitSeq → BitSeq → Nat → Nat → Except Nat (List Byte)
  | [], cand, start, _ => if cand.isEmpty then .ok [] else .error start
  | b :: rest, cand, start, k =>
    match look (cand ++ [b]) with
    | none => scan look rest (cand ++ [b]) start (k + 1)
    | some s =>
      match scan look rest [] (k + 1) (k + 1) with
      | .ok out => .ok (s :: out)
      | .error e => .error e

/-- Steps 1 to 3 of DECODE on a byte sequence: the symbols, or CorruptStream's sub-cause and position (R180, R181, R182, R183, R185). -/
def unpackBytes (look : BitSeq → Option Byte) (bytes : List Byte) : Except (Nat × Nat) (List Byte) :=
  match bytes with
  | [] => .error (1, 0)
  | header :: payload =>
    let pad := header.toNat
    if 8 < pad then .error (2, pad)
    else if 8 * payload.length < pad then .error (3, pad)
    else
      match scan look ((expandBytes payload).take (8 * payload.length - pad)) [] 0 0 with
      | .ok out => .ok out
      | .error start => .error (4, start)

/-- DECODE on an accepting machine in phase READY (R180, R185, R186). -/
def State.unpackInput (s : State) : State :=
  match unpackBytes (lookup s.code) s.ibuf.bytes with
  | .error (cause, pos) =>
    { s with obuf := .empty }.raise .corruptStream (BitVec.ofNat 16 cause) (BitVec.ofNat 32 pos)
  | .ok out =>
    match Buffer.ofBytes? out with
    | none => { s with obuf := .empty }.raise .bufferOverflow 2 (BitVec.ofNat 32 out.length)
    | some b => { s with obuf := b }

/-- DECODE: unpack the PackedStream in IBUF into OBUF; legal in READY (R180). -/
def execDecode (s : State) : Host.Outcome State Fault Refusal :=
  .next (s.unlessFaulted (fun s => s.inPhase s.tableValid 0x09 State.unpackInput))

end Sys2Proof.Machine
end

