-- ==== Sys2Proof/Machine/BufferControl.lean ====
section
/-! DEFINITION. The buffer and control commands NOP, CLEAR, PUT, RSTIN, XFER (45_buffer_control.md). -/

namespace Sys2Proof.Machine

/-- NOP: the next state equals the current state (R200). -/
def execNop (s : State) : Host.Outcome State Fault Refusal := .next s

/-- CLEAR: the reset state, also from the faulted condition (R201, R229). -/
def execClear (s : State) : Host.Outcome State Fault Refusal := .next s.toReset

/-- PUT: append one byte to IBUF, or BufferOverflow when it is full (R202). -/
def execPut (byte : Byte) (s : State) : Host.Outcome State Fault Refusal :=
  .next (s.unlessFaulted (fun s =>
    match s.ibuf.push? byte with
    | none => s.raise .bufferOverflow 0 (BitVec.ofNat 32 (Config.bufCap + 1))
    | some b => { s with ibuf := b }))

/-- RSTIN: empty IBUF (R203). -/
def execRstin (s : State) : Host.Outcome State Fault Refusal :=
  .next (s.unlessFaulted (fun s => { s with ibuf := .empty }))

/-- XFER: copy OBUF into IBUF (R204). -/
def execXfer (s : State) : Host.Outcome State Fault Refusal :=
  .next (s.unlessFaulted (fun s => { s with ibuf := s.obuf }))

end Sys2Proof.Machine
end

