-- ==== Sys2Proof/Machine/CodeTable.lean ====
section
/-! DEFINITION. The code-table generator: GEN (42_code_table.md). -/

namespace Sys2Proof.Machine

/-- A MalformedTree error: the node being visited and the path length there (R144). -/
abbrev WalkError := NodeIdx × Nat

/-- The depth-first, pre-order walk of R142, left subtree before right, over a stack of pending visits (log entry 13).
The fuel is the number of visits still allowed, 511 at the start; at one node the checks are fuel, kind, NIL child, path length (R227 (c)). -/
def walk (store : Table Node Config.nnode) :
    Nat → List (NodeIdx × BitSeq) → Table CodeEntry Config.nsym → Except WalkError (Table CodeEntry Config.nsym)
  | _, [], table => .ok table
  | 0, (i, path) :: _, _ => .error (i, path.length)
  | fuel + 1, (i, path) :: rest, table =>
    match (nodeAt store i).kind with
    | .leaf => walk store fuel rest (table.setSym (nodeAt store i).sym (CodeEntry.ofPath path))
    | .free => .error (i, path.length)
    | .reserved => .error (i, path.length)
    | .internal =>
      let l := (nodeAt store i).left
      let r := (nodeAt store i).right
      if l = Config.nil ∨ r = Config.nil then .error (i, path.length)
      else if path.length = Config.maxLen then .error (i, path.length)
      else walk store fuel ((l, path ++ [false]) :: (r, path ++ [true]) :: rest) table

/-- The table of a tree: the one-symbol case (R143), else the walk from the root with an empty path (R140). -/
def generate (store : Table Node Config.nnode) (root : NodeIdx) :
    Except WalkError (Table CodeEntry Config.nsym) :=
  if root = Config.nil then .error (Config.nil, 0)
  else if (nodeAt store root).kind = .leaf then
    .ok ((Table.fill CodeEntry.invalid).setSym (nodeAt store root).sym (CodeEntry.ofPath [false]))
  else walk store Config.nnode [(root, [])] (.fill CodeEntry.invalid)

/-- GEN on an accepting machine in a legal phase (R140, R144). -/
def State.genTable (s : State) : State :=
  match generate s.node s.root with
  | .ok table => { s with code := table, phase := .ready }
  | .error (i, n) =>
    { s with code := .fill CodeEntry.invalid, phase := .built }.raise .malformedTree (zext16Idx i) (BitVec.ofNat 32 n)

/-- GEN: fill CODE from the tree in NODE; legal in BUILT and READY (R140). -/
def execGen (s : State) : Host.Outcome State Fault Refusal :=
  .next (s.unlessFaulted (fun s => s.inPhase s.treeValid 0x05 State.genTable))

end Sys2Proof.Machine
end

