-- ==== Sys2Proof/Machine/Frequency.lean ====
section
/-! DEFINITION. The frequency store commands SETFREQ and COUNT (40_frequency.md). -/

namespace Sys2Proof.Machine

/-- The table of counts of a byte sequence: all zero, then one 32-bit increment per byte (R111). -/
def countBytes (bytes : List Byte) : Table Count Config.nsym :=
  bytes.foldl (fun f b => f.setSym b (f.sym b + 1)) (.fill 0)

/-- SETFREQ: write one frequency count (R110). -/
def execSetfreq (sym : Byte) (count : Count) (s : State) : Host.Outcome State Fault Refusal :=
  .next (s.unlessFaulted (fun s => { s with freq := s.freq.setSym sym count, phase := .collect }))

/-- COUNT: the frequency counter over IBUF; the new table replaces FREQ (R111, R113). -/
def execCount (s : State) : Host.Outcome State Fault Refusal :=
  .next (s.unlessFaulted (fun s => { s with freq := countBytes s.ibuf.bytes, phase := .collect }))

end Sys2Proof.Machine
end

