-- ==== Sys2Proof/Machine/TreeBuilder.lean ====
section
/-! DEFINITION. The tree builder: BUILD (41_tree_builder.md). While BUILD runs, the node store is the list of the nodes made so far, node index = position. -/

namespace Sys2Proof.Machine

/-- Step 1 of BUILD: one leaf per symbol with a non-zero count, in ascending symbol order (R120). -/
def leafList (freq : Table Count Config.nsym) : List Node :=
  freq.cells.zipIdx.filterMap (fun (c, s) => if c = 0 then none else some (Node.leafOf (BitVec.ofNat 8 s) (zext40 c)))

/-- The frequency of a node by index. -/
def freqAt (nodes : List Node) (i : Nat) : NodeFreq := (nodes.getD i Node.free).freq

/-- `key(i) = NODE[i].freq ‖ i`, 49 bits (R122). -/
def nodeKey (nodes : List Node) (i : Nat) : BitVec 49 := freqAt nodes i ++ BitVec.ofNat 9 i

/-- The member of `m :: rest` with the smallest key, by unsigned comparison (R122). -/
def minMember (key : Nat → BitVec 49) (m : Nat) : List Nat → Nat
  | [] => m
  | i :: rest => if key i < key m then minMember key i rest else minMember key m rest

/-- `extract_min`: the member of the queue with the smallest key, and the queue without it (R122). -/
def extractMin (key : Nat → BitVec 49) : List Nat → Option (Nat × List Nat)
  | [] => none
  | i :: rest => some (minMember key i rest, (i :: rest).erase (minMember key i rest))

/-- The INTERNAL node over two extracted nodes: the first extracted is the left child (R120 step 2, R124). -/
def mergedNode (nodes : List Node) (a b : Nat) : Node :=
  Node.internalOf (freqAt nodes a + freqAt nodes b) (BitVec.ofNat 9 a) (BitVec.ofNat 9 b)

/-- Step 2 of BUILD: extract two, merge, reinsert, until one member is left (R120). Each merge takes one unit of fuel; the queue's length is enough (R127). -/
def mergeLoop : Nat → List Node → List Nat → List Node × List Nat
  | 0, nodes, pq => (nodes, pq)
  | fuel + 1, nodes, pq =>
    match extractMin (nodeKey nodes) pq with
    | none => (nodes, pq)
    | some (a, pq1) =>
      match extractMin (nodeKey nodes) pq1 with
      | none => (nodes, pq)
      | some (b, pq2) => mergeLoop fuel (nodes ++ [mergedNode nodes a b]) (pq2 ++ [nodes.length])

/-- Steps 1 and 2 of BUILD: the nodes of the tree in index order, and the queue at the end. -/
def buildNodes (freq : Table Count Config.nsym) : List Node × List Nat :=
  mergeLoop (leafList freq).length (leafList freq) (List.range (leafList freq).length)

/-- Step 0 of BUILD: discard the old tree and table (R120). -/
def State.discardTree (s : State) : State :=
  { s with
    node := .fill Node.free, code := .fill CodeEntry.invalid
    root := Config.nil, nleaf := 0, nnodes := 0, phase := .collect }

/-- BUILD on an accepting machine (R120, R121). -/
def State.buildTree (s : State) : State :=
  if (leafList s.freq).isEmpty then s.discardTree.raise .emptyAlphabet 0 0
  else
    let built := buildNodes s.freq
    { s.discardTree with
      node := .ofPrefix built.1 Node.free
      root := BitVec.ofNat 9 (built.2.headD 0x1FF)
      nleaf := Fin.ofNat 257 (leafList s.freq).length
      nnodes := BitVec.ofNat 9 built.1.length
      phase := .built }

/-- BUILD: build the code tree from FREQ (R120 to R127). -/
def execBuild (s : State) : Host.Outcome State Fault Refusal := .next (s.unlessFaulted State.buildTree)

end Sys2Proof.Machine
end

