-- ==== Sys2Proof/Machine/Dispatch.lean ====
section
/-! DEFINITION. Which meaning each command has: one arm per row of the opcode map (R93). -/

namespace Sys2Proof.Machine

/-- The effect of a command whose word has passed the decoder (R94). -/
def exec (i : Instr) (s : State) : Host.Outcome State Fault Refusal :=
  match i with
  | .nop => Sys2Proof.Machine.execNop s
  | .clear => Sys2Proof.Machine.execClear s
  | .setfreq sym count => Sys2Proof.Machine.execSetfreq sym count s
  | .count => Sys2Proof.Machine.execCount s
  | .build => Sys2Proof.Machine.execBuild s
  | .gen => Sys2Proof.Machine.execGen s
  | .put byte => Sys2Proof.Machine.execPut byte s
  | .rstin => Sys2Proof.Machine.execRstin s
  | .encode => Sys2Proof.Machine.execEncode s
  | .decode => Sys2Proof.Machine.execDecode s
  | .xfer => Sys2Proof.Machine.execXfer s

end Sys2Proof.Machine
end

