-- ==== Sys2Proof/Machine/Step.lean ====
section
/-! DEFINITION. One step: one host input taken and its effect (R3, R4, R94). -/

namespace Sys2Proof.Machine

/-- One step. With no input the core is idle and holds its state (R233; log entry 2); a hardware reset gives the reset state (R260); a command word is decoded and executed, or raises IllegalCommand (R94). -/
def step (s : State) : Host.Outcome State Fault Refusal :=
  match s.takeInput with
  | none => .next s
  | some (.reset, s) => .next s.toReset
  | some (.command w, s) =>
    match decode w with
    | .ok i => exec i s
    | .error e => .next (s.illegal e)

/-- The state in which the next input is the command word `w` (log entry 3). -/
def State.withFetchWord (s : State) (nbits w : Nat) : State :=
  s.setPort (.command (BitVec.ofNat 48 (w % 2 ^ nbits)) :: s.port)

end Sys2Proof.Machine
end

