-- ==== Sys2Proof/Machine/Realisation.lean ====
section
/-! DEFINITION. The realisations the spec describes beside its architectural rules, and GEN's walk as R142 writes it. No meaning calls them: each is a second design that must yield what the meaning yields (R35, R132, R142, R151, R168, R188, R189). -/

namespace Sys2Proof.Machine

/-! ### The merge network (R132): the queue holds 49-bit keys -/

/-- The smallest key of `k :: rest` (R132). -/
def minKey (k : BitVec 49) : List (BitVec 49) → BitVec 49
  | [] => k
  | x :: rest => if x < k then minKey x rest else minKey k rest

/-- One selection: the smallest key, and the queue without it (R132). -/
def selectKey : List (BitVec 49) → Option (BitVec 49 × List (BitVec 49))
  | [] => none
  | k :: rest => some (minKey k rest, (k :: rest).erase (minKey k rest))

/-- The frequency part of a key. -/
def keyFreq (k : BitVec 49) : NodeFreq := k.extractLsb' 9 40

/-- The node index part of a key. -/
def keyIdx (k : BitVec 49) : NodeIdx := k.extractLsb' 0 9

/-- A merge is two selections, one 40-bit add, one write and one insertion (R132). -/
def networkLoop : Nat → List Node → List (BitVec 49) → List Node × List (BitVec 49)
  | 0, nodes, keys => (nodes, keys)
  | fuel + 1, nodes, keys =>
    match selectKey keys with
    | none => (nodes, keys)
    | some (a, keys1) =>
      match selectKey keys1 with
      | none => (nodes, keys)
      | some (b, keys2) =>
        networkLoop fuel
          (nodes ++ [Node.internalOf (keyFreq a + keyFreq b) (keyIdx a) (keyIdx b)])
          (keys2 ++ [(keyFreq a + keyFreq b) ++ BitVec.ofNat 9 nodes.length])

/-! ### The walk as a recursion (R142) -/

/-- `walk(i, path)` as R142 writes it, with the count of visits made so far passed in and out.
The first argument bounds the depth: it is 255 minus the path length, so its 0 case is the path-length check. -/
def walkRec (store : Table Node Config.nnode) :
    Nat → NodeIdx → BitSeq → Nat → Table CodeEntry Config.nsym →
      Except WalkError (Nat × Table CodeEntry Config.nsym)
  | depth, i, path, visits, table =>
    if Config.nnode < visits + 1 then .error (i, path.length)
    else
      match (nodeAt store i).kind with
      | .leaf => .ok (visits + 1, table.setSym (nodeAt store i).sym (CodeEntry.ofPath path))
      | .free => .error (i, path.length)
      | .reserved => .error (i, path.length)
      | .internal =>
        let l := (nodeAt store i).left
        let r := (nodeAt store i).right
        if l = Config.nil ∨ r = Config.nil then .error (i, path.length)
        else
          match depth with
          | 0 => .error (i, path.length)
          | d + 1 =>
            match walkRec store d l (path ++ [false]) (visits + 1) table with
            | .error e => .error e
            | .ok (v, t) => walkRec store d r (path ++ [true]) v t

/-! ### The walk with one path register (R151) -/

/-- The walk of R151 from a current node: the stack holds pending right children with the path length of their parent, and one register holds the path.
A visit to a leaf pops a pending node, truncates the register to the popped length and extends it by the bit 1. -/
def registerWalk (store : Table Node Config.nnode) :
    Nat → NodeIdx → BitSeq → List (NodeIdx × Nat) → Table CodeEntry Config.nsym →
      Except WalkError (Table CodeEntry Config.nsym)
  | 0, i, reg, _, _ => .error (i, reg.length)
  | fuel + 1, i, reg, stack, table =>
    match (nodeAt store i).kind with
    | .leaf =>
      match stack with
      | [] => .ok (table.setSym (nodeAt store i).sym (CodeEntry.ofPath reg))
      | (r, n) :: rest =>
        registerWalk store fuel r (reg.take n ++ [true]) rest (table.setSym (nodeAt store i).sym (CodeEntry.ofPath reg))
    | .free => .error (i, reg.length)
    | .reserved => .error (i, reg.length)
    | .internal =>
      let l := (nodeAt store i).left
      let r := (nodeAt store i).right
      if l = Config.nil ∨ r = Config.nil then .error (i, reg.length)
      else if reg.length = Config.maxLen then .error (i, reg.length)
      else registerWalk store fuel l (reg ++ [false]) ((r, reg.length) :: stack) table

/-! ### The streaming packer (R168) -/

/-- The inner loop of R168: whole bytes leave the front of `W`, the rest is the residue. The fuel bounds the bytes written. -/
def drainBytes : Nat → BitSeq → List Byte × BitSeq
  | 0, w => ([], w)
  | fuel + 1, w =>
    if 8 ≤ w.length then
      (byteOf (w.take 8) :: (drainBytes fuel (w.drop 8)).1, (drainBytes fuel (w.drop 8)).2)
    else ([], w)

/-- The outer loop of R168 from a residue `acc`: the payload bytes written and the last residue; or the first symbol without a code. -/
def streamSymbols (table : Table CodeEntry Config.nsym) :
    Nat → BitSeq → List Byte → Except (Byte × Nat) (List Byte × BitSeq)
  | _, acc, [] => .ok ([], acc)
  | i, acc, s :: rest =>
    match codeOf table s with
    | none => .error (s, i)
    | some c =>
      match streamSymbols table (i + 1) (drainBytes (acc ++ c).length (acc ++ c)).2 rest with
      | .error e => .error e
      | .ok (out, last) => .ok ((drainBytes (acc ++ c).length (acc ++ c)).1 ++ out, last)

/-- The whole stream of R168: the header is written last, into the slot left free. -/
def streamPack (table : Table CodeEntry Config.nsym) (bytes : List Byte) : Except (Byte × Nat) (List Byte) :=
  match streamSymbols table 0 [] bytes with
  | .error e => .error e
  | .ok (out, acc) =>
    .ok (BitVec.ofNat 8 (8 - acc.length) :: out ++ [byteOf (acc ++ zeros (8 - acc.length))])

/-! ### The streaming unpacker (R188) -/

/-- The bits presented to the matcher: payload bytes shifted in MSB first while `rem` bits remain, so the last pad bits are never presented. -/
def presentBits : Nat → List Byte → BitSeq
  | _, [] => []
  | rem, b :: rest => (bits8 b).take rem ++ presentBits (rem - 8) rest

/-- The matcher that stops once a candidate is 255 bits long: it can never match later, and the error has the same start. -/
def cappedScan (look : BitSeq → Option Byte) : BitSeq → BitSeq → Nat → Nat → Except Nat (List Byte)
  | [], cand, start, _ => if cand.isEmpty then .ok [] else .error start
  | b :: rest, cand, start, k =>
    if cand.length = Config.maxLen then .error start
    else
      match look (cand ++ [b]) with
      | none => cappedScan look rest (cand ++ [b]) start (k + 1)
      | some s =>
        match cappedScan look rest [] (k + 1) (k + 1) with
        | .ok out => .ok (s :: out)
        | .error e => .error e

/-! ### Matching by tree walk (R189) -/

/-- The child a bit leads to: `left` on 0, `right` on 1 (R141, R189). -/
def childOf (store : Table Node Config.nnode) (i : NodeIdx) (b : Bool) : NodeIdx :=
  if b then (nodeAt store i).right else (nodeAt store i).left

/-- The matcher of R189 for two or more leaves: the candidate is non-empty exactly when the current node is not the root. -/
def treeScan (store : Table Node Config.nnode) (root : NodeIdx) :
    BitSeq → NodeIdx → Nat → Nat → Except Nat (List Byte)
  | [], cur, start, _ => if cur = root then .ok [] else .error start
  | b :: rest, cur, start, k =>
    if (nodeAt store (childOf store cur b)).kind = .leaf then
      match treeScan store root rest root (k + 1) (k + 1) with
      | .ok out => .ok ((nodeAt store (childOf store cur b)).sym :: out)
      | .error e => .error e
    else treeScan store root rest (childOf store cur b) start (k + 1)

/-- The matcher of R189 for one leaf: bit 0 emits the one symbol, bit 1 makes every later lookup fail. -/
def oneSymbolScan (sym : Byte) : BitSeq → Nat → Except Nat (List Byte)
  | [], _ => .ok []
  | true :: _, k => .error k
  | false :: rest, k =>
    match oneSymbolScan sym rest (k + 1) with
    | .ok out => .ok (sym :: out)
    | .error e => .error e

end Sys2Proof.Machine
end

