-- ==== Sys2Proof/Safety.lean ====
section
/-! DEFINITION. The terms claims are stated in: frames, the forms every store keeps, the tree invariants of R130, the table invariants of R150, what an error leaves behind (R226), and cost (R131). -/

namespace Sys2Proof.Machine

/-! ### Frames -/

/-- The pieces of the state (R20), and the model's input list. -/
inductive Piece where
  | phase | err | errinfo | errpos | nleaf | nnodes | root | freq | node | code | ibuf | obuf | port
  deriving DecidableEq, Repr

/-- One piece has the same contents in two states. -/
def Piece.same (s t : State) : Piece → Prop
  | .phase => t.phase = s.phase
  | .err => t.err = s.err
  | .errinfo => t.errinfo = s.errinfo
  | .errpos => t.errpos = s.errpos
  | .nleaf => t.nleaf = s.nleaf
  | .nnodes => t.nnodes = s.nnodes
  | .root => t.root = s.root
  | .freq => t.freq = s.freq
  | .node => t.node = s.node
  | .code => t.code = s.code
  | .ibuf => t.ibuf = s.ibuf
  | .obuf => t.obuf = s.obuf
  | .port => t.port = s.port

/-- Every piece but those listed is unchanged from `s` to `t`. -/
def Frame (changed : List Piece) (s t : State) : Prop := ∀ p, p ∉ changed → p.same s t

/-- The pieces a command may write: the "written by" columns of R28 and R60, and the error registers for the commands that raise. -/
def writesOf : Instr → List Piece
  | .nop => []
  | .clear => [.phase, .err, .errinfo, .errpos, .nleaf, .nnodes, .root, .freq, .node, .code, .ibuf, .obuf]
  | .setfreq _ _ => [.freq, .phase]
  | .count => [.freq, .phase]
  | .build => [.node, .code, .nleaf, .nnodes, .root, .phase, .err, .errinfo, .errpos]
  | .gen => [.code, .phase, .err, .errinfo, .errpos]
  | .put _ => [.ibuf, .err, .errinfo, .errpos]
  | .rstin => [.ibuf]
  | .encode => [.obuf, .err, .errinfo, .errpos]
  | .decode => [.obuf, .err, .errinfo, .errpos]
  | .xfer => [.ibuf]

/-! ### The forms every store keeps -/

/-- The form of a node entry (R30): FREE is all zero, a leaf has no children, an internal node has no symbol and two children, and kind 3 is never written. -/
def Node.wellFormed (n : Node) : Prop :=
  match n.kind with
  | .free => n = Node.free
  | .leaf => n.left = Config.nil ∧ n.right = Config.nil
  | .internal => n.sym = 0 ∧ n.left ≠ Config.nil ∧ n.right ≠ Config.nil
  | .reserved => False

/-- The form of a code entry (R32): invalid is all zero, a valid entry has 1 to 255 code bits and zero below them. -/
def CodeEntry.wellFormed (e : CodeEntry) : Prop :=
  if e.valid then 1 ≤ e.len.toNat ∧ e = CodeEntry.ofPath e.code else e = CodeEntry.invalid

/-- What holds of the stores and registers in every phase (R24, R27, R28, R30, R31, R32). -/
structure StoresOk (s : State) : Prop where
  /-- While `ERR = 0`, `ERRINFO` and `ERRPOS` are 0 (R27). -/
  noDetail : s.err = .none → s.errinfo = 0 ∧ s.errpos = 0
  /-- Every node entry has the form of R30. -/
  nodes : ∀ n ∈ s.node.cells, n.wellFormed
  /-- Every code entry has the form of R32. -/
  codes : ∀ e ∈ s.code.cells, e.wellFormed
  /-- The legal values of NLEAF, NNODES and ROOT (R28). -/
  counts : (s.nleaf.val = 0 ∧ s.nnodes = 0 ∧ s.root = Config.nil) ∨
    (1 ≤ s.nleaf.val ∧ s.nnodes.toNat = 2 * s.nleaf.val - 1 ∧ s.root.toNat = 2 * s.nleaf.val - 2)
  /-- From BUILT on there is a tree (R24). -/
  treePresent : s.phase ≠ .collect → 1 ≤ s.nleaf.val
  /-- In BUILT no entry of CODE is valid (R24). -/
  noTable : s.phase = .built → ∀ e ∈ s.code.cells, e = CodeEntry.invalid

/-! ### The tree (R130) -/

/-- Node number `i` of the store. -/
def State.nodeNo (s : State) (i : Nat) : Node := s.node.cells.getD i Node.free

/-- The `left` and `right` fields of all INTERNAL entries. -/
def State.childList (s : State) : List NodeIdx :=
  s.node.cells.flatMap (fun n => if n.kind = .internal then [n.left, n.right] else [])

/-- The sum of all counts. -/
def totalCount (freq : Table Count Config.nsym) : Nat := (freq.cells.map BitVec.toNat).sum

/-- The number of symbols with a non-zero count. -/
def distinctSymbols (freq : Table Count Config.nsym) : Nat := freq.cells.countP (fun c => c != 0)

/-- The node a bit sequence leads to from a node, one edge per bit, through INTERNAL nodes (R141). -/
def follow (store : Table Node Config.nnode) : NodeIdx → BitSeq → Option NodeIdx
  | i, [] => some i
  | i, b :: rest =>
    if (nodeAt store i).kind = .internal then follow store (childOf store i b) rest else none

/-- The tree invariants of R130 (a) to (e), and the counts of R127, against the current FREQ. -/
structure TreeOk (s : State) : Prop where
  /-- There is a leaf. -/
  leafCount : s.nleaf.val = distinctSymbols s.freq ∧ 1 ≤ s.nleaf.val
  /-- `NNODES = 2*NLEAF - 1` and `ROOT = 2*NLEAF - 2` (R127). -/
  counts : s.nnodes.toNat = 2 * s.nleaf.val - 1 ∧ s.root.toNat = 2 * s.nleaf.val - 2
  /-- (a) Entries below NLEAF are leaves of symbols with a count, with that count. -/
  leaves : ∀ i < s.nleaf.val, s.freq.sym (s.nodeNo i).sym ≠ 0 ∧
    s.nodeNo i = Node.leafOf (s.nodeNo i).sym (zext40 (s.freq.sym (s.nodeNo i).sym))
  /-- (a) in strictly ascending order of symbol, -/
  ascending : ∀ j < s.nleaf.val, ∀ i < j, (s.nodeNo i).sym.toNat < (s.nodeNo j).sym.toNat
  /-- (a) and every symbol with a count has one. -/
  allSymbols : ∀ y : Byte, s.freq.sym y ≠ 0 → ∃ i < s.nleaf.val, (s.nodeNo i).sym = y
  /-- (b) Then come internal nodes over earlier nodes. -/
  internals : ∀ i < 2 * s.nleaf.val - 1, s.nleaf.val ≤ i →
    (s.nodeNo i).kind = .internal ∧ (s.nodeNo i).sym = 0 ∧
      (s.nodeNo i).left.toNat < i ∧ (s.nodeNo i).right.toNat < i
  /-- (c) The rest of the store is FREE. -/
  frees : ∀ i < Config.nnode, 2 * s.nleaf.val - 1 ≤ i → s.nodeNo i = Node.free
  /-- (d) Each node but the root is owned exactly once, -/
  ownedOnce : ∀ i < 2 * s.nleaf.val - 2, s.childList.count (BitVec.ofNat 9 i) = 1
  /-- (d) and the root by none. -/
  rootUnowned : s.childList.count s.root = 0
  /-- (e) An internal node's frequency is the sum of its children's, without wrap (R126). -/
  sums : ∀ i < 2 * s.nleaf.val - 1, s.nleaf.val ≤ i →
    (s.nodeNo i).freq.toNat =
      (s.nodeNo (s.nodeNo i).left.toNat).freq.toNat + (s.nodeNo (s.nodeNo i).right.toNat).freq.toNat
  /-- (e) The root's frequency is the sum of all counts. -/
  total : (s.nodeNo s.root.toNat).freq.toNat = totalCount s.freq

/-! ### The table (R150) -/

/-- No code of a symbol is a prefix of another symbol's code (R150 (c)). -/
def PrefixFree (table : Table CodeEntry Config.nsym) : Prop :=
  ∀ y z c d, y ≠ z → codeOf table y = some c → codeOf table z = some d → ¬ c <+: d

/-- No code is the empty sequence (R142, R143). -/
def NonEmptyCodes (table : Table CodeEntry Config.nsym) : Prop := ∀ y, codeOf table y ≠ some []

/-- The codes of a byte sequence, concatenated in order; an invalid symbol contributes nothing (R161). -/
def codeBits (table : Table CodeEntry Config.nsym) (bytes : List Byte) : BitSeq :=
  bytes.flatMap (fun y => (codeOf table y).getD [])

/-- Every byte of the list has a valid code. -/
def AllCoded (table : Table CodeEntry Config.nsym) (bytes : List Byte) : Prop :=
  ∀ y ∈ bytes, (table.sym y).valid = true

/-- The table invariants of R150 (a) to (d). -/
structure TableOk (s : State) : Prop where
  /-- (a) A symbol has a code exactly when its count is not 0, -/
  validIff : ∀ y, (codeOf s.code y).isSome = true ↔ s.freq.sym y ≠ 0
  /-- (a) so there are NLEAF codes. -/
  cardinality : s.code.cells.countP (fun e => e.valid) = s.nleaf.val
  /-- (b) With two or more leaves a code is the path from the root to the symbol's leaf, -/
  paths : 2 ≤ s.nleaf.val → ∀ y c, codeOf s.code y = some c →
    ∃ i, follow s.node s.root c = some i ∧ (nodeAt s.node i).kind = .leaf ∧ (nodeAt s.node i).sym = y
  /-- (b) of 1 to NLEAF - 1 bits; -/
  lengths : 2 ≤ s.nleaf.val → ∀ y c, codeOf s.code y = some c → 1 ≤ c.length ∧ c.length ≤ s.nleaf.val - 1
  /-- (b) with one leaf it is "0". -/
  single : s.nleaf.val = 1 → ∀ y c, codeOf s.code y = some c → c = [false]
  /-- (c) The code is prefix-free, -/
  prefixFree : PrefixFree s.code
  /-- (c) so lookup inverts it. -/
  inverse : ∀ y c, codeOf s.code y = some c → lookup s.code c = some y
  /-- (d) With two or more leaves every bit sequence is a proper prefix of some code or has exactly one code as a prefix. -/
  complete : 2 ≤ s.nleaf.val → ∀ q : BitSeq,
    (∃ y c, codeOf s.code y = some c ∧ q <+: c ∧ q ≠ c) ∨
      (∃ y, (∃ c, codeOf s.code y = some c ∧ c <+: q) ∧
        ∀ z, (∃ d, codeOf s.code z = some d ∧ d <+: q) → z = y)

/-- The tree is valid from BUILT on (R24). -/
def TreeWhenBuilt (s : State) : Prop := s.phase ≠ .collect → TreeOk s

/-- The table is valid in READY (R24). -/
def TableWhenReady (s : State) : Prop := s.phase = .ready → TableOk s

/-! ### What an error leaves (R221, R226) -/

/-- The details the error registers hold, and the state left, for each error (R221, R226). -/
def ErrorForm (s : State) : Prop :=
  match s.err with
  | .none => s.errinfo = 0 ∧ s.errpos = 0
  | .emptyAlphabet =>
    s.errinfo = 0 ∧ s.errpos = 0 ∧ s.phase = .collect ∧ s.root = Config.nil ∧ s.nleaf.val = 0 ∧ s.nnodes = 0 ∧
      s.node = .fill Node.free ∧ s.code = .fill CodeEntry.invalid
  | .malformedTree => s.errinfo.toNat ≤ 0x1FF ∧ s.errpos.toNat ≤ 255 ∧ s.phase = .built ∧ s.code = .fill CodeEntry.invalid
  | .unknownSymbol => s.errinfo.toNat ≤ 255 ∧ s.errpos.toNat < s.ibuf.bytes.length ∧ s.phase = .ready ∧ s.obuf = .empty
  | .corruptStream =>
    s.phase = .ready ∧ s.obuf = .empty ∧
      ((s.errinfo = 1 ∧ s.errpos = 0) ∨ (s.errinfo = 2 ∧ 9 ≤ s.errpos.toNat ∧ s.errpos.toNat ≤ 255) ∨
        (s.errinfo = 3 ∧ 1 ≤ s.errpos.toNat ∧ s.errpos.toNat ≤ 8) ∨
        (s.errinfo = 4 ∧ s.errpos.toNat < 8 * (s.ibuf.bytes.length - 1)))
  | .bufferOverflow =>
    Config.bufCap < s.errpos.toNat ∧
      ((s.errinfo = 0 ∧ s.errpos.toNat = Config.bufCap + 1 ∧ s.ibuf.bytes.length = Config.bufCap) ∨
        ((s.errinfo = 1 ∨ s.errinfo = 2) ∧ s.phase = .ready ∧ s.obuf = .empty))
  | .illegalCommand => s.errinfo.toNat ≤ 255 ∧ s.errpos.toNat ≤ 2

/-! ### Cost (R131) -/

/-- The sum over the symbols of count times code length, for a given assignment of codes. -/
def costOf (freq : Table Count Config.nsym) (c : Byte → BitSeq) : Nat :=
  ((List.range 256).map (fun n => (freq.sym (BitVec.ofNat 8 n)).toNat * (c (BitVec.ofNat 8 n)).length)).sum

/-- An assignment of non-empty codes to the symbols with a count, none a prefix of another's. -/
def PrefixFreeAssignment (freq : Table Count Config.nsym) (c : Byte → BitSeq) : Prop :=
  (∀ y, freq.sym y ≠ 0 → c y ≠ []) ∧
    ∀ y z, y ≠ z → freq.sym y ≠ 0 → freq.sym z ≠ 0 → ¬ c y <+: c z

end Sys2Proof.Machine
end

