-- ==== Sys2Proof/Certificates/Slice0/Obligations.lean ====
section
/-! DEFINITION. The statements for the provers, from the numbered rules of spec/. -/

open Sys2Proof Sys2Proof.Machine

/-! ### Encoding -/

/-- R90 to R93: a word decodes to a command exactly when it is that command's word. -/
def Obligations.DecodeIsExactlyEncodeInverse : Prop :=
  ∀ (w : CmdWord) (i : Instr), decode w = .ok i ↔ w = encode i

/-- R93: a command's word selects exactly one row of the opcode map, its own; a word that is no command selects none. -/
def Obligations.OpcodeMapSelectsDecodedRow : Prop :=
  ∀ w : CmdWord,
    (∀ i, decode w = .ok i → ∃ r, opcodeMap.filter (fun r => r.selects w) = [r] ∧
      r.mnemonic = i.mnemonic ∧ formatOf i.opcode = some r.format) ∧
    (∀ e, decode w = .error e → opcodeMap.filter (fun r => r.selects w) = [])

/-- The worked encodings of 30_encoding.md (R99, an inference the spec marks as its own), and the four illegal examples as the first word after reset. -/
def Obligations.WorkedEncodings : Prop :=
  decode 0x000000000000 = .ok .nop ∧ decode 0x010000000000 = .ok .clear ∧
  decode 0x024100000002 = .ok (.setfreq 0x41 2) ∧ decode 0x024300000004 = .ok (.setfreq 0x43 4) ∧
  decode 0x030000000000 = .ok .count ∧ decode 0x040000000000 = .ok .build ∧
  decode 0x050000000000 = .ok .gen ∧ decode 0x064100000000 = .ok (.put 0x41) ∧
  decode 0x06AF00000000 = .ok (.put 0xAF) ∧ decode 0x070000000000 = .ok .rstin ∧
  decode 0x080000000000 = .ok .encode ∧ decode 0x090000000000 = .ok .decode ∧
  decode 0x0A0000000000 = .ok .xfer ∧
  step (State.reset.withFetchWord 48 0x0B0000000000) =
    .next { State.reset with err := .illegalCommand, errinfo := 0x0B, errpos := 0 } ∧
  step (State.reset.withFetchWord 48 0x040000000001) =
    .next { State.reset with err := .illegalCommand, errinfo := 0x04, errpos := 1 } ∧
  step (State.reset.withFetchWord 48 0x064100000001) =
    .next { State.reset with err := .illegalCommand, errinfo := 0x06, errpos := 1 } ∧
  step (State.reset.withFetchWord 48 0x080000000000) =
    .next { State.reset with err := .illegalCommand, errinfo := 0x08, errpos := 2 }

/-- R97, R98, log entry 16: every command is some assembler line, a line gives a command of its mnemonic, and the pseudo-instructions expand to their commands. -/
def Obligations.AssemblerForms : Prop :=
  (∀ i : Instr, ∃ operands, assemble i.mnemonic operands = some i) ∧
  (∀ (mnemonic : String) (operands : List Nat) (i : Instr), assemble mnemonic operands = some i → i.mnemonic = mnemonic) ∧
  (∀ text : List Byte, (∀ c ∈ text, 0x20 ≤ c.toNat ∧ c.toNat ≤ 0x7E) →
    (Pseudo.puts text).expand = some (text.map Instr.put)) ∧
  Pseudo.compress.expand = some [.count, .build, .gen, .encode] ∧ Pseudo.loopback.expand = some [.xfer, .decode]

/-- R225: IllegalCommand, its three reasons in their order, its details, and that nothing else changes. -/
def Obligations.IllegalCommandReasons : Prop :=
  ∀ (s : State) (w : CmdWord) (rest : List HostInput), s.err = .none → s.port = .command w :: rest →
    let op : Byte := w.extractLsb' 40 8
    let a : Byte := w.extractLsb' 32 8
    let b : Count := w.extractLsb' 0 32
    let raised (reason : BitVec 32) : State :=
      { s.setPort rest with err := .illegalCommand, errinfo := op.setWidth 16, errpos := reason }
    (0x0A < op.toNat → step s = .next (raised 0)) ∧
    (op.toNat ≤ 0x0A → op ≠ 0x02 → op ≠ 0x06 → (a ≠ 0 ∨ b ≠ 0) → step s = .next (raised 1)) ∧
    (op = 0x06 → b ≠ 0 → step s = .next (raised 1)) ∧
    (a = 0 → b = 0 → op = 0x05 → s.phase = .collect → step s = .next (raised 2)) ∧
    (a = 0 → b = 0 → (op = 0x08 ∨ op = 0x09) → s.phase ≠ .ready → step s = .next (raised 2))

/-! ### The step, reset and the faulted condition -/

/-- R94, log entry 1: a step whose input is the word of a command is that command's `exec`, the input taken. -/
def Obligations.StepRunsDecodedCommand : Prop :=
  ∀ (s : State) (w : CmdWord) (rest : List HostInput) (i : Instr),
    s.port = .command w :: rest → decode w = .ok i → step s = exec i (s.setPort rest)

/-- R3, log entries 1 and 2: in every state the step answers a next state, and takes at most one input. -/
def Obligations.EveryStepAnswersNext : Prop :=
  ∀ s : State, ∃ t, step s = .next t ∧ t.port = s.port.drop 1

/-- R233, log entry 2: with no input the core is idle and holds its state. -/
def Obligations.IdleCoreHoldsState : Prop := ∀ s : State, s.port = [] → step s = .next s

/-- R36: what the host reads in the reset state, after a hardware reset and after CLEAR: 0 everywhere, but NIL in ROOT, and both buffers empty. -/
def Obligations.ResetValuesAsRead : Prop :=
  let atReset (t : State) : Prop :=
    t.phase = .collect ∧ t.err = .none ∧ t.ibuf.bytes = [] ∧ t.obuf.bytes = [] ∧
      (∀ n < 9, t.readCsr n = some (if n = 8 then 0x1FF else 0)) ∧
      (∀ y, t.freq.sym y = 0) ∧ (∀ i, (t.node.get i).packed = 0) ∧ (∀ y, (t.code.sym y).packed = 0)
  atReset State.reset ∧
    ∀ (s : State) (i : HostInput) (rest : List HostInput), s.port = i :: rest →
      (i = .reset ∨ i = .command 0x010000000000) → ∃ t, step s = .next t ∧ atReset t

/-- R260: a hardware reset gives the reset state from every state, faulted or not. -/
def Obligations.HardwareResetRestoresReset : Prop :=
  ∀ (s : State) (rest : List HostInput), s.port = .reset :: rest → step s = .next (State.reset.setPort rest)

/-- R201, R261: CLEAR gives the reset state from every state, faulted or not, and the exact CLEAR word runs it. -/
def Obligations.ClearRestoresReset : Prop :=
  (∀ s : State, exec .clear s = .next (State.reset.setPort s.port)) ∧
    ∀ (s : State) (rest : List HostInput), s.port = .command 0x010000000000 :: rest →
      step s = .next (State.reset.setPort rest)

/-- R228: while an error is held every word but the exact CLEAR word is dropped, illegal words too. -/
def Obligations.FaultedDropsAllButClear : Prop :=
  ∀ (s : State) (w : CmdWord) (rest : List HostInput), s.err ≠ .none → s.port = .command w :: rest →
    w ≠ 0x010000000000 → step s = .next (s.setPort rest)

/-- R26: `ERR` is sticky: a step changes a held error and its details only by CLEAR or hardware reset, and then into the reset state. -/
def Obligations.OnlyClearOrResetEndsFault : Prop :=
  ∀ s t : State, s.err ≠ .none → step s = .next t →
    (t.err = s.err ∧ t.errinfo = s.errinfo ∧ t.errpos = s.errpos) ∨
      ((s.port.head? = some .reset ∨ s.port.head? = some (.command 0x010000000000)) ∧
        t = State.reset.setPort (s.port.drop 1))

/-- R23: the phase after each command, exactly when a command is illegal in its phase and what it then does, and that a held error keeps the phase. -/
def Obligations.PhaseTransitions : Prop :=
  ∀ (i : Instr) (s t : State), exec i s = .next t →
    (s.err ≠ .none → i ≠ .clear → t.phase = s.phase) ∧
    (s.err = .none →
      match i with
      | .nop | .put _ | .rstin | .xfer => t.phase = s.phase ∧ t.err ≠ .illegalCommand
      | .clear | .setfreq _ _ | .count => t.phase = .collect ∧ t.err = .none
      | .build => (t.err = .none ∧ t.phase = .built) ∨ (t.err = .emptyAlphabet ∧ t.phase = .collect)
      | .gen =>
        if s.phase = .collect then t = { s with err := .illegalCommand, errinfo := 0x05, errpos := 2 }
        else (t.err = .none ∧ t.phase = .ready) ∨ (t.err = .malformedTree ∧ t.phase = .built)
      | .encode =>
        if s.phase = .ready then t.phase = .ready ∧ (t.err = .none ∨ t.err = .unknownSymbol ∨ t.err = .bufferOverflow)
        else t = { s with err := .illegalCommand, errinfo := 0x08, errpos := 2 }
      | .decode =>
        if s.phase = .ready then t.phase = .ready ∧ (t.err = .none ∨ t.err = .corruptStream ∨ t.err = .bufferOverflow)
        else t = { s with err := .illegalCommand, errinfo := 0x09, errpos := 2 })

/-- R25, R110, R111, R120, R140, R201, R230: the three flags and the output `err` after each command that completes without error. -/
def Obligations.FlagsAfterCommands : Prop :=
  ∀ (i : Instr) (s t : State), s.err = .none → exec i s = .next t → t.err = .none →
    t.faulted = false ∧ t.errPin = false ∧
      (match i with
      | .clear | .setfreq _ _ | .count => t.treeValid = false ∧ t.tableValid = false
      | .build => t.treeValid = true ∧ t.tableValid = false
      | .gen | .encode | .decode => t.treeValid = true ∧ t.tableValid = true
      | .nop | .put _ | .rstin | .xfer => t.treeValid = s.treeValid ∧ t.tableValid = s.tableValid)

/-- R28, R60: no command writes a piece of state outside its "written by" columns. -/
def Obligations.CommandsWriteOnlyTheirPieces : Prop :=
  ∀ (i : Instr) (s t : State), exec i s = .next t → Frame (writesOf i) s t

/-- R20, R66: what the host can read determines every piece of the core's state. -/
def Obligations.ReadPortDeterminesState : Prop :=
  ∀ s t : State, (∀ space index, s.readPort space index = t.readPort space index) → Frame [.port] s t

/-- R66: the value of each read in range. -/
def Obligations.ReadPortValues : Prop :=
  ∀ s : State,
    (∀ y : Byte, s.readPort 1 (y.setWidth 17) = some ((s.freq.sym y).setWidth 264)) ∧
    (∀ i : NodeIdx, i ≠ Config.nil → s.readPort 2 (i.setWidth 17) = some ((nodeAt s.node i).packed.setWidth 264)) ∧
    (∀ y : Byte, s.readPort 3 (y.setWidth 17) = some (s.code.sym y).packed) ∧
    (∀ (i : BitVec 17) (b : Byte), s.ibuf.bytes[i.toNat]? = some b → s.readPort 4 i = some (b.setWidth 264)) ∧
    (∀ (i : BitVec 17) (b : Byte), s.obuf.bytes[i.toNat]? = some b → s.readPort 5 i = some (b.setWidth 264)) ∧
    s.readPort 0 0 = some (s.phase.bits.setWidth 264) ∧ s.readPort 0 1 = some (s.err.bits.setWidth 264) ∧
    s.readPort 0 2 = some (s.errinfo.setWidth 264) ∧ s.readPort 0 3 = some (s.errpos.setWidth 264) ∧
    s.readPort 0 4 = some (BitVec.ofNat 264 s.ibuf.bytes.length) ∧
    s.readPort 0 5 = some (BitVec.ofNat 264 s.obuf.bytes.length) ∧
    s.readPort 0 6 = some (BitVec.ofNat 264 s.nleaf.val) ∧ s.readPort 0 7 = some (s.nnodes.setWidth 264) ∧
    s.readPort 0 8 = some (s.root.setWidth 264)

/-! ### Frequency store -/

/-- R110: SETFREQ writes one count and invalidates tree and table, whatever the count and the phase. -/
def Obligations.SetfreqWritesOneCount : Prop :=
  ∀ (s : State) (sym : Byte) (c : Count), s.err = .none → decode (0x02#8 ++ sym ++ c) = .ok (.setfreq sym c) ∧
    ∃ t, exec (.setfreq sym c) s = .next t ∧ t.freq.sym sym = c ∧ (∀ y, y ≠ sym → t.freq.sym y = s.freq.sym y) ∧
      t.phase = .collect ∧ Frame [.freq, .phase] s t

/-- R111: after COUNT every count is the number of its symbol's occurrences in IBUF, and nothing but FREQ and PHASE changes. -/
def Obligations.CountCountsBytes : Prop :=
  ∀ s : State, s.err = .none → decode 0x030000000000 = .ok .count ∧
    ∃ t, exec .count s = .next t ∧ (∀ y, (t.freq.sym y).toNat = s.ibuf.bytes.count y) ∧
      t.phase = .collect ∧ Frame [.freq, .phase] s t

/-- COUNT never wraps, and its counts sum to ILEN (R112, an inference the spec marks as its own, from R111). -/
def Obligations.CountTotalIsInputLength : Prop :=
  ∀ s t : State, s.err = .none → exec .count s = .next t →
    totalCount t.freq = s.ibuf.bytes.length ∧ ∀ y, (t.freq.sym y).toNat ≤ 65536

/-! ### Tree builder -/

/-- R121: BUILD on a table without a non-zero count, and the whole state it leaves. -/
def Obligations.BuildOnEmptyTableRaises : Prop :=
  ∀ s : State, s.err = .none → (∀ y, s.freq.sym y = 0) →
    exec .build s = .next { s with
      node := .fill Node.free, code := .fill CodeEntry.invalid, root := Config.nil, nleaf := 0, nnodes := 0
      phase := .collect, err := .emptyAlphabet, errinfo := 0, errpos := 0 }

/-- R120: BUILD on a table with a non-zero count completes with a tree that meets every invariant of R130, clears CODE, and changes nothing else; R126, R127 and R130 are inferences the spec marks as its own. -/
def Obligations.BuildCompletesWithTree : Prop :=
  ∀ s : State, s.err = .none → (∃ y, s.freq.sym y ≠ 0) →
    ∃ t, exec .build s = .next t ∧ t.phase = .built ∧ TreeOk t ∧ (∀ y, t.code.sym y = CodeEntry.invalid) ∧
      Frame [.node, .code, .root, .nleaf, .nnodes, .phase] s t

/-- R125: with one distinct symbol the leaf itself is the root and there is no internal node. -/
def Obligations.BuildOneSymbolLeafIsRoot : Prop :=
  ∀ (s : State) (y : Byte), s.err = .none → s.freq.sym y ≠ 0 → (∀ z, z ≠ y → s.freq.sym z = 0) →
    ∃ t, exec .build s = .next t ∧ t.phase = .built ∧ t.nleaf.val = 1 ∧ t.nnodes = 1 ∧ t.root = 0 ∧
      t.nodeNo 0 = Node.leafOf y (zext40 (s.freq.sym y)) ∧ ∀ n ∈ t.node.cells, n.kind ≠ .internal

/-- R122, R123, R124: with two distinct symbols the root's left child is the leaf of smaller frequency, the smaller symbol on a tie. -/
def Obligations.BuildTwoSymbolsFollowsKeyOrder : Prop :=
  ∀ (s : State) (x y : Byte), s.err = .none → x.toNat < y.toNat → s.freq.sym x ≠ 0 → s.freq.sym y ≠ 0 →
    (∀ z, z ≠ x → z ≠ y → s.freq.sym z = 0) →
    ∃ t, exec .build s = .next t ∧ t.root = 2 ∧ (nodeAt t.node 0).sym = x ∧ (nodeAt t.node 1).sym = y ∧
      (nodeAt t.node 2).kind = .internal ∧
      (nodeAt t.node 2).freq.toNat = (s.freq.sym x).toNat + (s.freq.sym y).toNat ∧
      (if (s.freq.sym x).toNat ≤ (s.freq.sym y).toNat
        then (nodeAt t.node 2).left = 0 ∧ (nodeAt t.node 2).right = 1
        else (nodeAt t.node 2).left = 1 ∧ (nodeAt t.node 2).right = 0)

/-- R122: `extract_min` answers the one member with the smallest 49-bit key, and the queue without it. -/
def Obligations.ExtractMinTakesLeastKey : Prop :=
  ∀ (nodes : List Node) (pq : List Nat), pq ≠ [] → pq.Nodup → (∀ i ∈ pq, i < 512) →
    ∃ m rest, extractMin (nodeKey nodes) pq = some (m, rest) ∧ pq.Perm (m :: rest) ∧
      ∀ j ∈ rest, nodeKey nodes m < nodeKey nodes j ∧
        ((freqAt nodes m).toNat < (freqAt nodes j).toNat ∨
          ((freqAt nodes m).toNat = (freqAt nodes j).toNat ∧ m < j))

/-- R130 (f), an inference the spec marks as its own: the depth of a leaf is at most `NLEAF - 1`, and at least 1 with two or more leaves. -/
def Obligations.LeafDepthBound : Prop :=
  ∀ (s : State) (path : BitSeq) (i : NodeIdx), TreeOk s → follow s.node s.root path = some i →
    (nodeAt s.node i).kind = .leaf → path.length ≤ s.nleaf.val - 1 ∧ (2 ≤ s.nleaf.val → 1 ≤ path.length)

/-- R120 to R124, R140 to R143: tree and table are a function of FREQ alone, as the spec infers in R123 and R150 (e). -/
def Obligations.TableIsFunctionOfFreq : Prop :=
  ∀ s s' t t' u u' : State, s.err = .none → s'.err = .none → s.freq = s'.freq →
    exec .build s = .next t → exec .build s' = .next t' → exec .gen t = .next u → exec .gen t' = .next u' →
    Frame [.ibuf, .obuf, .port, .errinfo, .errpos] u u'

/-- R131: the codes of BUILD and GEN have the least cost of all prefix-free assignments of non-empty codes. -/
def Obligations.HuffmanCodesAreOptimal : Prop :=
  ∀ s : State, s.err = .none → (∃ y, s.freq.sym y ≠ 0) →
    ∃ t u, exec .build s = .next t ∧ exec .gen t = .next u ∧ u.phase = .ready ∧
      ∀ c : Byte → BitSeq, PrefixFreeAssignment s.freq c →
        costOf s.freq (fun y => (codeOf u.code y).getD []) ≤ costOf s.freq c

/-- R132: the merge network, which holds 49-bit keys in its queue, builds the nodes of the architectural loop. -/
def Obligations.MergeNetworkAgrees : Prop :=
  ∀ freq : Table Count Config.nsym,
    networkLoop (leafList freq).length (leafList freq)
        ((List.range (leafList freq).length).map (nodeKey (leafList freq))) =
      ((buildNodes freq).1, (buildNodes freq).2.map (nodeKey (buildNodes freq).1))

/-! ### Code-table generator -/

/-- R140, R144, and R150, an inference the spec marks as its own: on a tree that meets R130, GEN raises nothing and completes with a table that meets every invariant, and changes nothing else. -/
def Obligations.GenCompletesOnTree : Prop :=
  ∀ s : State, s.err = .none → s.phase ≠ .collect → TreeOk s →
    ∃ t, exec .gen s = .next t ∧ t.phase = .ready ∧ TableOk t ∧ Frame [.code, .phase] s t

/-- R141, R142: on any node store whose walk succeeds from an INTERNAL root, every code is the path from the root to a leaf of its symbol. -/
def Obligations.GenCodesArePathsOfLeaves : Prop :=
  ∀ s t : State, s.err = .none → s.phase ≠ .collect → (nodeAt s.node s.root).kind = .internal →
    exec .gen s = .next t → t.err = .none →
    ∀ y c, codeOf t.code y = some c →
      ∃ i, follow s.node s.root c = some i ∧ (nodeAt s.node i).kind = .leaf ∧ (nodeAt s.node i).sym = y

/-- R143: when the root is a leaf its symbol gets the code "0", and no other symbol has one. -/
def Obligations.GenOneSymbolCodeIsZero : Prop :=
  ∀ s : State, s.err = .none → s.phase ≠ .collect → s.root ≠ Config.nil → (nodeAt s.node s.root).kind = .leaf →
    ∃ t, exec .gen s = .next t ∧ t.phase = .ready ∧ Frame [.code, .phase] s t ∧
      (∀ y, t.code.sym y =
        if y = (nodeAt s.node s.root).sym then { valid := true, len := 1, bits := 0 } else CodeEntry.invalid) ∧
      ∀ y, codeOf t.code y = if y = (nodeAt s.node s.root).sym then some [false] else none

/-- R144: a failing GEN raises MalformedTree, leaves no table, and leaves phase BUILT; and its details at a root that fails. -/
def Obligations.GenMalformedTreeLeavesNoTable : Prop :=
  ∀ s : State, s.err = .none → s.phase ≠ .collect →
    (∀ t, exec .gen s = .next t → t.err ≠ .none →
      t.err = .malformedTree ∧ t.phase = .built ∧ (∀ y, t.code.sym y = CodeEntry.invalid) ∧
        Frame [.code, .phase, .err, .errinfo, .errpos] s t) ∧
    (s.root = Config.nil →
      ∃ t, exec .gen s = .next t ∧ t.err = .malformedTree ∧ t.errinfo = 0x01FF ∧ t.errpos = 0) ∧
    (s.root ≠ Config.nil →
      ((nodeAt s.node s.root).kind = .free ∨ (nodeAt s.node s.root).kind = .reserved ∨
        ((nodeAt s.node s.root).kind = .internal ∧
          ((nodeAt s.node s.root).left = Config.nil ∨ (nodeAt s.node s.root).right = Config.nil))) →
      ∃ t, exec .gen s = .next t ∧ t.err = .malformedTree ∧ t.errinfo = s.root.setWidth 16 ∧ t.errpos = 0)

/-- R140: GEN issued twice gives the state of GEN issued once. -/
def Obligations.GenTwiceGivesSameState : Prop :=
  ∀ s t : State, s.err = .none → s.phase ≠ .collect → exec .gen s = .next t → exec .gen t = .next t

/-- R142, log entry 13: the stack walk of GEN gives the table, or the error, of the recursive walk the rule writes, on every node store. -/
def Obligations.StackWalkAgreesWithRecursion : Prop :=
  ∀ (store : Table Node Config.nnode) (root : NodeIdx) (table : Table CodeEntry Config.nsym),
    walk store Config.nnode [(root, [])] table =
      match walkRec store Config.maxLen root [] 0 table with
      | .ok (_, t) => .ok t
      | .error e => .error e

/-- R151, log entry 13: the walk with a stack of node and path-length pairs and one path register gives the table, or the error, of GEN's walk, on every node store. -/
def Obligations.RegisterWalkAgrees : Prop :=
  ∀ (store : Table Node Config.nnode) (root : NodeIdx) (table : Table CodeEntry Config.nsym),
    registerWalk store Config.nnode root [] [] table = walk store Config.nnode [(root, [])] table

/-! ### Invariants of every step -/

/-- The reset state meets every invariant below. -/
def Obligations.ResetMeetsInvariants : Prop :=
  StoresOk State.reset ∧ TreeWhenBuilt State.reset ∧ TableWhenReady State.reset ∧ ErrorForm State.reset

/-- R24, R27, R28, R30, R32: every step keeps the forms of the registers and stores. -/
def Obligations.StepKeepsStoreForms : Prop := ∀ s t : State, StoresOk s → step s = .next t → StoresOk t

/-- Every step keeps a valid tree in every phase from BUILT on (R24 and R130, inferences the spec marks as its own, from R23, R110, R111 and R120). -/
def Obligations.StepKeepsTree : Prop := ∀ s t : State, TreeWhenBuilt s → step s = .next t → TreeWhenBuilt t

/-- Every step keeps a valid table in phase READY (R24 and R150, inferences the spec marks as its own, from R23 and R140). -/
def Obligations.StepKeepsTable : Prop :=
  ∀ s t : State, TreeWhenBuilt s → TableWhenReady s → step s = .next t → TableWhenReady t

/-- R221, R226: every step keeps the details and the state left that each held error promises. -/
def Obligations.StepKeepsErrorForm : Prop := ∀ s t : State, ErrorForm s → step s = .next t → ErrorForm t

/-! ### Bit-packer -/

/-- R160 to R164: ENCODE on symbols with codes whose stream fits: header, code bits, pad bits, length, and nothing else changed. -/
def Obligations.EncodeProducesPackedStream : Prop :=
  ∀ s : State, s.err = .none → s.phase = .ready → AllCoded s.code s.ibuf.bytes →
    let q := codeBits s.code s.ibuf.bytes
    q.length / 8 + 2 ≤ 65536 →
    ∃ t header payload, exec .encode s = .next t ∧ t.obuf.bytes = header :: payload ∧
      header.toNat = 8 - q.length % 8 ∧ payload.length = q.length / 8 + 1 ∧
      payload.flatMap bits8 = q ++ List.replicate (8 - q.length % 8) false ∧ Frame [.obuf] s t

/-- R165: ENCODE raises UnknownSymbol at the first symbol without a code, whatever follows it. -/
def Obligations.EncodeUnknownSymbolAtFirst : Prop :=
  ∀ (s : State) (pre post : List Byte) (y : Byte), s.err = .none → s.phase = .ready →
    s.ibuf.bytes = pre ++ y :: post → AllCoded s.code pre → (s.code.sym y).valid = false →
    ∃ t, exec .encode s = .next t ∧ t.err = .unknownSymbol ∧ t.errinfo = y.setWidth 16 ∧
      t.errpos.toNat = pre.length ∧ t.obuf.bytes = [] ∧ Frame [.obuf, .err, .errinfo, .errpos] s t

/-- R166: ENCODE raises BufferOverflow when the stream needs more than BUF_CAP bytes. -/
def Obligations.EncodeOverflowRaises : Prop :=
  ∀ s : State, s.err = .none → s.phase = .ready → AllCoded s.code s.ibuf.bytes →
    65536 < (codeBits s.code s.ibuf.bytes).length / 8 + 2 →
    ∃ t, exec .encode s = .next t ∧ t.err = .bufferOverflow ∧ t.errinfo = 1 ∧
      t.errpos.toNat = (codeBits s.code s.ibuf.bytes).length / 8 + 2 ∧ t.obuf.bytes = [] ∧
      Frame [.obuf, .err, .errinfo, .errpos] s t

/-- What holds of the stream of every successful ENCODE (R74 and R169, inferences the spec marks as its own, from R160 to R164). -/
def Obligations.EncodedStreamFacts : Prop :=
  ∀ s t : State, s.err = .none → s.phase = .ready → exec .encode s = .next t → t.err = .none →
    (∃ header payload last, t.obuf.bytes = header :: (payload ++ [last]) ∧ 1 ≤ header.toNat ∧ header.toNat ≤ 8 ∧
      8 * (payload.length + 1) =
        header.toNat + (s.ibuf.bytes.map (fun y => (s.code.sym y).len.toNat)).sum ∧
      ∀ k < header.toNat, last.getLsbD k = false) ∧
    2 ≤ t.obuf.bytes.length ∧
    ∀ s' t' : State, s'.err = .none → s'.phase = .ready → s'.ibuf = s.ibuf → s'.code = s.code →
      exec .encode s' = .next t' → t'.obuf = t.obuf

/-- R170: ENCODE of an empty IBUF gives 08 00, and DECODE of 08 00 gives the empty sequence. -/
def Obligations.EmptyInputGivesPadOnlyStream : Prop :=
  (∀ s : State, s.err = .none → s.phase = .ready → s.ibuf.bytes = [] →
    ∃ t, exec .encode s = .next t ∧ t.obuf.bytes = [0x08, 0x00] ∧ Frame [.obuf] s t) ∧
  (∀ s : State, s.err = .none → s.phase = .ready → s.ibuf.bytes = [0x08, 0x00] →
    ∃ t, exec .decode s = .next t ∧ t.obuf.bytes = [] ∧ Frame [.obuf] s t)

/-- R168: the streaming packer gives exactly the stream, or exactly the unknown symbol, of the architectural packer. -/
def Obligations.StreamingPackerAgrees : Prop :=
  ∀ (table : Table CodeEntry Config.nsym) (bytes : List Byte),
    streamPack table bytes =
      match concatCodes table 0 bytes with
      | .ok q => .ok (packBits q)
      | .error e => .error e

/-! ### Bit-unpacker -/

/-- R180 to R184: DECODE of a stream whose code bits are the codes of a symbol sequence under a prefix-free table gives the sequence, whatever the pad bits. -/
def Obligations.DecodeRecoversCodedSymbols : Prop :=
  ∀ (s : State) (header : Byte) (payload syms : List Byte) (tail : BitSeq), s.err = .none → s.phase = .ready →
    PrefixFree s.code → NonEmptyCodes s.code → s.ibuf.bytes = header :: payload → header.toNat ≤ 8 →
    payload.flatMap bits8 = codeBits s.code syms ++ tail → tail.length = header.toNat → AllCoded s.code syms →
    syms.length ≤ 65536 →
    ∃ t, exec .decode s = .next t ∧ t.obuf.bytes = syms ∧ Frame [.obuf] s t

/-- R185: the four sub-causes of CorruptStream, their details, and the state left. -/
def Obligations.CorruptStreamCauses : Prop :=
  ∀ s : State, s.err = .none → s.phase = .ready →
    let raised (cause : BitVec 16) (pos : Nat) : Prop :=
      ∃ t, exec .decode s = .next t ∧ t.err = .corruptStream ∧ t.errinfo = cause ∧ t.errpos.toNat = pos ∧
        t.obuf.bytes = [] ∧ Frame [.obuf, .err, .errinfo, .errpos] s t
    (s.ibuf.bytes = [] → raised 1 0) ∧
    (∀ (header : Byte) (payload : List Byte), s.ibuf.bytes = header :: payload → 8 < header.toNat →
      raised 2 header.toNat) ∧
    (∀ header : Byte, s.ibuf.bytes = [header] → 1 ≤ header.toNat → header.toNat ≤ 8 → raised 3 header.toNat) ∧
    (∀ (header : Byte) (payload syms : List Byte) (cand tail : BitSeq), PrefixFree s.code → NonEmptyCodes s.code →
      s.ibuf.bytes = header :: payload → header.toNat ≤ 8 →
      payload.flatMap bits8 = codeBits s.code syms ++ cand ++ tail → tail.length = header.toNat →
      AllCoded s.code syms → cand ≠ [] → (∀ y c, codeOf s.code y = some c → ¬ c <+: cand) →
      raised 4 (codeBits s.code syms).length)

/-- R186: DECODE raises BufferOverflow when the scan yields more than BUF_CAP symbols. -/
def Obligations.DecodeOverflowRaises : Prop :=
  ∀ (s : State) (header : Byte) (payload syms : List Byte) (tail : BitSeq), s.err = .none → s.phase = .ready →
    PrefixFree s.code → NonEmptyCodes s.code → s.ibuf.bytes = header :: payload → header.toNat ≤ 8 →
    payload.flatMap bits8 = codeBits s.code syms ++ tail → tail.length = header.toNat → AllCoded s.code syms →
    65536 < syms.length →
    ∃ t, exec .decode s = .next t ∧ t.err = .bufferOverflow ∧ t.errinfo = 2 ∧ t.errpos.toNat = syms.length ∧
      t.obuf.bytes = [] ∧ Frame [.obuf, .err, .errinfo, .errpos] s t

/-- R183: two streams that differ only in their pad bits decode to the same output, or the same error, under any table. -/
def Obligations.DecodeIgnoresPadBits : Prop :=
  ∀ (s s' t t' : State) (header : Byte) (p p' : List Byte) (d tail tail' : BitSeq),
    s.err = .none → s'.err = .none → s.phase = .ready → s'.phase = .ready → s.code = s'.code →
    s.errinfo = s'.errinfo → s.errpos = s'.errpos →
    s.ibuf.bytes = header :: p → s'.ibuf.bytes = header :: p' →
    p.flatMap bits8 = d ++ tail → p'.flatMap bits8 = d ++ tail' →
    tail.length = header.toNat → tail'.length = header.toNat →
    exec .decode s = .next t → exec .decode s' = .next t' →
    t.obuf = t'.obuf ∧ t.err = t'.err ∧ t.errinfo = t'.errinfo ∧ t.errpos = t'.errpos

/-- R191 (b): 02 AF C0 cut to 02 AF decodes without error to "AAB" under the codes A "10", B "11", C "0". -/
def Obligations.TruncatedStreamDecodesSilently : Prop :=
  ∀ s : State, s.err = .none → s.phase = .ready → s.ibuf.bytes = [0x02, 0xAF] →
    (∀ y, codeOf s.code y =
      if y = 0x41 then some [true, false] else if y = 0x42 then some [true, true]
      else if y = 0x43 then some [false] else none) →
    ∃ t, exec .decode s = .next t ∧ t.err = .none ∧ t.obuf.bytes = [0x41, 0x41, 0x42] ∧ Frame [.obuf] s t

/-- R188: the matcher that stops at 255 bits, fed with the presented bits, gives the result of the architectural scan. -/
def Obligations.StreamingUnpackerAgrees : Prop :=
  (∀ (table : Table CodeEntry Config.nsym) (d : BitSeq),
    cappedScan (lookup table) d [] 0 0 = scan (lookup table) d [] 0 0) ∧
  ∀ (rem : Nat) (payload : List Byte), presentBits rem payload = (payload.flatMap bits8).take rem

/-- R189, an inference the spec marks as its own: matching by tree walk gives the output and the error of the scan over CODE. -/
def Obligations.TreeWalkMatcherAgrees : Prop :=
  ∀ (s : State) (d : BitSeq), TreeOk s → TableOk s →
    (2 ≤ s.nleaf.val → scan (lookup s.code) d [] 0 0 = treeScan s.node s.root d s.root 0 0) ∧
    (s.nleaf.val = 1 → scan (lookup s.code) d [] 0 0 = oneSymbolScan (nodeAt s.node s.root).sym d 0)

/-- R190, its more general sentence, an inference the spec marks as its own: with a prefix-free table and codes for all of IBUF, ENCODE, XFER, DECODE restore the symbols. -/
def Obligations.RoundTripInReadyState : Prop :=
  ∀ s t : State, s.err = .none → s.phase = .ready → PrefixFree s.code → NonEmptyCodes s.code →
    AllCoded s.code s.ibuf.bytes → exec .encode s = .next t → t.err = .none →
    ∃ u v, exec .xfer t = .next u ∧ exec .decode u = .next v ∧ v.err = .none ∧ v.obuf.bytes = s.ibuf.bytes

/-- R190, an inference the spec marks as its own: COUNT, BUILD, GEN, ENCODE, XFER, DECODE issued to any accepting machine with a non-empty IBUF restore it into OBUF, unless ENCODE overflows. -/
def Obligations.RoundTripFromAnyInput : Prop :=
  ∀ s u : State, s.err = .none → s.port = [] → s.ibuf.bytes ≠ [] →
    Host.Core.run Sys2Proof.core 4 (s.issue [.count, .build, .gen, .encode]) = .next u →
    u.err ≠ .bufferOverflow →
    ∃ t : State, Host.Core.run Sys2Proof.core 2 (u.issue [.xfer, .decode]) = .next t ∧
      t.err = .none ∧ t.obuf.bytes = s.ibuf.bytes

/-! ### Buffers and control -/

/-- R200, R203, R204: NOP changes nothing in any state; RSTIN empties IBUF; XFER copies OBUF into IBUF. -/
def Obligations.NopRstinXferEffects : Prop :=
  decode 0x000000000000 = .ok .nop ∧ decode 0x070000000000 = .ok .rstin ∧ decode 0x0A0000000000 = .ok .xfer ∧
  (∀ s : State, exec .nop s = .next s) ∧
  (∀ s : State, s.err = .none →
    ∃ t, exec .rstin s = .next t ∧ t.ibuf.bytes = [] ∧ t.ilen = 0 ∧ Frame [.ibuf] s t) ∧
  (∀ s : State, s.err = .none →
    ∃ t, exec .xfer s = .next t ∧ t.ibuf.bytes = s.obuf.bytes ∧ t.ilen = s.olen ∧ Frame [.ibuf] s t)

/-- R202: PUT writes its byte at index ILEN and increments ILEN, leaving every other index; on a full IBUF it raises. -/
def Obligations.PutAppendsOrOverflows : Prop :=
  ∀ (s : State) (b : Byte), s.err = .none → decode (0x06#8 ++ b ++ 0#32) = .ok (.put b) ∧
    (s.ibuf.bytes.length < 65536 →
      ∃ t, exec (.put b) s = .next t ∧ t.readPort 4 s.ilen = some (b.setWidth 264) ∧
        t.ilen.toNat = s.ilen.toNat + 1 ∧ (∀ i, i ≠ s.ilen → t.readPort 4 i = s.readPort 4 i) ∧ Frame [.ibuf] s t) ∧
    (s.ibuf.bytes.length = 65536 →
      exec (.put b) s = .next { s with err := .bufferOverflow, errinfo := 0, errpos := 65537 })
end

