-- ==== Sys2Proof/Laws/Bits.lean ====
section
/-! SUPPORT. Bit sequences and words: packing and unpacking most significant bit first are inverse (R7, R32, R62, R164). -/

namespace Sys2Proof.Machine

theorem alignBits_lt (w : Nat) (q : BitSeq) : alignBits w q < 2 ^ w := by
  induction w generalizing q with
  | zero => simp [alignBits]
  | succ w ih =>
    cases q with
    | nil => simp [alignBits]
    | cons b rest =>
      have h := ih rest
      simp only [alignBits]
      split <;> omega

/-- Bit `w-1-j` of an aligned sequence is its bit `j` (R32). -/
theorem testBit_alignBits (w : Nat) (q : BitSeq) (j : Nat) (hj : j < w) :
    (alignBits w q).testBit (w - 1 - j) = q.getD j false := by
  induction w generalizing q j with
  | zero => omega
  | succ w ih =>
    cases q with
    | nil => simp [alignBits]
    | cons b rest =>
      have hlt := alignBits_lt w rest
      cases j with
      | zero =>
        cases b
        · simpa [alignBits] using Nat.testBit_lt_two_pow hlt
        · simp [alignBits, Nat.testBit_two_pow_add_eq, Nat.testBit_lt_two_pow hlt]
      | succ j =>
        have hi : w + 1 - 1 - (j + 1) = w - 1 - j := by omega
        have hb : (alignBits (w + 1) (b :: rest)).testBit (w - 1 - j) = (alignBits w rest).testBit (w - 1 - j) := by
          cases b
          · simp [alignBits]
          · simp only [alignBits, if_true]
            rw [Nat.testBit_two_pow_add_gt (by omega)]
        rw [hi, hb, ih rest j (by omega)]
        simp

@[simp] theorem length_unpackMsb {w : Nat} (v : BitVec w) (n : Nat) : (unpackMsb v n).length = n := by
  simp [unpackMsb]

@[simp] theorem length_bits8 (b : Byte) : (bits8 b).length = 8 := length_unpackMsb b 8

@[simp] theorem length_zeros (n : Nat) : (zeros n).length = n := List.length_replicate

theorem getLsbD_packMsb (w : Nat) (q : BitSeq) (j : Nat) (hj : j < w) :
    (packMsb w q).getLsbD (w - 1 - j) = q.getD j false := by
  rw [packMsb, BitVec.getLsbD_ofNat, testBit_alignBits w q j hj]
  simp; omega

/-- Packing then unpacking gives the sequence back (R32). -/
theorem unpack_pack (w : Nat) (q : BitSeq) (h : q.length ≤ w) : unpackMsb (packMsb w q) q.length = q := by
  apply List.ext_getElem (by simp)
  intro j h1 h2
  have hj : j < w := by omega
  simp [unpackMsb, getLsbD_packMsb w q j hj, h2]

/-- Unpacking a whole word then packing gives the word back. -/
theorem pack_unpack {w : Nat} (v : BitVec w) : packMsb w (unpackMsb v w) = v := by
  apply BitVec.eq_of_getLsbD_eq
  intro i hi
  have e : i = w - 1 - (w - 1 - i) := by omega
  rw [e, getLsbD_packMsb w _ (w - 1 - i) (by omega), ← e]
  have hk : w - 1 - i < (unpackMsb v w).length := by simp; omega
  rw [List.getD_eq_getElem _ _ hk]
  simp [unpackMsb, ← e]

/-- `byte(bits8(b)) = b` (R7). -/
@[simp] theorem byteOf_bits8 (b : Byte) : byteOf (bits8 b) = b := pack_unpack b

/-- `bits8(byte(q)) = q` for eight bits (R7). -/
theorem bits8_byteOf (q : BitSeq) (h : q.length = 8) : bits8 (byteOf q) = q := by
  have := unpack_pack 8 q (by omega)
  rwa [h] at this

@[simp] theorem length_groupBytes (n : Nat) (q : BitSeq) : (groupBytes n q).length = n := by
  induction n generalizing q with
  | zero => rfl
  | succ n ih => simp [groupBytes, ih]

@[simp] theorem expandBytes_nil : expandBytes [] = [] := rfl

@[simp] theorem expandBytes_cons (b : Byte) (bs : List Byte) : expandBytes (b :: bs) = bits8 b ++ expandBytes bs := rfl

@[simp] theorem length_expandBytes (bs : List Byte) : (expandBytes bs).length = 8 * bs.length := by
  induction bs with
  | nil => rfl
  | cons b bs ih => simp [ih]; omega

/-- Grouping `8n` bits into bytes and expanding them again gives the bits back (R62, R164). -/
theorem expandBytes_groupBytes (n : Nat) (q : BitSeq) (h : q.length = 8 * n) : expandBytes (groupBytes n q) = q := by
  induction n generalizing q with
  | zero => simpa [groupBytes, eq_comm] using h
  | succ n ih =>
    rw [groupBytes, expandBytes_cons, bits8_byteOf _ (by simp; omega), ih _ (by simp; omega), List.take_append_drop]

end Sys2Proof.Machine
end

