-- ==== Sys2Proof/Laws/Encoding.lean ====
section
/-! SUPPORT. The fields of a word and the word of its fields are inverse (R90), and what the decoder answers, by cases (R94). -/

namespace Sys2Proof

/-- The fields of a word made from fields (R90). -/
theorem fieldsOf_word (f : Fields) : fieldsOf f.word = f := by
  cases f with | mk op a b =>
  simp only [fieldsOf, Fields.word, Fields.mk.injEq]
  refine ⟨?_, ?_, ?_⟩ <;>
  · apply BitVec.eq_of_getLsbD_eq
    intro i hi
    simp only [BitVec.getLsbD_extractLsb', BitVec.getLsbD_append]
    grind

/-- The word made from a word's fields (R90). -/
theorem word_fieldsOf (w : CmdWord) : (fieldsOf w).word = w := by
  apply BitVec.eq_of_getLsbD_eq
  intro i hi
  simp only [fieldsOf, Fields.word, BitVec.getLsbD_extractLsb', BitVec.getLsbD_append]
  grind

@[simp] theorem fieldsOf_encode (i : Instr) : fieldsOf (encode i) = i.fields := fieldsOf_word _

/-- A format-Z word is its command's, or has a non-zero unused field (R91). -/
theorem decodeZ_cases {f : Fields} {i : Instr} (hop : f.op = i.opcode)
    (hi : i.fields = { op := i.opcode, a := 0, b := 0 }) :
    (f.unusedZero .z = false ∧ decodeZ f i = .error (.unusedField f.op)) ∨ (f = i.fields ∧ decodeZ f i = .ok i) := by
  by_cases h : f.a = 0 ∧ f.b = 0
  · right
    exact ⟨by rw [hi, ← hop, ← h.1, ← h.2], by simp [decodeZ, h]⟩
  · left
    refine ⟨?_, if_neg h⟩
    simpa [Fields.unusedZero, Decidable.not_and_iff_or_not] using h

/-- Everything the decoder can answer on a word's fields (R94): a reserved opcode, a non-zero unused field, or a command whose fields they are. -/
theorem decodeFields_cases (f : Fields) :
    (0x0A < f.op.toNat ∧ decodeFields f = .error (.reservedOpcode f.op)) ∨
    (f.op.toNat ≤ 0x0A ∧ f.wellFormed = false ∧ decodeFields f = .error (.unusedField f.op)) ∨
    (∃ i : Instr, f = i.fields ∧ decodeFields f = .ok i) := by
  have op_eq : ∀ n, f.op.toNat = n → f.op = BitVec.ofNat 8 n := by rintro n rfl; simp
  have z : ∀ (i : Instr), decodeFields f = decodeZ f i → f.op = i.opcode →
      i.fields = { op := i.opcode, a := 0, b := 0 } → formatOf i.opcode = some .z → i.opcode.toNat ≤ 0x0A →
      (f.op.toNat ≤ 0x0A ∧ f.wellFormed = false ∧ decodeFields f = .error (.unusedField f.op)) ∨
        (∃ i : Instr, f = i.fields ∧ decodeFields f = .ok i) := by
    intro i hd ho hi hf hle
    rcases decodeZ_cases ho hi with ⟨h1, h2⟩ | ⟨h1, h2⟩
    · exact .inl ⟨ho ▸ hle, by rw [Fields.wellFormed, ho, hf]; exact h1, hd.trans h2⟩
    · exact .inr ⟨i, h1, hd.trans h2⟩
  generalize hn : f.op.toNat = n
  match n, hn with
  | 0, hn => exact .inr (hn ▸ z .nop (by simp [decodeFields, hn]) (op_eq _ hn) rfl rfl (by decide))
  | 1, hn => exact .inr (hn ▸ z .clear (by simp [decodeFields, hn]) (op_eq _ hn) rfl rfl (by decide))
  | 2, hn =>
    have ho : f.op = 0x02 := op_eq _ hn
    exact .inr (.inr ⟨.setfreq f.a f.b, by rw [Instr.fields, ← ho], by simp [decodeFields, hn]⟩)
  | 3, hn => exact .inr (hn ▸ z .count (by simp [decodeFields, hn]) (op_eq _ hn) rfl rfl (by decide))
  | 4, hn => exact .inr (hn ▸ z .build (by simp [decodeFields, hn]) (op_eq _ hn) rfl rfl (by decide))
  | 5, hn => exact .inr (hn ▸ z .gen (by simp [decodeFields, hn]) (op_eq _ hn) rfl rfl (by decide))
  | 6, hn =>
    have ho : f.op = 0x06 := op_eq _ hn
    have hd : decodeFields f = if f.b = 0 then .ok (.put f.a) else .error (.unusedField f.op) := by
      simp only [decodeFields, hn]
    by_cases h : f.b = 0
    · exact .inr (.inr ⟨.put f.a, by rw [Instr.fields, ← ho, ← h], hd.trans (if_pos h)⟩)
    · refine .inr (.inl ⟨by omega, ?_, hd.trans (if_neg h)⟩)
      simpa [Fields.wellFormed, formatOf, Fields.unusedZero, hn] using h
  | 7, hn => exact .inr (hn ▸ z .rstin (by simp [decodeFields, hn]) (op_eq _ hn) rfl rfl (by decide))
  | 8, hn => exact .inr (hn ▸ z .encode (by simp [decodeFields, hn]) (op_eq _ hn) rfl rfl (by decide))
  | 9, hn => exact .inr (hn ▸ z .decode (by simp [decodeFields, hn]) (op_eq _ hn) rfl rfl (by decide))
  | 10, hn => exact .inr (hn ▸ z .xfer (by simp [decodeFields, hn]) (op_eq _ hn) rfl rfl (by decide))
  | n + 11, hn => exact .inl ⟨by omega, by unfold decodeFields; split <;> first | rfl | omega⟩

end Sys2Proof
end

