-- ==== Sys2Proof/Laws/State.lean ====
section
/-! SUPPORT. One lemma per field per named update of State: which field an update writes and which it leaves. -/

namespace Sys2Proof.Machine

section
variable (s : State)

variable (e : ErrCode) (info : BitVec 16) (pos : BitVec 32) (nbits w : Nat)

/-! ### raise (R226) -/

@[simp] theorem raise_phase : (s.raise e info pos).phase = s.phase := rfl
@[simp] theorem raise_err : (s.raise e info pos).err = e := rfl
@[simp] theorem raise_errinfo : (s.raise e info pos).errinfo = info := rfl
@[simp] theorem raise_errpos : (s.raise e info pos).errpos = pos := rfl
@[simp] theorem raise_nleaf : (s.raise e info pos).nleaf = s.nleaf := rfl
@[simp] theorem raise_nnodes : (s.raise e info pos).nnodes = s.nnodes := rfl
@[simp] theorem raise_root : (s.raise e info pos).root = s.root := rfl
@[simp] theorem raise_freq : (s.raise e info pos).freq = s.freq := rfl
@[simp] theorem raise_node : (s.raise e info pos).node = s.node := rfl
@[simp] theorem raise_code : (s.raise e info pos).code = s.code := rfl
@[simp] theorem raise_ibuf : (s.raise e info pos).ibuf = s.ibuf := rfl
@[simp] theorem raise_obuf : (s.raise e info pos).obuf = s.obuf := rfl
@[simp] theorem raise_port : (s.raise e info pos).port = s.port := rfl

/-! ### toReset (R201, R260) -/

@[simp] theorem toReset_phase : s.toReset.phase = .collect := rfl
@[simp] theorem toReset_err : s.toReset.err = .none := rfl
@[simp] theorem toReset_errinfo : s.toReset.errinfo = 0 := rfl
@[simp] theorem toReset_errpos : s.toReset.errpos = 0 := rfl
@[simp] theorem toReset_nleaf : s.toReset.nleaf = 0 := rfl
@[simp] theorem toReset_nnodes : s.toReset.nnodes = 0 := rfl
@[simp] theorem toReset_root : s.toReset.root = Config.nil := rfl
@[simp] theorem toReset_freq : s.toReset.freq = .fill 0 := rfl
@[simp] theorem toReset_node : s.toReset.node = .fill Node.free := rfl
@[simp] theorem toReset_code : s.toReset.code = .fill CodeEntry.invalid := rfl
@[simp] theorem toReset_ibuf : s.toReset.ibuf = .empty := rfl
@[simp] theorem toReset_obuf : s.toReset.obuf = .empty := rfl
@[simp] theorem toReset_port : s.toReset.port = s.port := rfl

/-! ### State.reset (R36) -/

@[simp] theorem reset_phase : State.reset.phase = .collect := rfl
@[simp] theorem reset_err : State.reset.err = .none := rfl
@[simp] theorem reset_errinfo : State.reset.errinfo = 0 := rfl
@[simp] theorem reset_errpos : State.reset.errpos = 0 := rfl
@[simp] theorem reset_nleaf : State.reset.nleaf = 0 := rfl
@[simp] theorem reset_nnodes : State.reset.nnodes = 0 := rfl
@[simp] theorem reset_root : State.reset.root = Config.nil := rfl
@[simp] theorem reset_freq : State.reset.freq = .fill 0 := rfl
@[simp] theorem reset_node : State.reset.node = .fill Node.free := rfl
@[simp] theorem reset_code : State.reset.code = .fill CodeEntry.invalid := rfl
@[simp] theorem reset_ibuf : State.reset.ibuf = .empty := rfl
@[simp] theorem reset_obuf : State.reset.obuf = .empty := rfl
@[simp] theorem reset_port : State.reset.port = [] := rfl

/-! ### discardTree (R120 step 0) -/

@[simp] theorem discardTree_phase : s.discardTree.phase = .collect := rfl
@[simp] theorem discardTree_err : s.discardTree.err = s.err := rfl
@[simp] theorem discardTree_errinfo : s.discardTree.errinfo = s.errinfo := rfl
@[simp] theorem discardTree_errpos : s.discardTree.errpos = s.errpos := rfl
@[simp] theorem discardTree_nleaf : s.discardTree.nleaf = 0 := rfl
@[simp] theorem discardTree_nnodes : s.discardTree.nnodes = 0 := rfl
@[simp] theorem discardTree_root : s.discardTree.root = Config.nil := rfl
@[simp] theorem discardTree_freq : s.discardTree.freq = s.freq := rfl
@[simp] theorem discardTree_node : s.discardTree.node = .fill Node.free := rfl
@[simp] theorem discardTree_code : s.discardTree.code = .fill CodeEntry.invalid := rfl
@[simp] theorem discardTree_ibuf : s.discardTree.ibuf = s.ibuf := rfl
@[simp] theorem discardTree_obuf : s.discardTree.obuf = s.obuf := rfl
@[simp] theorem discardTree_port : s.discardTree.port = s.port := rfl

/-! ### setPort -/

variable (inputs : List HostInput)

@[simp] theorem setPort_phase : (s.setPort inputs).phase = s.phase := rfl
@[simp] theorem setPort_err : (s.setPort inputs).err = s.err := rfl
@[simp] theorem setPort_errinfo : (s.setPort inputs).errinfo = s.errinfo := rfl
@[simp] theorem setPort_errpos : (s.setPort inputs).errpos = s.errpos := rfl
@[simp] theorem setPort_nleaf : (s.setPort inputs).nleaf = s.nleaf := rfl
@[simp] theorem setPort_nnodes : (s.setPort inputs).nnodes = s.nnodes := rfl
@[simp] theorem setPort_root : (s.setPort inputs).root = s.root := rfl
@[simp] theorem setPort_freq : (s.setPort inputs).freq = s.freq := rfl
@[simp] theorem setPort_node : (s.setPort inputs).node = s.node := rfl
@[simp] theorem setPort_code : (s.setPort inputs).code = s.code := rfl
@[simp] theorem setPort_ibuf : (s.setPort inputs).ibuf = s.ibuf := rfl
@[simp] theorem setPort_obuf : (s.setPort inputs).obuf = s.obuf := rfl
@[simp] theorem setPort_port : (s.setPort inputs).port = inputs := rfl

/-! ### withFetchWord -/

@[simp] theorem withFetchWord_phase : (s.withFetchWord nbits w).phase = s.phase := rfl
@[simp] theorem withFetchWord_err : (s.withFetchWord nbits w).err = s.err := rfl
@[simp] theorem withFetchWord_errinfo : (s.withFetchWord nbits w).errinfo = s.errinfo := rfl
@[simp] theorem withFetchWord_errpos : (s.withFetchWord nbits w).errpos = s.errpos := rfl
@[simp] theorem withFetchWord_nleaf : (s.withFetchWord nbits w).nleaf = s.nleaf := rfl
@[simp] theorem withFetchWord_nnodes : (s.withFetchWord nbits w).nnodes = s.nnodes := rfl
@[simp] theorem withFetchWord_root : (s.withFetchWord nbits w).root = s.root := rfl
@[simp] theorem withFetchWord_freq : (s.withFetchWord nbits w).freq = s.freq := rfl
@[simp] theorem withFetchWord_node : (s.withFetchWord nbits w).node = s.node := rfl
@[simp] theorem withFetchWord_code : (s.withFetchWord nbits w).code = s.code := rfl
@[simp] theorem withFetchWord_ibuf : (s.withFetchWord nbits w).ibuf = s.ibuf := rfl
@[simp] theorem withFetchWord_obuf : (s.withFetchWord nbits w).obuf = s.obuf := rfl
@[simp] theorem withFetchWord_port : (s.withFetchWord nbits w).port = HostInput.command (BitVec.ofNat 48 (w % 2 ^ nbits)) :: s.port := rfl

end

/-- Two states that agree on every field are equal. -/
theorem State.ext_fields {s t : State} (h0 : s.phase = t.phase) (h1 : s.err = t.err) (h2 : s.errinfo = t.errinfo) (h3 : s.errpos = t.errpos) (h4 : s.nleaf = t.nleaf) (h5 : s.nnodes = t.nnodes) (h6 : s.root = t.root) (h7 : s.freq = t.freq) (h8 : s.node = t.node) (h9 : s.code = t.code) (h10 : s.ibuf = t.ibuf) (h11 : s.obuf = t.obuf) (h12 : s.port = t.port) : s = t := by
  cases s; cases t; simp_all

end Sys2Proof.Machine
end

