-- ==== Sys2Proof/Laws/Tables.lean ====
section
/-! SUPPORT. The accessors of tables and buffers, and the code view of a table entry: one lemma each for what they read after a write (R8, R32, R33, R34). -/

namespace Sys2Proof.Machine

variable {α : Type} {n : Nat}

/-- Two tables with the same entries are equal. -/
theorem Table.ext_get {t u : Table α n} (h : ∀ i, t.get i = u.get i) : t = u := by
  cases t with | mk a ha => cases u with | mk b hb =>
  have : a = b := List.ext_getElem (ha.trans hb.symm) (fun i h1 _ => h ⟨i, ha ▸ h1⟩)
  subst this; rfl

@[simp] theorem Table.get_fill (v : α) (i : Fin n) : (Table.fill v : Table α n).get i = v := by
  simp [Table.get, Table.fill]

theorem Table.get_put (t : Table α n) (i j : Fin n) (v : α) : (t.put i v).get j = if j = i then v else t.get j := by
  simp only [Table.get, Table.put, List.getElem_set, Fin.ext_iff, eq_comm]

theorem Table.get_ofPrefix (l : List α) (v : α) (i : Fin n) : (Table.ofPrefix l v : Table α n).get i = l.getD i.val v := by
  have h := i.isLt
  simp only [Table.get, Table.ofPrefix, List.getElem_take]
  by_cases hi : i.val < l.length
  · rw [List.getElem_append_left hi, List.getD_eq_getElem _ _ hi]
  · rw [List.getElem_append_right (by omega), List.getD_eq_default _ _ (by omega)]
    simp

theorem symIdx_inj {y z : Byte} : symIdx y = symIdx z ↔ y = z := by
  simp [symIdx, Fin.ext_iff, BitVec.toNat_inj]

@[simp] theorem Table.sym_fill (v : α) (y : Byte) : (Table.fill v : Table α Config.nsym).sym y = v := Table.get_fill v _

/-- A read of a symbol's entry after a write (R8). -/
theorem Table.sym_setSym (t : Table α Config.nsym) (y z : Byte) (v : α) :
    (t.setSym y v).sym z = if z = y then v else t.sym z := by
  simp only [Table.sym, Table.setSym, Table.get_put, symIdx_inj]

/-- Two symbol tables with the same entry for every symbol are equal. -/
theorem Table.ext_sym {t u : Table α Config.nsym} (h : ∀ y, t.sym y = u.sym y) : t = u := by
  apply Table.ext_get
  intro i
  have := h (BitVec.ofNat 8 i.val)
  have e : symIdx (BitVec.ofNat 8 i.val) = i := by
    have hi : i.val < 256 := i.isLt
    apply Fin.ext
    simp only [symIdx, BitVec.toNat_ofNat]
    omega
  rwa [Table.sym, Table.sym, e] at this

/-- Every entry of a symbol table is some symbol's. -/
theorem Table.mem_cells_iff (t : Table α Config.nsym) (v : α) : v ∈ t.cells ↔ ∃ y, t.sym y = v := by
  constructor
  · intro hv
    obtain ⟨i, hi, e⟩ := List.getElem_of_mem hv
    have hn : i < 256 := Nat.lt_of_lt_of_eq hi t.size
    refine ⟨BitVec.ofNat 8 i, ?_⟩
    have e2 : (BitVec.ofNat 8 i).toNat = i := by rw [BitVec.toNat_ofNat]; omega
    simp only [Table.sym, Table.get, symIdx, e2, e]
  · rintro ⟨y, rfl⟩
    exact List.getElem_mem _

/-! ### Buffers -/

/-- A buffer holds the bytes it was made from, and exists exactly when they fit (R34). -/
theorem Buffer.ofBytes?_eq_some {bytes : List Byte} {b : Buffer} : Buffer.ofBytes? bytes = some b ↔ b.bytes = bytes := by
  unfold Buffer.ofBytes?
  constructor
  · intro h; split at h <;> cases h; rfl
  · rintro rfl; simp [b.fits]

theorem Buffer.ofBytes?_eq_none {bytes : List Byte} : Buffer.ofBytes? bytes = none ↔ Config.bufCap < bytes.length := by
  unfold Buffer.ofBytes?
  split <;> simp <;> omega

theorem Buffer.ext_bytes {a b : Buffer} (h : a.bytes = b.bytes) : a = b := by
  cases a; cases b; simp_all

/-- The bound holds of every buffer, so every operation keeps it; in particular of reset's (R34, U16). -/
theorem Memory.wf_of_buffer (b : Buffer) : Memory.wf b = true := decide_eq_true b.fits

/-! ### Codes -/

/-- The code of an entry made from a path is the path (R32). -/
theorem CodeEntry.code_ofPath (p : BitSeq) (h : p.length ≤ 255) : (CodeEntry.ofPath p).code = p := by
  have e : (BitVec.ofNat 8 p.length).toNat = p.length := by rw [BitVec.toNat_ofNat]; omega
  simp only [CodeEntry.code, CodeEntry.ofPath, e]
  exact unpack_pack 255 p h

@[simp] theorem CodeEntry.length_code (e : CodeEntry) : e.code.length = e.len.toNat := length_unpackMsb _ _

theorem codeOf_eq_some {table : Table CodeEntry Config.nsym} {y : Byte} {c : BitSeq} :
    codeOf table y = some c ↔ (table.sym y).valid = true ∧ (table.sym y).code = c := by
  unfold codeOf; split <;> simp_all

/-- A code has at most 255 bits (R32). -/
theorem codeOf_length {table : Table CodeEntry Config.nsym} {y : Byte} {c : BitSeq} (h : codeOf table y = some c) :
    c.length ≤ 255 := by
  obtain ⟨_, rfl⟩ := codeOf_eq_some.1 h
  have := (table.sym y).len.isLt
  simp; omega

/-- `lookup(q)` is the least symbol with a valid code equal to `q` (R33). -/
theorem lookup_eq_some {table : Table CodeEntry Config.nsym} {q : BitSeq} {y : Byte} :
    lookup table q = some y ↔ codeOf table y = some q ∧ ∀ z : Byte, z.toNat < y.toNat → codeOf table z ≠ some q := by
  have hget : ∀ (z : Byte), table.cells[z.toNat]'(by rw [table.size]; exact z.isLt) = table.sym z := fun z => rfl
  have hp : ∀ z : Byte, (((table.sym z).valid && (table.sym z).code == q) = true) ↔ codeOf table z = some q := by
    intro z; simp [codeOf_eq_some]
  unfold lookup
  simp only [Option.map_eq_some_iff, List.findIdx?_eq_some_iff_getElem]
  constructor
  · rintro ⟨i, ⟨hi, h1, h2⟩, rfl⟩
    have hn : i < 256 := Nat.lt_of_lt_of_eq hi table.size
    have e : (BitVec.ofNat 8 i).toNat = i := by rw [BitVec.toNat_ofNat]; omega
    refine ⟨(hp _).1 ?_, ?_⟩
    · rw [← hget]; simpa only [e] using h1
    · intro z hz hc
      have := h2 z.toNat (by omega)
      rw [hget] at this
      exact this ((hp z).2 hc)
  · rintro ⟨h1, h2⟩
    refine ⟨y.toNat, ⟨by rw [table.size]; exact y.isLt, ?_, ?_⟩, by simp⟩
    · rw [hget]; exact (hp y).2 h1
    · intro j hj
      have hy := y.isLt
      have e : (BitVec.ofNat 8 j).toNat = j := by rw [BitVec.toNat_ofNat]; omega
      have hne := h2 (BitVec.ofNat 8 j) (by omega)
      have := mt (hp (BitVec.ofNat 8 j)).1 hne
      rw [← hget] at this
      simpa only [e] using this

theorem lookup_eq_none {table : Table CodeEntry Config.nsym} {q : BitSeq} :
    lookup table q = none ↔ ∀ y, codeOf table y ≠ some q := by
  have hp : ∀ z : Byte, (((table.sym z).valid && (table.sym z).code == q) = true) ↔ codeOf table z = some q := by
    intro z; simp [codeOf_eq_some]
  unfold lookup
  simp only [Option.map_eq_none_iff, List.findIdx?_eq_none_iff]
  constructor
  · intro h y hy
    have := h _ ((table.mem_cells_iff _).2 ⟨y, rfl⟩)
    rw [(hp y).2 hy] at this
    cases this
  · intro h e he
    obtain ⟨y, rfl⟩ := (table.mem_cells_iff _).1 he
    exact Bool.eq_false_iff.2 (mt (hp y).1 (h y))

end Sys2Proof.Machine
end

