-- ==== Sys2Proof/Laws/Ops.lean ====
section
/-! SUPPORT. What the shared operations of a step can do, each said once: the gates of the decoder (R94, R228), the flags (R25), the inputs, and the meanings of commands that can raise. -/

namespace Sys2Proof.Machine

/-! ### Flags -/

theorem faulted_iff {s : State} : s.faulted = true ↔ s.err ≠ .none := by
  unfold State.faulted; cases s.err <;> simp [ErrCode.bits]

theorem faulted_false_iff {s : State} : s.faulted = false ↔ s.err = .none := by
  unfold State.faulted; cases s.err <;> simp [ErrCode.bits]

theorem treeValid_iff {s : State} : s.treeValid = true ↔ s.phase ≠ .collect := by
  unfold State.treeValid; cases s.phase <;> simp [Phase.bits]

theorem tableValid_iff {s : State} : s.tableValid = true ↔ s.phase = .ready := by
  unfold State.tableValid; cases s.phase <;> simp [Phase.bits]

/-! ### Gates -/

/-- Without a held error the gate lets the effect through (R94). -/
theorem unlessFaulted_of_ok {s : State} (h : s.err = .none) (act : State → State) : s.unlessFaulted act = act s := by
  simp [State.unlessFaulted, faulted_false_iff.2 h]

/-- With a held error the gate drops the command (R228). -/
theorem unlessFaulted_of_fault {s : State} (h : s.err ≠ .none) (act : State → State) : s.unlessFaulted act = s := by
  simp [State.unlessFaulted, faulted_iff.2 h]

theorem inPhase_of_legal {s : State} {legal : Bool} (h : legal = true) (op : Byte) (act : State → State) :
    s.inPhase legal op act = act s := by
  simp [State.inPhase, h]

theorem inPhase_of_illegal {s : State} {legal : Bool} (h : legal = false) (op : Byte) (act : State → State) :
    s.inPhase legal op act = s.raise .illegalCommand (zext16 op) 2 := by
  simp [State.inPhase, h]

/-- Every gated effect is one of: dropped, refused by the phase, or performed. -/
theorem gate_cases (s : State) (legal : Bool) (op : Byte) (act : State → State) :
    (s.err ≠ .none ∧ s.unlessFaulted (fun s => s.inPhase legal op act) = s) ∨
    (s.err = .none ∧ legal = false ∧
      s.unlessFaulted (fun s => s.inPhase legal op act) = s.raise .illegalCommand (zext16 op) 2) ∨
    (s.err = .none ∧ legal = true ∧ s.unlessFaulted (fun s => s.inPhase legal op act) = act s) := by
  by_cases h : s.err = .none
  · right
    rw [unlessFaulted_of_ok h]
    cases legal
    · exact .inl ⟨h, rfl, rfl⟩
    · exact .inr ⟨h, rfl, rfl⟩
  · exact .inl ⟨h, unlessFaulted_of_fault h _⟩

/-! ### Inputs and the step -/

@[simp] theorem takeInput_nil {s : State} (h : s.port = []) : s.takeInput = none := by
  simp [State.takeInput, h]

theorem takeInput_cons {s : State} {i : HostInput} {rest : List HostInput} (h : s.port = i :: rest) :
    s.takeInput = some (i, s.setPort rest) := by
  simp [State.takeInput, h]

/-- Everything a step can be: idle, a hardware reset, a decoded command, or an illegal word. -/
theorem step_cases (s : State) :
    (s.port = [] ∧ step s = .next s) ∨
    (∃ rest, s.port = .reset :: rest ∧ step s = .next (State.reset.setPort rest)) ∨
    (∃ w rest i, s.port = .command w :: rest ∧ decode w = .ok i ∧ step s = exec i (s.setPort rest)) ∨
    (∃ w rest e, s.port = .command w :: rest ∧ decode w = .error e ∧
      step s = .next ((s.setPort rest).illegal e)) := by
  match h : s.port with
  | [] => left; exact ⟨rfl, by simp [step, State.takeInput, h]⟩
  | .reset :: rest =>
    right; left
    exact ⟨rest, rfl, by simp only [step, takeInput_cons h]; rfl⟩
  | .command w :: rest =>
    right; right
    match hd : decode w with
    | .ok i => left; exact ⟨w, rest, i, rfl, hd, by simp [step, takeInput_cons h, hd]⟩
    | .error e => right; exact ⟨w, rest, e, rfl, hd, by simp [step, takeInput_cons h, hd]⟩

/-! ### The commands that can raise -/

/-- PUT appends, or raises on a full buffer (R202). -/
theorem push?_eq_some {b b' : Buffer} {y : Byte} : b.push? y = some b' ↔ b'.bytes = b.bytes ++ [y] :=
  Buffer.ofBytes?_eq_some

theorem push?_eq_none {b : Buffer} {y : Byte} : b.push? y = none ↔ b.bytes.length = Config.bufCap := by
  have := b.fits
  simp only [Buffer.push?, Buffer.ofBytes?_eq_none, List.length_append, List.length_singleton]
  omega

/-- What BUILD's effect can be (R120, R121). -/
theorem buildTree_cases (s : State) :
    (leafList s.freq = [] ∧
      s.buildTree = { s.discardTree with err := .emptyAlphabet, errinfo := 0, errpos := 0 }) ∨
    (leafList s.freq ≠ [] ∧
      s.buildTree = { s.discardTree with
        node := .ofPrefix (buildNodes s.freq).1 Node.free
        root := BitVec.ofNat 9 ((buildNodes s.freq).2.headD 0x1FF)
        nleaf := Fin.ofNat 257 (leafList s.freq).length
        nnodes := BitVec.ofNat 9 (buildNodes s.freq).1.length
        phase := .built }) := by
  by_cases h : leafList s.freq = []
  · exact .inl ⟨h, by rw [State.buildTree, if_pos (by simp [h])]; rfl⟩
  · exact .inr ⟨h, by rw [State.buildTree, if_neg (by simp [h])]⟩

/-- What GEN's effect can be (R140, R144). -/
theorem genTable_cases (s : State) :
    (∃ table, generate s.node s.root = .ok table ∧ s.genTable = { s with code := table, phase := .ready }) ∨
    (∃ i n, generate s.node s.root = .error (i, n) ∧
      s.genTable = { s with
        code := .fill CodeEntry.invalid, phase := .built, err := .malformedTree
        errinfo := zext16Idx i, errpos := BitVec.ofNat 32 n }) := by
  match h : generate s.node s.root with
  | .ok table => left; exact ⟨table, rfl, by simp [State.genTable, h]⟩
  | .error (i, n) => right; exact ⟨i, n, rfl, by simp [State.genTable, h, State.raise]⟩

/-- What ENCODE's effect can be (R160, R165, R166). -/
theorem packInput_cases (s : State) :
    (∃ y i, concatCodes s.code 0 s.ibuf.bytes = .error (y, i) ∧
      s.packInput = { s with
        obuf := .empty, err := .unknownSymbol, errinfo := zext16 y, errpos := BitVec.ofNat 32 i }) ∨
    (∃ q, concatCodes s.code 0 s.ibuf.bytes = .ok q ∧ Config.bufCap < (packBits q).length ∧
      s.packInput = { s with
        obuf := .empty, err := .bufferOverflow, errinfo := 1, errpos := BitVec.ofNat 32 (packBits q).length }) ∨
    (∃ q out, concatCodes s.code 0 s.ibuf.bytes = .ok q ∧ out.bytes = packBits q ∧
      s.packInput = { s with obuf := out }) := by
  match h : concatCodes s.code 0 s.ibuf.bytes with
  | .error (y, i) => left; exact ⟨y, i, rfl, by simp [State.packInput, h, State.raise]⟩
  | .ok q =>
    right
    match hb : Buffer.ofBytes? (packBits q) with
    | none => left; exact ⟨q, rfl, Buffer.ofBytes?_eq_none.1 hb, by simp [State.packInput, h, hb, State.raise]⟩
    | some out => right; exact ⟨q, out, rfl, Buffer.ofBytes?_eq_some.1 hb, by simp [State.packInput, h, hb]⟩

/-- What DECODE's effect can be (R180, R185, R186). -/
theorem unpackInput_cases (s : State) :
    (∃ cause pos, unpackBytes (lookup s.code) s.ibuf.bytes = .error (cause, pos) ∧
      s.unpackInput = { s with
        obuf := .empty, err := .corruptStream, errinfo := BitVec.ofNat 16 cause, errpos := BitVec.ofNat 32 pos }) ∨
    (∃ out, unpackBytes (lookup s.code) s.ibuf.bytes = .ok out ∧ Config.bufCap < out.length ∧
      s.unpackInput = { s with
        obuf := .empty, err := .bufferOverflow, errinfo := 2, errpos := BitVec.ofNat 32 out.length }) ∨
    (∃ out b, unpackBytes (lookup s.code) s.ibuf.bytes = .ok out ∧ b.bytes = out ∧
      s.unpackInput = { s with obuf := b }) := by
  match h : unpackBytes (lookup s.code) s.ibuf.bytes with
  | .error (c, p) => left; exact ⟨c, p, rfl, by simp [State.unpackInput, h, State.raise]⟩
  | .ok out =>
    right
    match hb : Buffer.ofBytes? out with
    | none => left; exact ⟨out, rfl, Buffer.ofBytes?_eq_none.1 hb, by simp [State.unpackInput, h, hb, State.raise]⟩
    | some b => right; exact ⟨out, b, rfl, Buffer.ofBytes?_eq_some.1 hb, by simp [State.unpackInput, h, hb]⟩

end Sys2Proof.Machine
end

