-- ==== Sys2Proof/Laws/PerInstr.lean ====
section
/-! SUPPORT. Laws of every instruction as syntax, one lemma per constructor. Family FieldForm: the fields of a command's word are well formed, and carry its opcode (R91, R93). -/

namespace Sys2Proof.Laws

/-- The word of a command has the command's opcode and zero in its unused fields (R91). -/
def FieldForm.Statement (i : Instr) : Prop := i.wellFormed = true ∧ i.fields.op = i.opcode

theorem FieldForm.nop : FieldForm.Statement .nop := ⟨rfl, rfl⟩
theorem FieldForm.clear : FieldForm.Statement .clear := ⟨rfl, rfl⟩
theorem FieldForm.setfreq (sym : Byte) (c : Count) : FieldForm.Statement (.setfreq sym c) := ⟨rfl, rfl⟩
theorem FieldForm.count : FieldForm.Statement .count := ⟨rfl, rfl⟩
theorem FieldForm.build : FieldForm.Statement .build := ⟨rfl, rfl⟩
theorem FieldForm.gen : FieldForm.Statement .gen := ⟨rfl, rfl⟩
theorem FieldForm.put (b : Byte) : FieldForm.Statement (.put b) := ⟨rfl, rfl⟩
theorem FieldForm.rstin : FieldForm.Statement .rstin := ⟨rfl, rfl⟩
theorem FieldForm.encode : FieldForm.Statement .encode := ⟨rfl, rfl⟩
theorem FieldForm.decode : FieldForm.Statement .decode := ⟨rfl, rfl⟩
theorem FieldForm.xfer : FieldForm.Statement .xfer := ⟨rfl, rfl⟩

end Sys2Proof.Laws
end

