-- ==== Sys2Proof/Laws/Streams.lean ====
section
/-! SUPPORT. What the shared operations of ENCODE and DECODE can do, each said once: concatenation (R161, R165), padding and grouping (R162 to R164), and the greedy scan (R184, R185). -/

namespace Sys2Proof.Machine

variable {table : Table CodeEntry Config.nsym}

/-! ### Concatenation -/

theorem codeOf_of_valid {y : Byte} (h : (table.sym y).valid = true) : codeOf table y = some (table.sym y).code := by
  simp [codeOf, h]

theorem codeOf_of_invalid {y : Byte} (h : (table.sym y).valid = false) : codeOf table y = none := by
  simp [codeOf, h]

@[simp] theorem codeBits_nil : codeBits table [] = [] := rfl

theorem codeBits_cons (y : Byte) (ys : List Byte) :
    codeBits table (y :: ys) = (codeOf table y).getD [] ++ codeBits table ys := rfl

theorem codeBits_append (xs ys : List Byte) : codeBits table (xs ++ ys) = codeBits table xs ++ codeBits table ys :=
  List.flatMap_append

theorem allCoded_cons {y : Byte} {ys : List Byte} :
    AllCoded table (y :: ys) ↔ (table.sym y).valid = true ∧ AllCoded table ys := List.forall_mem_cons

/-- When every symbol has a code, step 1 of ENCODE gives the codes in sequence order (R161). -/
theorem concatCodes_of_allCoded {bytes : List Byte} (h : AllCoded table bytes) (i : Nat) :
    concatCodes table i bytes = .ok (codeBits table bytes) := by
  induction bytes generalizing i with
  | nil => rfl
  | cons y ys ih =>
    rw [allCoded_cons] at h
    simp [concatCodes, codeOf_of_valid h.1, ih h.2, codeBits_cons]

/-- At the first symbol without a code, step 1 of ENCODE answers it and its index (R165). -/
theorem concatCodes_of_uncoded {pre post : List Byte} {y : Byte} (h : AllCoded table pre)
    (hy : (table.sym y).valid = false) (i : Nat) :
    concatCodes table i (pre ++ y :: post) = .error (y, i + pre.length) := by
  induction pre generalizing i with
  | nil => simp [concatCodes, codeOf_of_invalid hy]
  | cons x xs ih =>
    rw [allCoded_cons] at h
    simp only [List.cons_append, concatCodes, codeOf_of_valid h.1, ih h.2, List.length_cons]
    congr 2; omega

/-- Every byte sequence has a code throughout, or a first symbol without one. -/
theorem allCoded_or_first_uncoded (table : Table CodeEntry Config.nsym) (bytes : List Byte) :
    AllCoded table bytes ∨
      ∃ pre y post, bytes = pre ++ y :: post ∧ AllCoded table pre ∧ (table.sym y).valid = false := by
  induction bytes with
  | nil => exact .inl fun _ h => nomatch h
  | cons x xs ih =>
    cases hx : (table.sym x).valid
    · exact .inr ⟨[], x, xs, rfl, (fun _ h => nomatch h), hx⟩
    · rcases ih with h | ⟨pre, y, post, rfl, h, hy⟩
      · exact .inl (allCoded_cons.2 ⟨hx, h⟩)
      · exact .inr ⟨x :: pre, y, post, rfl, allCoded_cons.2 ⟨hx, h⟩, hy⟩

/-! ### Padding and grouping -/

/-- The padded bits are one byte more than the whole bytes of the code bits (R162, R167). -/
theorem padded_div (n : Nat) : (n + padAmount n) / 8 = n / 8 + 1 := by
  unfold padAmount; omega

/-- The stream of a bit sequence: its header, the length of its payload, and the payload's bits (R162, R163, R164). -/
theorem packBits_eq (q : BitSeq) : ∃ payload, packBits q = BitVec.ofNat 8 (padAmount q.length) :: payload ∧
    payload.length = q.length / 8 + 1 ∧ expandBytes payload = q ++ zeros (padAmount q.length) := by
  refine ⟨_, rfl, ?_, ?_⟩
  · rw [length_groupBytes, padded_div]
  · apply expandBytes_groupBytes
    rw [List.length_append, length_zeros]
    unfold padAmount; omega

@[simp] theorem length_packBits (q : BitSeq) : (packBits q).length = q.length / 8 + 2 := by
  obtain ⟨p, h, hl, _⟩ := packBits_eq q
  rw [h, List.length_cons, hl]

/-- The header is the pad amount, 1 to 8 (R163). -/
theorem toNat_header (n : Nat) : (BitVec.ofNat 8 (padAmount n)).toNat = padAmount n ∧ 1 ≤ padAmount n ∧ padAmount n ≤ 8 := by
  unfold padAmount
  rw [BitVec.toNat_ofNat]
  omega

/-! ### The greedy scan -/

variable {look : BitSeq → Option Byte}

/-- Bits that complete the candidate to a matching one, and no earlier, emit one symbol (R184). -/
theorem scan_match {c cand : BitSeq} {y : Byte} (hne : c ≠ []) (hy : look (cand ++ c) = some y)
    (hnone : ∀ p, p <+: c → p ≠ [] → p ≠ c → look (cand ++ p) = none) (rest : BitSeq) (start k : Nat) :
    scan look (c ++ rest) cand start k = (scan look rest [] (k + c.length) (k + c.length)).map (y :: ·) := by
  induction c generalizing cand k with
  | nil => exact absurd rfl hne
  | cons b c ih =>
    rw [List.cons_append, scan]
    cases hc : c with
    | nil =>
      subst hc
      rw [show look (cand ++ [b]) = some y from hy, List.nil_append, List.length_singleton]
      cases scan look rest [] (k + 1) (k + 1) <;> rfl
    | cons b' c' =>
      have h1 : look (cand ++ [b]) = none :=
        hnone [b] (by rw [hc]; exact List.prefix_append [b] _) (by simp) (by simp [hc])
      simp only [h1]
      rw [← hc]
      have key := ih (cand := cand ++ [b]) (k := k + 1) (by simp [hc]) (by simpa using hy) (by
        intro p hp hpn hpc
        have := hnone (b :: p) (by simpa using hp) (by simp) (by simpa using hpc)
        simpa using this)
      rw [key, List.length_cons, show k + 1 + c.length = k + (c.length + 1) by omega]

/-- Bits of which no non-empty part matches leave the candidate over, if there is one (R185). -/
theorem scan_unmatched {d cand : BitSeq} (hnone : ∀ p, p <+: d → p ≠ [] → look (cand ++ p) = none) (start k : Nat) :
    scan look d cand start k = if cand ++ d = [] then .ok [] else .error start := by
  induction d generalizing cand k with
  | nil => cases cand <;> simp [scan]
  | cons b d ih =>
    have h1 : look (cand ++ [b]) = none := hnone [b] (List.prefix_append [b] d) (by simp)
    rw [scan]
    simp only [h1]
    rw [ih (cand := cand ++ [b])]
    · simp
    · intro p hp hpn
      have := hnone (b :: p) (by simpa using hp) (by simp)
      simpa using this

/-- In a prefix-free table a code is looked up to its symbol, and no shorter part of it to any (R184). -/
theorem lookup_code {y : Byte} {c : BitSeq} (hp : PrefixFree table) (hc : codeOf table y = some c) :
    lookup table c = some y ∧ ∀ p, p <+: c → p ≠ c → lookup table p = none := by
  have uniq : ∀ z q, q <+: c → codeOf table z = some q → z = y := fun z q hq hz => by
    by_contra hne
    exact hp z y q c hne hz hc hq
  refine ⟨lookup_eq_some.2 ⟨hc, fun z hz h => ?_⟩, fun p hq hne => lookup_eq_none.2 fun z hz => ?_⟩
  · rw [uniq z c (List.prefix_refl c) h] at hz; omega
  · rw [uniq z p hq hz, hc] at hz
    exact hne (Option.some.inj hz).symm

/-- The scan of the codes of a symbol sequence emits the symbols, then scans on (R184). -/
theorem scan_codes {syms : List Byte} (hp : PrefixFree table) (hn : NonEmptyCodes table) (hs : AllCoded table syms)
    (rest : BitSeq) (k : Nat) :
    scan (lookup table) (codeBits table syms ++ rest) [] k k =
      (scan (lookup table) rest [] (k + (codeBits table syms).length) (k + (codeBits table syms).length)).map (syms ++ ·) := by
  induction syms generalizing k with
  | nil =>
    simp only [codeBits_nil, List.nil_append, List.length_nil, Nat.add_zero]
    cases scan (lookup table) rest [] k k <;> rfl
  | cons y ys ih =>
    rw [allCoded_cons] at hs
    have hc := codeOf_of_valid hs.1
    obtain ⟨h1, h2⟩ := lookup_code hp hc
    rw [codeBits_cons, hc, Option.getD_some, List.append_assoc,
      scan_match (y := y) (fun h => hn y (h ▸ hc)) (by simpa using h1) (fun p hpre _ hne => by simpa using h2 p hpre hne),
      ih hs.2, List.length_append, ← Nat.add_assoc]
    cases scan (lookup table) rest [] (k + (table.sym y).code.length + (codeBits table ys).length)
      (k + (table.sym y).code.length + (codeBits table ys).length) <;> rfl

end Sys2Proof.Machine
end

