-- ==== Sys2Proof/Tests/Slice0.lean ====
section
/-! SUPPORT. Tests of one step each, their expected results from the spec's vectors V<n> (95_test_vectors.md) and its worked encodings (R93, R99); and for every obligation with hypotheses a witness that meets them. -/

namespace Sys2Proof.Machine

set_option Elab.async false

/-! ### Small states -/

/-- A buffer of a short list. -/
def mkBuf (l : List Byte) : Buffer := (Buffer.ofBytes? l).getD .empty

/-- A buffer of `n` equal bytes. -/
def longBuf (n : Nat) (y : Byte) (h : n ≤ 65536) : Buffer := ⟨List.replicate n y, by simpa [Config.bufCap] using h⟩

/-- The counts of "AABBBCCCC" (V54). -/
def abcFreq : Table Count Config.nsym := (((Table.fill 0).setSym 0x41 2).setSym 0x42 3).setSym 0x43 4

/-- The nodes of V10, in index order. -/
def abcNodes : List Node :=
  [ ⟨.leaf, 0x41, 2, 0x1FF, 0x1FF⟩, ⟨.leaf, 0x42, 3, 0x1FF, 0x1FF⟩, ⟨.leaf, 0x43, 4, 0x1FF, 0x1FF⟩,
    ⟨.internal, 0, 5, 0, 1⟩, ⟨.internal, 0, 9, 2, 3⟩ ]

/-- The table of V20. -/
def abcCode : Table CodeEntry Config.nsym :=
  (((Table.fill CodeEntry.invalid).setSym 0x41 ⟨true, 2, BitVec.ofNat 255 (2 * 2 ^ 253)⟩).setSym 0x42
    ⟨true, 2, BitVec.ofNat 255 (3 * 2 ^ 253)⟩).setSym 0x43 ⟨true, 1, 0⟩

/-- The state after BUILD on the counts of V54 (V10). -/
def abcBuilt : State :=
  { State.reset with
    freq := abcFreq, node := .ofPrefix abcNodes Node.free, nleaf := 3, nnodes := 5, root := 4, phase := .built }

/-- The state after GEN (V20). -/
def abcReady : State := { abcBuilt with code := abcCode, phase := .ready }

/-- The one-symbol state of "aaaa" (V12, V21), after GEN. -/
def oneReady : State :=
  { State.reset with
    freq := (Table.fill 0).setSym 0x61 4, node := .ofPrefix [⟨.leaf, 0x61, 4, 0x1FF, 0x1FF⟩] Node.free
    nleaf := 1, nnodes := 1, root := 0, code := (Table.fill CodeEntry.invalid).setSym 0x61 ⟨true, 1, 0⟩
    phase := .ready }

/-- A state in BUILT over a hand-made node store (the vectors V28). -/
def storeOf (root : NodeIdx) (nodes : List Node) : State :=
  { State.reset with phase := .built, root := root, node := .ofPrefix nodes Node.free }

/-- The leaf 'A' of the vectors V28. -/
def leafA : Node := ⟨.leaf, 0x41, 1, 0x1FF, 0x1FF⟩

/-- A state with the input buffer replaced. -/
def State.withInput (s : State) (b : Buffer) : State := { s with ibuf := b }

/-- The machine went on to a state with a property. -/
def nextIs (o : Host.Outcome State Fault Refusal) (p : State → Bool) : Bool :=
  match o with
  | .next t => p t
  | _ => false

theorem of_nextIs {o : Host.Outcome State Fault Refusal} {p : State → Bool} (h : nextIs o p = true) :
    ∃ t, o = .next t ∧ p t = true := by
  cases o with
  | next t => exact ⟨t, rfl, h⟩
  | fault r => cases h
  | refused r => cases h

/-- The error registers of a state. -/
def errors (s : State) : ErrCode × BitVec 16 × BitVec 32 := (s.err, s.errinfo, s.errpos)

/-! ### Well-formedness refuses ill-formed fields (R91, R95) -/

theorem test_wf_reserved_opcode : Fields.wellFormed ⟨0x0B, 0, 0⟩ = false ∧ Fields.wellFormed ⟨0xFF, 0, 0⟩ = false := by decide
theorem test_wf_z_with_a : Fields.wellFormed ⟨0x08, 1, 0⟩ = false := by decide
theorem test_wf_z_with_b : Fields.wellFormed ⟨0x04, 0, 1⟩ = false := by decide
theorem test_wf_a_with_b : Fields.wellFormed ⟨0x06, 0x41, 1⟩ = false := by decide
theorem test_wf_accepts : Fields.wellFormed ⟨0x02, 0xFF, 0xFFFFFFFF⟩ = true ∧ Fields.wellFormed ⟨0x06, 0xFF, 0⟩ = true ∧
    Fields.wellFormed ⟨0x0A, 0, 0⟩ = true := by decide

/-! ### Every command's decoding, by a word written out from R90 and R93: `OP` in bits 47..40, `A` in 39..32, `B` in 31..0 -/

theorem test_decode_nop : decode 0b00000000_00000000_00000000000000000000000000000000 = .ok .nop := by decide
theorem test_decode_clear : decode 0b00000001_00000000_00000000000000000000000000000000 = .ok .clear := by decide
theorem test_decode_setfreq : decode 0b00000010_01000001_10000000000000000000000000000011 = .ok (.setfreq 0x41 0x80000003) := by decide
theorem test_decode_count : decode 0b00000011_00000000_00000000000000000000000000000000 = .ok .count := by decide
theorem test_decode_build : decode 0b00000100_00000000_00000000000000000000000000000000 = .ok .build := by decide
theorem test_decode_gen : decode 0b00000101_00000000_00000000000000000000000000000000 = .ok .gen := by decide
theorem test_decode_put : decode 0b00000110_10101111_00000000000000000000000000000000 = .ok (.put 0xAF) := by decide
theorem test_decode_rstin : decode 0b00000111_00000000_00000000000000000000000000000000 = .ok .rstin := by decide
theorem test_decode_encode : decode 0b00001000_00000000_00000000000000000000000000000000 = .ok .encode := by decide
theorem test_decode_decode : decode 0b00001001_00000000_00000000000000000000000000000000 = .ok .decode := by decide
theorem test_decode_xfer : decode 0b00001010_00000000_00000000000000000000000000000000 = .ok .xfer := by decide

/-- V112, V116: the opcode is tested first, and the fields before the phase. -/
theorem test_decode_refuses : decode 0x0B0000000001 = .error (.reservedOpcode 0x0B) ∧
    decode 0x080100000000 = .error (.unusedField 0x08) := by decide

/-- The host's word numbering: one 48-bit word, bit 0 its least significant bit (R90). -/
theorem test_decode_table_word : decodeTableWord 48 0x064100000000 = some (.put 0x41) ∧ decodeTableWord 48 0x064100000001 = none := by
  decide

/-- R97, R98: an assembler line and the three pseudo-instructions. -/
theorem test_assembler : (assemble "SETFREQ" [0x41, 2]).map encode = some 0x024100000002 ∧ assemble "PUT" [256] = none ∧
    (Pseudo.puts [0x67, 0x6F]).expand = some [.put 0x67, .put 0x6F] ∧ (Pseudo.puts [0x0A]).expand = none ∧
    Pseudo.compress.expand = some [.count, .build, .gen, .encode] ∧ Pseudo.loopback.expand = some [.xfer, .decode] := by
  decide

/-! ### One step per command, by the spec's vectors -/

/-- V100. -/
theorem test_nop : step (abcReady.withFetchWord 48 0x000000000000) = .next abcReady := by rfl

/-- V108, V119: from the faulted condition too. -/
theorem test_clear :
    step (({ abcReady with err := .unknownSymbol, errinfo := 0x44, errpos := 2 } : State).withFetchWord 48 0x010000000000) =
      .next State.reset := by rfl

/-- V51. -/
theorem test_setfreq_max : nextIs (step (State.reset.withFetchWord 48 0x02FFFFFFFFFF))
    (fun t => t.freq.sym 0xFF == 4294967295 && t.freq.sym 0xFE == 0 && t.err == .none) = true := by decide +kernel

/-- V52: the same value again invalidates the table, whose stale entry still reads "10". -/
theorem test_setfreq_invalidates : nextIs (step (abcReady.withFetchWord 48 0x024100000002))
    (fun t => t.freq == abcFreq && t.phase == .collect && t.nleaf == 3 && codeOf t.code 0x41 == some [true, false]) = true := by
  decide +kernel

/-- V54. -/
theorem test_count :
    nextIs (exec .count (State.reset.withInput (mkBuf [0x41, 0x41, 0x42, 0x42, 0x42, 0x43, 0x43, 0x43, 0x43])))
      (fun t => t.freq == abcFreq && t.phase == .collect) = true := by decide +kernel

/-- V55: COUNT replaces. -/
theorem test_count_replaces :
    nextIs (exec .count ({ State.reset with freq := (Table.fill 0).setSym 0x7A 9, ibuf := mkBuf [0x61, 0x61] } : State))
      (fun t => t.freq.sym 0x61 == 2 && t.freq.sym 0x7A == 0) = true := by decide +kernel

/-- V10: the example tree, its registers, and the first free slot after it. -/
theorem test_build : nextIs (exec .build ({ State.reset with freq := abcFreq } : State)) (fun t =>
    t.node.cells.take 6 == abcNodes ++ [Node.free] && t.root == 4 && t.nleaf == 3 && t.nnodes == 5 && t.phase == .built) = true := by
  decide +kernel

/-- V13: an empty table. -/
theorem test_build_empty : nextIs (exec .build State.reset)
    (fun t => errors t == (.emptyAlphabet, 0, 0) && t.root == 0x1FF && t.phase == .collect) = true := by decide +kernel

/-- V20: the example table as packed entries, and an invalid entry. -/
theorem test_gen : nextIs (exec .gen abcBuilt) (fun t =>
    [0x41, 0x42, 0x43, 0x44].map (fun y => (t.code.sym y).packed) ==
      [0x814, 0x816, 0x808, 0].map (fun n => BitVec.ofNat 264 (n * 2 ^ 252)) && t.phase == .ready) = true := by decide +kernel

/-- V28g: shared subtrees run out of visits at node 0, path length 9. -/
theorem test_gen_visits :
    nextIs (exec .gen (storeOf 9 (leafA :: (List.range 9).map (fun k => ⟨.internal, 0, 1, BitVec.ofNat 9 k, BitVec.ofNat 9 k⟩))))
      (fun t => errors t == (.malformedTree, 0, 9) && t.phase == .built) = true := by decide +kernel

/-- V101, and V104: PUT keeps the phase. -/
theorem test_put : nextIs (step (abcReady.withFetchWord 48 0x064300000000))
    (fun t => t.ibuf.bytes == [0x43] && t.phase == .ready) = true := by decide +kernel

/-- V105. -/
theorem test_rstin : exec .rstin (abcReady.withInput (mkBuf [1, 2, 3])) = .next abcReady := by rfl

/-- V30. -/
theorem test_encode :
    nextIs (exec .encode (abcReady.withInput (mkBuf [0x41, 0x41, 0x42, 0x42, 0x42, 0x43, 0x43, 0x43, 0x43])))
      (fun t => t.obuf.bytes == [0x02, 0xAF, 0xC0] && t.phase == .ready && t.err == .none) = true := by decide +kernel

/-- V64. -/
theorem test_encode_unknown : nextIs (exec .encode (abcReady.withInput (mkBuf [0x41, 0x42, 0x44])))
    (fun t => errors t == (.unknownSymbol, 0x44, 2) && t.obuf.bytes == []) = true := by decide +kernel

/-- V40. -/
theorem test_decode_stream : nextIs (exec .decode (abcReady.withInput (mkBuf [0x02, 0xAF, 0xC0])))
    (fun t => t.obuf.bytes == [0x41, 0x41, 0x42, 0x42, 0x42, 0x43, 0x43, 0x43, 0x43] && t.err == .none) = true := by
  decide +kernel

/-- V82: three symbols matched, then a candidate left over from position 3. -/
theorem test_decode_corrupt : nextIs (exec .decode (oneReady.withInput (mkBuf [0x04, 0x10])))
    (fun t => errors t == (.corruptStream, 4, 3) && t.obuf.bytes == []) = true := by decide +kernel

/-- V106. -/
theorem test_xfer :
    nextIs (exec .xfer ({ State.reset with obuf := mkBuf [0x02, 0xAF, 0xC0], ibuf := mkBuf [1, 2, 3, 4, 5, 6, 7, 8, 9] } : State))
      (fun t => t.ibuf.bytes == [0x02, 0xAF, 0xC0] && t.obuf.bytes == [0x02, 0xAF, 0xC0]) = true := by decide +kernel

/-- V118: in the faulted condition a reserved opcode is dropped. -/
theorem test_faulted_drops :
    nextIs (step (({ State.reset with err := .illegalCommand, errinfo := 8, errpos := 2 } : State).withFetchWord 48 0x0B0000000000))
      (fun t => errors t == (.illegalCommand, 8, 2)) = true := by decide +kernel

/-- V134, V135, V131: packed entries through the read port. -/
theorem test_read_port : abcReady.readPort 2 4 = some 0x80000000000240403 ∧
    abcReady.readPort 3 0x41 = some (BitVec.ofNat 264 (0x814 * 2 ^ 252)) ∧ State.reset.readPort 0 8 = some 0x1FF := by
  decide +kernel

/-! ### Facts about the small states, for the witnesses -/

theorem bytes_mkBuf {l : List Byte} (h : l.length ≤ 65536) : (mkBuf l).bytes = l := by
  simp [mkBuf, Buffer.ofBytes?, Config.bufCap, h]

theorem abc_codes : ∀ y, codeOf abcReady.code y =
    if y = 0x41 then some [true, false] else if y = 0x42 then some [true, true]
    else if y = 0x43 then some [false] else none := by
  intro y
  by_cases h1 : y = 0x41
  · subst h1; decide +kernel
  by_cases h2 : y = 0x42
  · subst h2; decide +kernel
  by_cases h3 : y = 0x43
  · subst h3; decide +kernel
  rw [if_neg h1, if_neg h2, if_neg h3, codeOf, show abcReady.code = abcCode from rfl, abcCode, Table.sym_setSym, if_neg h3,
    Table.sym_setSym, if_neg h2, Table.sym_setSym, if_neg h1, Table.sym_fill]
  rfl

theorem one_codes : ∀ y, codeOf oneReady.code y = if y = 0x61 then some [false] else none := by
  intro y
  by_cases h1 : y = 0x61
  · subst h1; decide +kernel
  rw [if_neg h1, codeOf, show oneReady.code = (Table.fill CodeEntry.invalid).setSym 0x61 ⟨true, 1, 0⟩ from rfl,
    Table.sym_setSym, if_neg h1, Table.sym_fill]
  rfl

theorem abc_freq (y : Byte) : abcReady.freq.sym y = if y = 0x43 then 4 else if y = 0x42 then 3 else if y = 0x41 then 2 else 0 := by
  rw [show abcReady.freq = abcFreq from rfl, abcFreq, Table.sym_setSym, Table.sym_setSym, Table.sym_setSym, Table.sym_fill]

theorem one_freq (y : Byte) : oneReady.freq.sym y = if y = 0x61 then 4 else 0 := by
  rw [show oneReady.freq = (Table.fill 0).setSym 0x61 4 from rfl, Table.sym_setSym, Table.sym_fill]

theorem abc_prefixFree : PrefixFree abcReady.code := by
  intro y z c d hne hc hd
  rw [abc_codes] at hc hd
  split_ifs at hc hd <;> cases hc <;> cases hd <;> first | decide | exact absurd (by simp_all) hne

theorem abc_nonEmpty : NonEmptyCodes abcReady.code := by
  intro y hc
  rw [abc_codes] at hc
  split_ifs at hc <;> cases hc

theorem one_prefixFree : PrefixFree oneReady.code := by
  intro y z c d hne hc hd
  rw [one_codes] at hc hd
  split_ifs at hc hd; cases hc; cases hd
  exact absurd (by simp_all) hne

theorem one_nonEmpty : NonEmptyCodes oneReady.code := by
  intro y hc
  rw [one_codes] at hc
  split_ifs at hc; cases hc

theorem nodeNo_ofPrefix {s : State} {l : List Node} (h : s.node = .ofPrefix l Node.free) {i : Nat} (hi : i < 511)
    (hl : l.length ≤ i) : s.nodeNo i = Node.free := by
  have e := Table.get_ofPrefix (n := Config.nnode) l Node.free ⟨i, hi⟩
  rw [State.nodeNo, List.getD_eq_getElem _ _ (by rw [s.node.size]; exact hi)]
  rw [← h] at e
  exact e.trans (List.getD_eq_default _ _ hl)

/-- The example tree meets every tree invariant. -/
theorem abc_treeOk : TreeOk abcBuilt where
  leafCount := by decide +kernel
  counts := by decide +kernel
  leaves := by decide +kernel
  ascending := by decide +kernel
  allSymbols := by
    intro y hy
    rw [show abcBuilt.freq = abcReady.freq from rfl, abc_freq] at hy
    split_ifs at hy with h1 h2 h3
    · subst h1; exact ⟨2, by decide +kernel⟩
    · subst h2; exact ⟨1, by decide +kernel⟩
    · subst h3; exact ⟨0, by decide +kernel⟩
    · exact absurd rfl hy
  internals := by decide +kernel
  frees := fun _ hi hl => nodeNo_ofPrefix (l := abcNodes) rfl hi hl
  ownedOnce := by decide +kernel
  rootUnowned := by decide +kernel
  sums := by decide +kernel
  total := by decide +kernel

/-- The same tree once the table exists. -/
theorem abc_treeOk_ready : TreeOk abcReady := ⟨abc_treeOk.1, abc_treeOk.2, abc_treeOk.3, abc_treeOk.4, abc_treeOk.5,
  abc_treeOk.6, abc_treeOk.7, abc_treeOk.8, abc_treeOk.9, abc_treeOk.10, abc_treeOk.11⟩

/-- The one-symbol tree meets every tree invariant. -/
theorem one_treeOk : TreeOk oneReady where
  leafCount := by decide +kernel
  counts := by decide +kernel
  leaves := by decide +kernel
  ascending := by decide +kernel
  allSymbols := by
    intro y hy
    rw [one_freq] at hy
    split_ifs at hy with h1
    · subst h1; exact ⟨0, by decide +kernel⟩
    · exact absurd rfl hy
  internals := by decide +kernel
  frees := fun _ hi hl => nodeNo_ofPrefix (l := [⟨.leaf, 0x61, 4, 0x1FF, 0x1FF⟩]) rfl hi hl
  ownedOnce := by decide +kernel
  rootUnowned := by decide +kernel
  sums := by decide +kernel
  total := by decide +kernel

theorem abc_complete (q : BitSeq) :
    (∃ y c, codeOf abcReady.code y = some c ∧ q <+: c ∧ q ≠ c) ∨
      (∃ y, (∃ c, codeOf abcReady.code y = some c ∧ c <+: q) ∧
        ∀ z, (∃ d, codeOf abcReady.code z = some d ∧ d <+: q) → z = y) := by
  have one : ∀ (y : Byte) (c rest : BitSeq), codeOf abcReady.code y = some c → q = c ++ rest →
      ∃ y, (∃ c, codeOf abcReady.code y = some c ∧ c <+: q) ∧
        ∀ z, (∃ d, codeOf abcReady.code z = some d ∧ d <+: q) → z = y := by
    rintro y c rest hc rfl
    refine ⟨y, ⟨c, hc, List.prefix_append _ _⟩, ?_⟩
    rintro z ⟨d, hd, hp⟩
    by_contra hne
    rcases List.prefix_or_prefix_of_prefix hp (List.prefix_append c rest) with h | h
    · exact abc_prefixFree z y d c hne hd hc h
    · exact abc_prefixFree y z c d (Ne.symm hne) hc hd h
  match q with
  | [] => exact .inl ⟨0x43, [false], abc_codes 0x43, by decide, by decide⟩
  | false :: r => exact .inr (one 0x43 [false] r (abc_codes 0x43) rfl)
  | [true] => exact .inl ⟨0x41, [true, false], abc_codes 0x41, by decide, by decide⟩
  | true :: false :: r => exact .inr (one 0x41 [true, false] r (abc_codes 0x41) rfl)
  | true :: true :: r => exact .inr (one 0x42 [true, true] r (abc_codes 0x42) rfl)

/-- The example table meets every table invariant. -/
theorem abc_tableOk : TableOk abcReady where
  validIff := by
    intro y
    rw [abc_codes, abc_freq]
    by_cases h1 : y = 0x41
    · subst h1; decide
    by_cases h2 : y = 0x42
    · subst h2; decide
    by_cases h3 : y = 0x43
    · subst h3; decide
    rw [if_neg h1, if_neg h2, if_neg h3, if_neg h3, if_neg h2, if_neg h1]
    decide
  cardinality := by decide +kernel
  paths := by
    intro _ y c hc
    rw [abc_codes] at hc
    split_ifs at hc with h1 h2 h3 <;> cases hc
    · subst h1; exact ⟨0, by decide +kernel, by decide +kernel, by decide +kernel⟩
    · subst h2; exact ⟨1, by decide +kernel, by decide +kernel, by decide +kernel⟩
    · subst h3; exact ⟨2, by decide +kernel, by decide +kernel, by decide +kernel⟩
  lengths := by
    intro _ y c hc
    rw [abc_codes] at hc
    split_ifs at hc <;> cases hc <;> decide
  single := fun h => absurd h (by decide)
  prefixFree := abc_prefixFree
  inverse := by
    intro y c hc
    rw [abc_codes] at hc
    split_ifs at hc with h1 h2 h3 <;> cases hc
    · subst h1; decide +kernel
    · subst h2; decide +kernel
    · subst h3; decide +kernel
  complete := fun _ => abc_complete

/-- The one-symbol table meets every table invariant. -/
theorem one_tableOk : TableOk oneReady where
  validIff := by
    intro y
    rw [one_codes, one_freq]
    split_ifs <;> simp
  cardinality := by decide +kernel
  paths := fun h => absurd h (by decide)
  lengths := fun h => absurd h (by decide)
  single := by
    intro _ y c hc
    rw [one_codes] at hc
    split_ifs at hc; cases hc; rfl
  prefixFree := one_prefixFree
  inverse := by
    intro y c hc
    rw [one_codes] at hc
    split_ifs at hc with h; cases hc; subst h; decide +kernel
  complete := fun h => absurd h (by decide)

/-- The bits of a run of zero bytes. -/
theorem bits_zero_bytes (n : Nat) : (List.replicate n (0 : Byte)).flatMap bits8 = List.replicate (8 * n) false := by
  induction n with
  | zero => rfl
  | succ n ih =>
    rw [List.replicate_succ, List.flatMap_cons, ih, show bits8 0 = List.replicate 8 false by decide,
      List.replicate_append_replicate]
    congr 1; omega

/-- The codes of a run of 'a' under the one-symbol table. -/
theorem bits_run_of_a (n : Nat) : codeBits oneReady.code (List.replicate n 0x61) = List.replicate n false := by
  have h : codeOf oneReady.code 0x61 = some [false] := one_codes 0x61
  induction n with
  | zero => rfl
  | succ n ih =>
    rw [codeBits] at ih ⊢
    rw [List.replicate_succ, List.flatMap_cons, ih, h]
    rfl

theorem coded_run_of_a (n : Nat) : AllCoded oneReady.code (List.replicate n 0x61) := by
  intro y hy
  rw [List.eq_of_mem_replicate hy]
  decide +kernel

theorem coded_abc {l : List Byte} (h : ∀ y ∈ l, y = 0x41 ∨ y = 0x42 ∨ y = 0x43) : AllCoded abcReady.code l := by
  intro y hy
  rcases h y hy with h | h | h <;> subst h <;> decide +kernel

/-! ### A witness for the hypotheses of each obligation -/

/-- Both halves of the opcode map's statement: a word that is a command and a word that is none. -/
theorem test_wit_OpcodeMapSelectsDecodedRow : decode 0x06AF00000000 = .ok (.put 0xAF) ∧
    decode 0x06AF00000001 = .error (.unusedField 0x06) := by decide

/-- Each clause of the three reasons, at the boundary opcodes 0x0B, 0xFF, 0x00, 0x0A. -/
theorem test_wit_IllegalCommandReasons :
    State.reset.err = .none ∧ (State.reset.withFetchWord 48 0x0B0000000000).port = .command 0x0B0000000000 :: [] ∧
    0x0A < ((0x0B0000000000 : CmdWord).extractLsb' 40 8).toNat ∧ 0x0A < ((0xFF0000000000 : CmdWord).extractLsb' 40 8).toNat ∧
    (0x0A0000000001 : CmdWord).extractLsb' 40 8 = 0x0A ∧ (0x0A0000000001 : CmdWord).extractLsb' 0 32 ≠ (0 : Count) ∧
    (0x000100000000 : CmdWord).extractLsb' 40 8 = 0x00 ∧ (0x000100000000 : CmdWord).extractLsb' 32 8 ≠ (0 : Byte) ∧
    (0x064100000001 : CmdWord).extractLsb' 40 8 = 0x06 ∧ (0x064100000001 : CmdWord).extractLsb' 0 32 ≠ (0 : Count) ∧
    (0x050000000000 : CmdWord).extractLsb' 40 8 = 0x05 ∧ State.reset.phase = .collect ∧
    (0x080000000000 : CmdWord).extractLsb' 40 8 = 0x08 ∧ (0x090000000000 : CmdWord).extractLsb' 40 8 = 0x09 ∧
    State.reset.phase ≠ .ready ∧ abcBuilt.phase ≠ .ready := by decide +kernel

theorem test_wit_StepRunsDecodedCommand :
    (State.reset.withFetchWord 48 0x064100000000).port = .command 0x064100000000 :: [] ∧
    decode 0x064100000000 = .ok (.put 0x41) := by decide +kernel

theorem test_wit_IdleCoreHoldsState : abcReady.port = [] := rfl

/-- A hardware reset pending on a faulted machine. -/
theorem test_wit_HardwareResetRestoresReset :
    (({ abcReady with err := .corruptStream } : State).setPort [.reset]).port = .reset :: [] := rfl

/-- A reset and a CLEAR as the next input. -/
theorem test_wit_ResetValuesAsRead : (abcReady.setPort [.reset]).port = .reset :: [] ∧
    (abcReady.setPort [.command 0x010000000000]).port = .command 0x010000000000 :: [] := ⟨rfl, rfl⟩

theorem test_wit_ClearRestoresReset :
    (abcReady.withFetchWord 48 0x010000000000).port = .command 0x010000000000 :: [] := rfl

/-- V118: a faulted machine meeting a malformed CLEAR. -/
theorem test_wit_FaultedDropsAllButClear :
    (({ State.reset with err := .illegalCommand } : State).withFetchWord 48 0x010000000001).err ≠ .none ∧
    (({ State.reset with err := .illegalCommand } : State).withFetchWord 48 0x010000000001).port =
      .command 0x010000000001 :: [] ∧ (0x010000000001 : CmdWord) ≠ 0x010000000000 := by decide +kernel

theorem test_wit_OnlyClearOrResetEndsFault :
    (({ State.reset with err := .illegalCommand } : State).withFetchWord 48 0x010000000000).err ≠ .none ∧
    step (({ State.reset with err := .illegalCommand } : State).withFetchWord 48 0x010000000000) = .next State.reset :=
  ⟨by decide, by rfl⟩

/-- Every command in each of the three phases, and in the faulted condition. -/
theorem test_wit_PhaseTransitions (i : Instr) : (State.reset.err = .none ∧ ∃ t, exec i State.reset = .next t) ∧
    (abcBuilt.err = .none ∧ ∃ t, exec i abcBuilt = .next t) ∧ (abcReady.err = .none ∧ ∃ t, exec i abcReady = .next t) ∧
    ∃ t, exec i ({ abcReady with err := .illegalCommand } : State) = .next t := by
  cases i <;> exact ⟨⟨rfl, _, rfl⟩, ⟨rfl, _, rfl⟩, ⟨rfl, _, rfl⟩, _, rfl⟩

/-- Three commands that complete without error, one for each pair of flags. -/
theorem test_wit_FlagsAfterCommands :
    (∃ t, exec .count abcReady = .next t ∧ (t.err == .none) = true) ∧
    (∃ t, exec .build abcReady = .next t ∧ (t.err == .none) = true) ∧
    (∃ t, exec .gen abcReady = .next t ∧ (t.err == .none) = true) ∧ abcReady.err = .none :=
  ⟨of_nextIs (by decide +kernel), of_nextIs (by decide +kernel), of_nextIs (by decide +kernel), rfl⟩

/-- The ends of the printable range, and a line. -/
theorem test_wit_AssemblerForms : (∀ c ∈ [(0x20 : Byte), 0x7E], 0x20 ≤ c.toNat ∧ c.toNat ≤ 0x7E) ∧
    assemble "SETFREQ" [255, 4294967295] = some (.setfreq 0xFF 0xFFFFFFFF) := by decide

theorem test_wit_CommandsWriteOnlyTheirPieces (i : Instr) : ∃ t, exec i abcReady = .next t := by
  cases i <;> exact ⟨_, rfl⟩

/-- Two states with the same reads that differ in the inputs still to come. -/
theorem test_wit_ReadPortDeterminesState :
    (∀ space index, abcReady.readPort space index = (abcReady.setPort [.reset]).readPort space index) ∧
      abcReady.port ≠ (abcReady.setPort [.reset]).port := ⟨fun _ _ => rfl, by decide⟩

/-- The ranges of the reads: the last node index, and a byte in each buffer. -/
theorem test_wit_ReadPortValues : (0x1FE : NodeIdx) ≠ Config.nil ∧ (mkBuf [7]).bytes[(0 : BitVec 17).toNat]? = some 7 ∧
    (mkBuf [7]).bytes[(1 : BitVec 17).toNat]? = none := by decide +kernel

/-- The states without a held error that the command statements speak of. -/
theorem test_wit_NoError : State.reset.err = .none ∧ abcBuilt.err = .none ∧ abcReady.err = .none ∧ oneReady.err = .none :=
  ⟨rfl, rfl, rfl, rfl⟩

/-- SETFREQ: a symbol other than the one written. -/
theorem test_wit_SetfreqWritesOneCount : State.reset.err = .none ∧ (0x41 : Byte) ≠ 0xFF := by decide +kernel

theorem test_wit_CountCountsBytes : (State.reset.withInput (mkBuf [0x61, 0x61])).err = .none := rfl

/-- V58: a full buffer of one byte value. -/
theorem test_wit_CountTotalIsInputLength : (State.reset.withInput (longBuf 65536 0 (by decide))).err = .none ∧
    ∃ t, exec .count (State.reset.withInput (longBuf 65536 0 (by decide))) = .next t := ⟨rfl, _, rfl⟩

theorem test_wit_BuildOnEmptyTableRaises : State.reset.err = .none ∧ ∀ y, State.reset.freq.sym y = 0 := ⟨rfl, Table.sym_fill 0⟩

theorem test_wit_BuildCompletesWithTree : abcReady.err = .none ∧ ∃ y, abcReady.freq.sym y ≠ 0 := ⟨rfl, 0x41, by decide +kernel⟩

theorem test_wit_BuildOneSymbolLeafIsRoot : oneReady.err = .none ∧ oneReady.freq.sym 0x61 ≠ 0 ∧
    ∀ z, z ≠ 0x61 → oneReady.freq.sym z = 0 := ⟨rfl, by decide +kernel, fun z h => by rw [one_freq, if_neg h]⟩

/-- The counts of two symbols. -/
def twoFreq (x y : Byte) (cx cy : Count) : State := { State.reset with freq := ((Table.fill 0).setSym x cx).setSym y cy }

theorem twoFreq_else {x y z : Byte} (cx cy : Count) (h1 : z ≠ x) (h2 : z ≠ y) : (twoFreq x y cx cy).freq.sym z = 0 := by
  rw [show (twoFreq x y cx cy).freq = ((Table.fill 0).setSym x cx).setSym y cy from rfl, Table.sym_setSym, if_neg h2,
    Table.sym_setSym, if_neg h1, Table.sym_fill]

/-- V62's alphabet with a tie. -/
theorem test_wit_BuildTwoSymbols_tie : (twoFreq 0x61 0x62 1 1).err = .none ∧ (0x61 : Byte).toNat < (0x62 : Byte).toNat ∧
    (twoFreq 0x61 0x62 1 1).freq.sym 0x61 ≠ 0 ∧ (twoFreq 0x61 0x62 1 1).freq.sym 0x62 ≠ 0 ∧
    ∀ z, z ≠ 0x61 → z ≠ 0x62 → (twoFreq 0x61 0x62 1 1).freq.sym z = 0 :=
  ⟨rfl, by decide, by decide +kernel, by decide +kernel, fun _ => twoFreq_else 1 1⟩

/-- The same with the larger count on the smaller symbol, at the ends of the alphabet and of the counts. -/
theorem test_wit_BuildTwoSymbols_swapped : (twoFreq 0 0xFF 0xFFFFFFFF 1).err = .none ∧ (0 : Byte).toNat < (0xFF : Byte).toNat ∧
    (twoFreq 0 0xFF 0xFFFFFFFF 1).freq.sym 0 ≠ 0 ∧ (twoFreq 0 0xFF 0xFFFFFFFF 1).freq.sym 0xFF ≠ 0 ∧
    (∀ z, z ≠ 0 → z ≠ 0xFF → (twoFreq 0 0xFF 0xFFFFFFFF 1).freq.sym z = 0) ∧
    ¬ ((twoFreq 0 0xFF 0xFFFFFFFF 1).freq.sym 0).toNat ≤ ((twoFreq 0 0xFF 0xFFFFFFFF 1).freq.sym 0xFF).toNat :=
  ⟨rfl, by decide, by decide +kernel, by decide +kernel, fun _ => twoFreq_else _ _, by decide +kernel⟩

theorem test_wit_ExtractMinTakesLeastKey : [2, 511, 0] ≠ ([] : List Nat) ∧ [2, 511, 0].Nodup ∧ ∀ i ∈ [2, 511, 0], i < 512 := by
  decide

theorem test_wit_LeafDepthBound : TreeOk abcBuilt ∧ follow abcBuilt.node abcBuilt.root [true, false] = some 0 ∧
    (nodeAt abcBuilt.node 0).kind = .leaf ∧ 2 ≤ abcBuilt.nleaf.val := ⟨abc_treeOk, by decide +kernel⟩

/-- Two states with the same counts and different buffers and phases. -/
theorem test_wit_TableIsFunctionOfFreq : abcBuilt.err = .none ∧ (abcReady.withInput (mkBuf [1])).err = .none ∧
    abcBuilt.freq = (abcReady.withInput (mkBuf [1])).freq ∧
    ∃ t t' u u', exec .build abcBuilt = .next t ∧ exec .build (abcReady.withInput (mkBuf [1])) = .next t' ∧
      exec .gen t = .next u ∧ exec .gen t' = .next u' := ⟨rfl, rfl, rfl, _, _, _, _, rfl, rfl, rfl, rfl⟩

/-- The optimality statement: a state with a count, and a competing assignment. -/
theorem test_wit_HuffmanCodesAreOptimal : abcBuilt.err = .none ∧ (∃ y, abcBuilt.freq.sym y ≠ 0) ∧
    PrefixFreeAssignment abcBuilt.freq (fun y => (codeOf abcReady.code y).getD []) := by
  have h : ∀ y, abcBuilt.freq.sym y ≠ 0 → ∃ c, codeOf abcReady.code y = some c := fun y hy =>
    Option.isSome_iff_exists.1 ((abc_tableOk.validIff y).2 hy)
  refine ⟨rfl, ⟨0x41, by decide +kernel⟩, ?_, ?_⟩
  · intro y hy
    obtain ⟨c, hc⟩ := h y hy
    simp only [hc, Option.getD_some]
    rintro rfl
    exact abc_nonEmpty y hc
  · intro y z hne hy hz
    obtain ⟨c, hc⟩ := h y hy
    obtain ⟨d, hd⟩ := h z hz
    simp only [hc, hd, Option.getD_some]
    exact abc_prefixFree y z c d hne hc hd

theorem test_wit_GenCompletesOnTree : abcBuilt.err = .none ∧ abcBuilt.phase ≠ .collect ∧ TreeOk abcBuilt ∧
    oneReady.phase ≠ .collect ∧ TreeOk oneReady := ⟨rfl, by decide, abc_treeOk, by decide, one_treeOk⟩

theorem test_wit_GenCodesArePathsOfLeaves : abcBuilt.phase ≠ .collect ∧ (nodeAt abcBuilt.node abcBuilt.root).kind = .internal ∧
    (∃ t, exec .gen abcBuilt = .next t ∧ (t.err == .none && codeOf t.code 0x41 == some [true, false]) = true) :=
  ⟨by decide, by decide +kernel, of_nextIs (by decide +kernel)⟩

theorem test_wit_GenOneSymbolCodeIsZero : oneReady.err = .none ∧ oneReady.phase ≠ .collect ∧ oneReady.root ≠ Config.nil ∧
    (nodeAt oneReady.node oneReady.root).kind = .leaf := by decide +kernel

/-- V28a, V28b, V28d's kind, V28e, V28h: each clause of the malformed roots. -/
theorem test_wit_GenMalformedTree :
    ((storeOf 0 []).err = .none ∧ (storeOf 0 []).phase ≠ .collect) ∧ (storeOf 0x1FF []).root = Config.nil ∧
    (nodeAt (storeOf 5 []).node 5).kind = .free ∧
    (nodeAt (storeOf 0 [{ leafA with kind := .reserved }]).node 0).kind = .reserved ∧
    ((nodeAt (storeOf 1 [leafA, ⟨.internal, 0, 1, 0, 0x1FF⟩]).node 1).kind = .internal ∧
      (nodeAt (storeOf 1 [leafA, ⟨.internal, 0, 1, 0, 0x1FF⟩]).node 1).right = Config.nil) ∧
    ((nodeAt (storeOf 1 [leafA, ⟨.internal, 0, 1, 0x1FF, 0⟩]).node 1).kind = .internal ∧
      (nodeAt (storeOf 1 [leafA, ⟨.internal, 0, 1, 0x1FF, 0⟩]).node 1).left = Config.nil) := by decide +kernel

/-- V28c: a failing GEN, whose first leaf was written before. -/
theorem test_wit_GenMalformedTree_fails :
    ∃ t, exec .gen (storeOf 2 [leafA, Node.free, ⟨.internal, 0, 1, 0, 1⟩]) = .next t ∧
      (errors t == (.malformedTree, 1, 1) && t.code == .fill CodeEntry.invalid) = true := of_nextIs (by decide +kernel)

theorem test_wit_GenTwiceGivesSameState : abcBuilt.err = .none ∧ abcBuilt.phase ≠ .collect ∧ ∃ t, exec .gen abcBuilt = .next t :=
  ⟨rfl, by decide, _, rfl⟩

/-- The forms of the stores, in a state with a tree. -/
theorem test_wit_StepKeepsStoreForms : StoresOk abcBuilt ∧
    ∃ t, step (abcBuilt.withFetchWord 48 0x050000000000) = .next t := by
  refine ⟨⟨fun _ => ⟨rfl, rfl⟩, ?_, ?_, .inr (by decide), fun _ => by decide, fun _ e he => ?_⟩, _, rfl⟩
  · intro n hn
    have hm : n ∈ abcNodes ∨ n = Node.free := by
      have : n ∈ abcNodes ++ List.replicate (Config.nnode - abcNodes.length) Node.free := List.mem_of_mem_take hn
      rcases List.mem_append.1 this with h | h
      · exact .inl h
      · exact .inr (List.eq_of_mem_replicate h)
    simp only [abcNodes, List.mem_cons, List.not_mem_nil, or_false] at hm
    rcases hm with (h | h | h | h | h) | h <;> subst h <;> simp [Node.wellFormed, Config.nil, Node.free]
  · intro e he
    rw [List.eq_of_mem_replicate (n := 256) he]
    simp [CodeEntry.wellFormed, CodeEntry.invalid]
  · exact List.eq_of_mem_replicate (n := 256) he

theorem test_wit_StepKeepsTree : TreeWhenBuilt abcReady ∧ ∃ t, step (abcReady.withFetchWord 48 0x050000000000) = .next t :=
  ⟨fun _ => abc_treeOk_ready, _, rfl⟩

theorem test_wit_StepKeepsTable : TreeWhenBuilt abcReady ∧ TableWhenReady abcReady ∧
    ∃ t, step (abcReady.withFetchWord 48 0x050000000000) = .next t :=
  ⟨fun _ => abc_treeOk_ready, fun _ => abc_tableOk, _, rfl⟩

/-- V72 and V43: a held CorruptStream at both ends of its details. -/
theorem test_wit_StepKeepsErrorForm :
    ErrorForm { abcReady with err := .corruptStream, errinfo := 2, errpos := 255 } ∧
    ErrorForm { abcReady with err := .corruptStream, errinfo := 3, errpos := 8 } ∧
    ErrorForm { abcReady with ibuf := longBuf 65536 0 (by decide), err := .bufferOverflow, errinfo := 0, errpos := 65537 } ∧
    ∃ t, step (abcReady.withFetchWord 48 0x090000000000) = .next t := by
  refine ⟨?_, ?_, ?_, _, rfl⟩
  · exact ⟨rfl, rfl, .inr (.inl ⟨rfl, by decide, by decide⟩)⟩
  · exact ⟨rfl, rfl, .inr (.inr (.inl ⟨rfl, by decide, by decide⟩))⟩
  · exact ⟨by decide, .inl ⟨rfl, by decide, List.length_replicate⟩⟩

/-- V30 and V32: an input with codes, and the empty input. -/
theorem test_wit_EncodeProducesPackedStream : abcReady.err = .none ∧ abcReady.phase = .ready ∧
    AllCoded abcReady.code (abcReady.withInput (mkBuf [0x43, 0x41, 0x42])).ibuf.bytes ∧
    (codeBits abcReady.code (abcReady.withInput (mkBuf [0x43, 0x41, 0x42])).ibuf.bytes).length / 8 + 2 ≤ 65536 ∧
    AllCoded abcReady.code abcReady.ibuf.bytes := by
  refine ⟨rfl, rfl, ?_, by decide +kernel, fun y hy => by cases hy⟩
  exact coded_abc (by decide +kernel)

/-- V64. -/
theorem test_wit_EncodeUnknownSymbolAtFirst : (abcReady.withInput (mkBuf [0x41, 0x42, 0x44])).ibuf.bytes = [0x41, 0x42] ++ 0x44 :: [] ∧
    AllCoded abcReady.code [0x41, 0x42] ∧ (abcReady.code.sym 0x44).valid = false :=
  ⟨by decide +kernel, coded_abc (by decide), by decide +kernel⟩

/-- A table whose one code has 255 bits. -/
def deepCode : Table CodeEntry Config.nsym := (Table.fill CodeEntry.invalid).setSym 0 (CodeEntry.ofPath (List.replicate 255 true))

theorem deep_bits (n : Nat) : (codeBits deepCode (List.replicate n 0)).length = n * 255 := by
  have h : codeOf deepCode 0 = some (List.replicate 255 true) := by decide +kernel
  induction n with
  | zero => rfl
  | succ n ih =>
    rw [codeBits] at ih ⊢
    rw [List.replicate_succ, List.flatMap_cons, List.length_append, ih, h, Option.getD_some, List.length_replicate]
    omega

/-- 2056 codes of 255 bits need 65537 bytes, one more than BUF_CAP. -/
theorem test_wit_EncodeOverflowRaises :
    AllCoded deepCode (longBuf 2056 0 (by decide)).bytes ∧ 65536 < (codeBits deepCode (longBuf 2056 0 (by decide)).bytes).length / 8 + 2 ∧
    ({ abcReady with code := deepCode, ibuf := longBuf 2056 0 (by decide) } : State).phase = .ready := by
  refine ⟨?_, ?_, rfl⟩
  · intro y hy
    rw [List.eq_of_mem_replicate (n := 2056) hy]
    decide +kernel
  · rw [show (longBuf 2056 0 (by decide)).bytes = List.replicate 2056 0 from rfl, deep_bits]
    decide

/-- The input of V30 in a second state with another output buffer. -/
theorem test_wit_EncodedStreamFacts :
    (∃ t, exec .encode (abcReady.withInput (mkBuf [0x43])) = .next t ∧ (t.err == .none) = true) ∧
    (∃ t, exec .encode ({ abcReady.withInput (mkBuf [0x43]) with obuf := mkBuf [9], freq := .fill 0 } : State) = .next t) :=
  ⟨of_nextIs (by decide +kernel), _, rfl⟩

theorem test_wit_EmptyInputGivesPadOnlyStream : abcReady.phase = .ready ∧ abcReady.ibuf.bytes = [] ∧
    (abcReady.withInput (mkBuf [0x08, 0x00])).ibuf.bytes = [0x08, 0x00] := by decide +kernel

/-- V40's stream. -/
theorem test_wit_DecodeRecoversCodedSymbols : PrefixFree abcReady.code ∧ NonEmptyCodes abcReady.code ∧
    (mkBuf [0x03, 0x58]).bytes = 0x03 :: [0x58] ∧ (0x03 : Byte).toNat ≤ 8 ∧
    ([0x58] : List Byte).flatMap bits8 = codeBits abcReady.code [0x43, 0x41, 0x42] ++ [false, false, false] ∧
    [false, false, false].length = (0x03 : Byte).toNat ∧ AllCoded abcReady.code [0x43, 0x41, 0x42] :=
  ⟨abc_prefixFree, abc_nonEmpty, by decide +kernel, by decide, by decide +kernel, by decide, coded_abc (by decide)⟩

/-- V71, V43 at both ends, V72 at both ends. -/
theorem test_wit_CorruptStreamCauses_header : abcReady.ibuf.bytes = [] ∧
    ((mkBuf [0x09, 0xAF, 0xC0]).bytes = 0x09 :: [0xAF, 0xC0] ∧ 8 < (0x09 : Byte).toNat) ∧
    ((mkBuf [0xFF]).bytes = 0xFF :: [] ∧ 8 < (0xFF : Byte).toNat) ∧
    ((mkBuf [0x01]).bytes = [0x01] ∧ 1 ≤ (0x01 : Byte).toNat) ∧ ((mkBuf [0x08]).bytes = [0x08] ∧ (0x08 : Byte).toNat ≤ 8) := by
  decide +kernel

/-- V77: a candidate that is a proper prefix of two codes. -/
theorem test_wit_CorruptStreamCauses_candidate :
    (mkBuf [0x07, 0x80]).bytes = 0x07 :: [0x80] ∧
    ([0x80] : List Byte).flatMap bits8 = codeBits abcReady.code [] ++ [true] ++ List.replicate 7 false ∧
    (List.replicate 7 false).length = (0x07 : Byte).toNat ∧ AllCoded abcReady.code [] ∧
    ∀ y c, codeOf abcReady.code y = some c → ¬ c <+: [true] := by
  refine ⟨by decide +kernel, by decide +kernel, by decide, coded_abc (by decide), ?_⟩
  intro y c hc
  rw [abc_codes] at hc
  split_ifs at hc <;> cases hc <;> decide

/-- V82: a candidate that no code starts, after three symbols. -/
theorem test_wit_CorruptStreamCauses_unmatched : PrefixFree oneReady.code ∧ NonEmptyCodes oneReady.code ∧
    (mkBuf [0x04, 0x10]).bytes = 0x04 :: [0x10] ∧
    ([0x10] : List Byte).flatMap bits8 = codeBits oneReady.code [0x61, 0x61, 0x61] ++ [true] ++ List.replicate 4 false ∧
    AllCoded oneReady.code [0x61, 0x61, 0x61] ∧ ∀ y c, codeOf oneReady.code y = some c → ¬ c <+: [true] := by
  refine ⟨one_prefixFree, one_nonEmpty, by decide +kernel, by decide +kernel, coded_run_of_a 3, ?_⟩
  intro y c hc
  rw [one_codes] at hc
  split_ifs at hc; cases hc; decide

/-- V90: 65537 symbols. -/
theorem test_wit_DecodeOverflowRaises : PrefixFree oneReady.code ∧ NonEmptyCodes oneReady.code ∧
    (mkBuf (0x07 :: List.replicate 8193 0)).bytes = 0x07 :: List.replicate 8193 0 ∧
    (List.replicate 8193 (0 : Byte)).flatMap bits8 =
      codeBits oneReady.code (List.replicate 65537 0x61) ++ List.replicate 7 false ∧
    (List.replicate 7 false).length = (0x07 : Byte).toNat ∧ AllCoded oneReady.code (List.replicate 65537 0x61) ∧
    65536 < (List.replicate 65537 (0x61 : Byte)).length := by
  refine ⟨one_prefixFree, one_nonEmpty, bytes_mkBuf ?_, ?_, by decide, coded_run_of_a _, ?_⟩
  · rw [List.length_cons, List.length_replicate]; decide
  · rw [bits_zero_bytes, bits_run_of_a, List.replicate_append_replicate]
  · rw [List.length_replicate]; decide

/-- V40 and V76: two streams that differ in their pad bits. -/
theorem test_wit_DecodeIgnoresPadBits : (mkBuf [0x02, 0xAF, 0xC0]).bytes = 0x02 :: [0xAF, 0xC0] ∧
    (mkBuf [0x02, 0xAF, 0xC3]).bytes = 0x02 :: [0xAF, 0xC3] ∧
    ([0xAF, 0xC0] : List Byte).flatMap bits8 = (([0xAF, 0xC0] : List Byte).flatMap bits8).take 14 ++ [false, false] ∧
    ([0xAF, 0xC3] : List Byte).flatMap bits8 = (([0xAF, 0xC0] : List Byte).flatMap bits8).take 14 ++ [true, true] ∧
    [false, false].length = (0x02 : Byte).toNat ∧
    (∃ t, exec .decode (abcReady.withInput (mkBuf [0x02, 0xAF, 0xC0])) = .next t) ∧
    (∃ t, exec .decode (abcReady.withInput (mkBuf [0x02, 0xAF, 0xC3])) = .next t) :=
  ⟨by decide +kernel, by decide +kernel, by decide +kernel, by decide +kernel, by decide, ⟨_, rfl⟩, ⟨_, rfl⟩⟩

/-- V46. -/
theorem test_wit_TruncatedStreamDecodesSilently : (abcReady.withInput (mkBuf [0x02, 0xAF])).ibuf.bytes = [0x02, 0xAF] ∧
    ∀ y, codeOf (abcReady.withInput (mkBuf [0x02, 0xAF])).code y =
      if y = 0x41 then some [true, false] else if y = 0x42 then some [true, true]
      else if y = 0x43 then some [false] else none := ⟨by decide +kernel, abc_codes⟩

theorem test_wit_TreeWalkMatcherAgrees : (TreeOk abcReady ∧ TableOk abcReady ∧ 2 ≤ abcReady.nleaf.val) ∧
    TreeOk oneReady ∧ TableOk oneReady ∧ oneReady.nleaf.val = 1 :=
  ⟨⟨abc_treeOk_ready, abc_tableOk, by decide⟩, one_treeOk, one_tableOk, rfl⟩

theorem test_wit_RoundTripInReadyState : PrefixFree abcReady.code ∧ NonEmptyCodes abcReady.code ∧
    AllCoded abcReady.code (abcReady.withInput (mkBuf [0x43])).ibuf.bytes ∧
    ∃ t, exec .encode (abcReady.withInput (mkBuf [0x43])) = .next t ∧ (t.err == .none) = true :=
  ⟨abc_prefixFree, abc_nonEmpty,
    coded_abc (by decide +kernel),
    of_nextIs (by decide +kernel)⟩

theorem test_wit_RoundTripFromAnyInput : (State.reset.withInput (mkBuf [0x61, 0x62])).port = [] ∧
    (State.reset.withInput (mkBuf [0x61, 0x62])).ibuf.bytes ≠ [] ∧
    ∃ u, Host.Core.run Sys2Proof.core 4 ((State.reset.withInput (mkBuf [0x61, 0x62])).issue [.count, .build, .gen, .encode]) = .next u ∧
      (u.err != .bufferOverflow) = true := ⟨rfl, by decide +kernel, of_nextIs (by decide +kernel)⟩

/-- V102, V103: the last byte that fits, and the first that does not. -/
theorem test_wit_PutAppendsOrOverflows : (longBuf 65535 0 (by decide)).bytes.length < 65536 ∧
    (longBuf 65536 0 (by decide)).bytes.length = 65536 := by
  rw [show (longBuf 65535 0 (by decide)).bytes = List.replicate 65535 0 from rfl,
    show (longBuf 65536 0 (by decide)).bytes = List.replicate 65536 0 from rfl, List.length_replicate, List.length_replicate]
  decide

end Sys2Proof.Machine
end

section
/-! PROOFS, 00_scope.md. Every command answers a next state and leaves the host's inputs alone (R3, R94, log entry 1), so a step answers a next state and takes at most one input. -/

namespace Sys2Proof.Machine

/-! ### What a gated effect keeps, whichever way the gates go (R94, R228) -/

/-- A piece of the state that the effect keeps is kept when the command may also be dropped (R228). -/
theorem unlessFaulted_keeps {α : Type} (piece : State → α) {s : State} {act : State → State}
    (hact : piece (act s) = piece s) : piece (s.unlessFaulted act) = piece s := by
  by_cases h : s.err = .none
  · rw [unlessFaulted_of_ok h, hact]
  · rw [unlessFaulted_of_fault h]

/-- A piece of the state that the effect and an error entry keep is kept by the effect behind both gates (R94). -/
theorem gate_keeps {α : Type} (piece : State → α) {s : State} {legal : Bool} {op : Byte} {act : State → State}
    (hraise : piece (s.raise .illegalCommand (zext16 op) 2) = piece s) (hact : piece (act s) = piece s) :
    piece (s.unlessFaulted (fun s => s.inPhase legal op act)) = piece s := by
  rcases gate_cases s legal op act with ⟨-, h⟩ | ⟨-, -, h⟩ | ⟨-, -, h⟩
  · rw [h]
  · rw [h, hraise]
  · rw [h, hact]

/-! ### The inputs still to come are no command's to read or write (log entry 1) -/

@[simp] theorem illegal_port (s : State) (e : Illegal) : (s.illegal e).port = s.port := by
  cases e with
  | reservedOpcode op => exact unlessFaulted_keeps State.port rfl
  | unusedField op => exact unlessFaulted_keeps State.port rfl

@[simp] theorem buildTree_port (s : State) : s.buildTree.port = s.port := by
  rcases buildTree_cases s with ⟨-, h⟩ | ⟨-, h⟩ <;> rw [h] <;> rfl

@[simp] theorem genTable_port (s : State) : s.genTable.port = s.port := by
  rcases genTable_cases s with ⟨_, -, h⟩ | ⟨_, _, -, h⟩ <;> rw [h]

@[simp] theorem packInput_port (s : State) : s.packInput.port = s.port := by
  rcases packInput_cases s with ⟨_, _, -, h⟩ | ⟨_, -, -, h⟩ | ⟨_, _, -, -, h⟩ <;> rw [h]

@[simp] theorem unpackInput_port (s : State) : s.unpackInput.port = s.port := by
  rcases unpackInput_cases s with ⟨_, _, -, h⟩ | ⟨_, -, -, h⟩ | ⟨_, _, -, -, h⟩ <;> rw [h]

/-- R3: every command, in every state, answers a next state with the same inputs still to come. -/
theorem exec_answers_next (i : Instr) (s : State) : ∃ t, exec i s = .next t ∧ t.port = s.port := by
  cases i with
  | nop => exact ⟨_, rfl, rfl⟩
  | clear => exact ⟨_, rfl, toReset_port s⟩
  | setfreq sym count => exact ⟨_, rfl, unlessFaulted_keeps State.port rfl⟩
  | count => exact ⟨_, rfl, unlessFaulted_keeps State.port rfl⟩
  | build => exact ⟨_, rfl, unlessFaulted_keeps State.port (buildTree_port s)⟩
  | gen => exact ⟨_, rfl, gate_keeps State.port rfl (genTable_port s)⟩
  | put byte =>
    refine ⟨_, rfl, unlessFaulted_keeps State.port ?_⟩
    cases s.ibuf.push? byte with
    | none => rfl
    | some b => rfl
  | rstin => exact ⟨_, rfl, unlessFaulted_keeps State.port rfl⟩
  | encode => exact ⟨_, rfl, gate_keeps State.port rfl (packInput_port s)⟩
  | decode => exact ⟨_, rfl, gate_keeps State.port rfl (unpackInput_port s)⟩
  | xfer => exact ⟨_, rfl, unlessFaulted_keeps State.port rfl⟩

/-! ### The step -/

/-- A step that takes a command's word is the command's `exec` (R94). -/
theorem step_of_decode_ok {s : State} {w : CmdWord} {rest : List HostInput} {i : Instr}
    (hport : s.port = .command w :: rest) (hdec : decode w = .ok i) : step s = exec i (s.setPort rest) := by
  simp only [step, takeInput_cons hport, hdec]

/-- Settles O7, by the four kinds of step and `exec_answers_next` for a command. -/
theorem everyStepAnswersNext : Obligations.EveryStepAnswersNext := by
  intro s
  rcases step_cases s with ⟨hport, hstep⟩ | ⟨rest, hport, hstep⟩ | ⟨w, rest, i, hport, -, hstep⟩ |
    ⟨w, rest, e, hport, -, hstep⟩
  · exact ⟨s, hstep, by rw [hport]; rfl⟩
  · exact ⟨_, hstep, by rw [hport]; rfl⟩
  · obtain ⟨t, hexec, ht⟩ := exec_answers_next i (s.setPort rest)
    exact ⟨t, hstep.trans hexec, by rw [ht, hport]; rfl⟩
  · exact ⟨_, hstep, by rw [illegal_port, hport]; rfl⟩

/-- Settles O6, by the equation of a step on a command's word. -/
theorem stepRunsDecodedCommand : Obligations.StepRunsDecodedCommand :=
  fun _ _ _ _ hport hdec => step_of_decode_ok hport hdec

end Sys2Proof.Machine
end

section
/-! PROOFS, 10_state.md, the commands. What each command's `exec` answers with and without a held error (R94, R228), which pieces it writes (R28, R60), and the phase, the flags and the error it leaves (R23, R25, R26). -/

namespace Sys2Proof.Machine

/-! ### What `exec` answers, by the gates -/

/-- With a held error every command but CLEAR is dropped (R228). -/
theorem exec_of_fault {i : Instr} {s : State} (h : s.err ≠ .none) (hi : i ≠ .clear) : exec i s = .next s := by
  cases i
  case nop => rfl
  case clear => exact absurd rfl hi
  all_goals exact congrArg Host.Outcome.next (unlessFaulted_of_fault h _)

section
variable {s : State} (h : s.err = .none)

include h

/-- SETFREQ without a held error (R110). -/
theorem exec_setfreq (y : Byte) (c : Count) :
    exec (.setfreq y c) s = .next { s with freq := s.freq.setSym y c, phase := .collect } :=
  congrArg Host.Outcome.next (unlessFaulted_of_ok h _)

/-- COUNT without a held error (R111). -/
theorem exec_count : exec .count s = .next { s with freq := countBytes s.ibuf.bytes, phase := .collect } :=
  congrArg Host.Outcome.next (unlessFaulted_of_ok h _)

/-- BUILD without a held error (R120). -/
theorem exec_build : exec .build s = .next s.buildTree :=
  congrArg Host.Outcome.next (unlessFaulted_of_ok h _)

/-- RSTIN without a held error (R203). -/
theorem exec_rstin : exec .rstin s = .next { s with ibuf := .empty } :=
  congrArg Host.Outcome.next (unlessFaulted_of_ok h _)

/-- XFER without a held error (R204). -/
theorem exec_xfer : exec .xfer s = .next { s with ibuf := s.obuf } :=
  congrArg Host.Outcome.next (unlessFaulted_of_ok h _)

/-- PUT without a held error appends its byte, or raises on a full buffer (R202). -/
theorem exec_put_cases (y : Byte) :
    (∃ b, b.bytes = s.ibuf.bytes ++ [y] ∧ exec (.put y) s = .next { s with ibuf := b }) ∨
    (s.ibuf.bytes.length = Config.bufCap ∧
      exec (.put y) s = .next (s.raise .bufferOverflow 0 (BitVec.ofNat 32 (Config.bufCap + 1)))) := by
  have hexec := congrArg (Host.Outcome.next (φ := Fault) (ρ := Refusal)) (unlessFaulted_of_ok h fun s =>
    match s.ibuf.push? y with
    | none => s.raise .bufferOverflow 0 (BitVec.ofNat 32 (Config.bufCap + 1))
    | some b => { s with ibuf := b })
  cases hb : s.ibuf.push? y with
  | none => exact .inr ⟨push?_eq_none.1 hb, hexec.trans (by rw [hb])⟩
  | some b => exact .inl ⟨b, push?_eq_some.1 hb, hexec.trans (by rw [hb])⟩

/-- GEN without a held error in a phase with a tree (R140). -/
theorem exec_gen (hp : s.phase ≠ .collect) : exec .gen s = .next s.genTable :=
  congrArg Host.Outcome.next ((unlessFaulted_of_ok h _).trans (inPhase_of_legal (treeValid_iff.2 hp) _ _))

/-- GEN in COLLECT is illegal (R225). -/
theorem exec_gen_of_collect (hp : s.phase = .collect) : exec .gen s = .next (s.raise .illegalCommand 0x05 2) :=
  congrArg Host.Outcome.next ((unlessFaulted_of_ok h _).trans
    (inPhase_of_illegal (Bool.eq_false_iff.2 (mt treeValid_iff.1 (not_not.2 hp))) _ _))

/-- ENCODE without a held error in READY (R160). -/
theorem exec_encode (hp : s.phase = .ready) : exec .encode s = .next s.packInput :=
  congrArg Host.Outcome.next ((unlessFaulted_of_ok h _).trans (inPhase_of_legal (tableValid_iff.2 hp) _ _))

/-- ENCODE outside READY is illegal (R225). -/
theorem exec_encode_of_not_ready (hp : s.phase ≠ .ready) :
    exec .encode s = .next (s.raise .illegalCommand 0x08 2) :=
  congrArg Host.Outcome.next ((unlessFaulted_of_ok h _).trans
    (inPhase_of_illegal (Bool.eq_false_iff.2 (mt tableValid_iff.1 hp)) _ _))

/-- DECODE without a held error in READY (R180). -/
theorem exec_decode (hp : s.phase = .ready) : exec .decode s = .next s.unpackInput :=
  congrArg Host.Outcome.next ((unlessFaulted_of_ok h _).trans (inPhase_of_legal (tableValid_iff.2 hp) _ _))

/-- DECODE outside READY is illegal (R225). -/
theorem exec_decode_of_not_ready (hp : s.phase ≠ .ready) :
    exec .decode s = .next (s.raise .illegalCommand 0x09 2) :=
  congrArg Host.Outcome.next ((unlessFaulted_of_ok h _).trans
    (inPhase_of_illegal (Bool.eq_false_iff.2 (mt tableValid_iff.1 hp)) _ _))

end

/-! ### Frames -/

/-- A frame, piece by piece. -/
theorem frame_iff {changed : List Piece} {s t : State} : Frame changed s t ↔
    (.phase ∉ changed → t.phase = s.phase) ∧ (.err ∉ changed → t.err = s.err) ∧
    (.errinfo ∉ changed → t.errinfo = s.errinfo) ∧ (.errpos ∉ changed → t.errpos = s.errpos) ∧
    (.nleaf ∉ changed → t.nleaf = s.nleaf) ∧ (.nnodes ∉ changed → t.nnodes = s.nnodes) ∧
    (.root ∉ changed → t.root = s.root) ∧ (.freq ∉ changed → t.freq = s.freq) ∧
    (.node ∉ changed → t.node = s.node) ∧ (.code ∉ changed → t.code = s.code) ∧
    (.ibuf ∉ changed → t.ibuf = s.ibuf) ∧ (.obuf ∉ changed → t.obuf = s.obuf) ∧
    (.port ∉ changed → t.port = s.port) := by
  constructor
  · exact fun h => ⟨h _, h _, h _, h _, h _, h _, h _, h _, h _, h _, h _, h _, h _⟩
  · rintro ⟨h0, h1, h2, h3, h4, h5, h6, h7, h8, h9, h10, h11, h12⟩ p
    cases p <;> assumption

@[simp] theorem frame_refl (changed : List Piece) (s : State) : Frame changed s s :=
  frame_iff.2 (by simp)

/-- CLEAR keeps the inputs still to come alone (log entry 4). -/
theorem toReset_frame (s : State) : Frame (writesOf .clear) s s.toReset := frame_iff.2 (by simp [writesOf])

theorem buildTree_frame (s : State) : Frame (writesOf .build) s s.buildTree := by
  rcases buildTree_cases s with ⟨-, h⟩ | ⟨-, h⟩ <;> rw [h] <;> exact frame_iff.2 (by simp [writesOf])

theorem genTable_frame (s : State) : Frame (writesOf .gen) s s.genTable := by
  rcases genTable_cases s with ⟨_, -, h⟩ | ⟨_, _, -, h⟩ <;> rw [h] <;> exact frame_iff.2 (by simp [writesOf])

theorem packInput_frame (s : State) : Frame (writesOf .encode) s s.packInput := by
  rcases packInput_cases s with ⟨_, _, -, h⟩ | ⟨_, -, -, h⟩ | ⟨_, _, -, -, h⟩ <;> rw [h] <;>
    exact frame_iff.2 (by simp [writesOf])

theorem unpackInput_frame (s : State) : Frame (writesOf .decode) s s.unpackInput := by
  rcases unpackInput_cases s with ⟨_, _, -, h⟩ | ⟨_, -, -, h⟩ | ⟨_, _, -, -, h⟩ <;> rw [h] <;>
    exact frame_iff.2 (by simp [writesOf])

/-- R28, R60: a command that is not dropped writes its own pieces alone. -/
theorem exec_frame_of_ok {i : Instr} {s t : State} (hok : s.err = .none) (hexec : exec i s = .next t) :
    Frame (writesOf i) s t := by
  cases i with
  | nop => cases hexec; exact frame_refl _ s
  | clear => cases hexec; exact toReset_frame s
  | setfreq y c => rw [exec_setfreq hok] at hexec; cases hexec; exact frame_iff.2 (by simp [writesOf])
  | count => rw [exec_count hok] at hexec; cases hexec; exact frame_iff.2 (by simp [writesOf])
  | build => rw [exec_build hok] at hexec; cases hexec; exact buildTree_frame s
  | gen =>
    by_cases hp : s.phase = .collect
    · rw [exec_gen_of_collect hok hp] at hexec; cases hexec
      exact frame_iff.2 (by simp [writesOf])
    · rw [exec_gen hok hp] at hexec; cases hexec; exact genTable_frame s
  | put y =>
    rcases exec_put_cases hok y with ⟨b, -, h⟩ | ⟨-, h⟩ <;> rw [h] at hexec <;> cases hexec <;>
      exact frame_iff.2 (by simp [writesOf])
  | rstin => rw [exec_rstin hok] at hexec; cases hexec; exact frame_iff.2 (by simp [writesOf])
  | encode =>
    by_cases hp : s.phase = .ready
    · rw [exec_encode hok hp] at hexec; cases hexec; exact packInput_frame s
    · rw [exec_encode_of_not_ready hok hp] at hexec; cases hexec
      exact frame_iff.2 (by simp [writesOf])
  | decode =>
    by_cases hp : s.phase = .ready
    · rw [exec_decode hok hp] at hexec; cases hexec; exact unpackInput_frame s
    · rw [exec_decode_of_not_ready hok hp] at hexec; cases hexec
      exact frame_iff.2 (by simp [writesOf])
  | xfer => rw [exec_xfer hok] at hexec; cases hexec; exact frame_iff.2 (by simp [writesOf])

/-- Settles O16: a dropped command writes nothing, any other its own pieces. -/
theorem commandsWriteOnlyTheirPieces : Obligations.CommandsWriteOnlyTheirPieces := by
  intro i s t hexec
  by_cases hok : s.err = .none
  · exact exec_frame_of_ok hok hexec
  · by_cases hi : i = .clear
    · subst hi; cases hexec; exact toReset_frame s
    · rw [exec_of_fault hok hi] at hexec; cases hexec; exact frame_refl _ s

/-! ### The phase and the flags after a command (R23, R25) -/

/-- Settles O14, command by command through the cases of its effect. -/
theorem phaseTransitions : Obligations.PhaseTransitions := by
  intro i s t hexec
  refine ⟨fun hf hi => ?_, fun hok => ?_⟩
  · rw [exec_of_fault hf hi] at hexec
    cases hexec; rfl
  cases i with
  | nop => cases hexec; exact ⟨rfl, by simp [hok]⟩
  | clear => cases hexec; exact ⟨rfl, rfl⟩
  | setfreq y c => rw [exec_setfreq hok] at hexec; cases hexec; exact ⟨rfl, hok⟩
  | count => rw [exec_count hok] at hexec; cases hexec; exact ⟨rfl, hok⟩
  | build =>
    rw [exec_build hok] at hexec
    rcases buildTree_cases s with ⟨-, h⟩ | ⟨-, h⟩ <;> rw [h] at hexec <;> cases hexec
    · exact .inr ⟨rfl, rfl⟩
    · exact .inl ⟨hok, rfl⟩
  | gen =>
    by_cases hp : s.phase = .collect
    · rw [exec_gen_of_collect hok hp] at hexec; cases hexec
      simp only [if_pos hp]; rfl
    · rw [exec_gen hok hp] at hexec
      simp only [if_neg hp]
      rcases genTable_cases s with ⟨_, -, h⟩ | ⟨_, _, -, h⟩ <;> rw [h] at hexec <;> cases hexec
      · exact .inl ⟨hok, rfl⟩
      · exact .inr ⟨rfl, rfl⟩
  | put y =>
    rcases exec_put_cases hok y with ⟨b, -, h⟩ | ⟨-, h⟩ <;> rw [h] at hexec <;> cases hexec
    · exact ⟨rfl, by simp [hok]⟩
    · exact ⟨rfl, by simp⟩
  | rstin => rw [exec_rstin hok] at hexec; cases hexec; exact ⟨rfl, by simp [hok]⟩
  | encode =>
    by_cases hp : s.phase = .ready
    · rw [exec_encode hok hp] at hexec
      simp only [if_pos hp]
      rcases packInput_cases s with ⟨_, _, -, h⟩ | ⟨_, -, -, h⟩ | ⟨_, _, -, -, h⟩ <;> rw [h] at hexec <;>
        cases hexec
      · exact ⟨hp, .inr (.inl rfl)⟩
      · exact ⟨hp, .inr (.inr rfl)⟩
      · exact ⟨hp, .inl hok⟩
    · rw [exec_encode_of_not_ready hok hp] at hexec; cases hexec
      simp only [if_neg hp]; rfl
  | decode =>
    by_cases hp : s.phase = .ready
    · rw [exec_decode hok hp] at hexec
      simp only [if_pos hp]
      rcases unpackInput_cases s with ⟨_, _, -, h⟩ | ⟨_, -, -, h⟩ | ⟨_, _, -, -, h⟩ <;> rw [h] at hexec <;>
        cases hexec
      · exact ⟨hp, .inr (.inl rfl)⟩
      · exact ⟨hp, .inr (.inr rfl)⟩
      · exact ⟨hp, .inl hok⟩
    · rw [exec_decode_of_not_ready hok hp] at hexec; cases hexec
      simp only [if_neg hp]; rfl
  | xfer => rw [exec_xfer hok] at hexec; cases hexec; exact ⟨rfl, by simp [hok]⟩

/-- The flags are functions of PHASE (R25). -/
theorem flags_of_phase {s : State} {p : Phase} (h : s.phase = p) :
    s.treeValid = decide (p ≠ .collect) ∧ s.tableValid = decide (p = .ready) := by
  subst h
  exact ⟨Bool.eq_iff_iff.2 (by simp [treeValid_iff]), Bool.eq_iff_iff.2 (by simp [tableValid_iff])⟩

/-- Settles O15, from the phase O14 gives after each command. -/
theorem flagsAfterCommands : Obligations.FlagsAfterCommands := by
  intro i s t hok hexec hdone
  refine ⟨faulted_false_iff.2 hdone, faulted_false_iff.2 hdone, ?_⟩
  have hphase := (phaseTransitions i s t hexec).2 hok
  have hsame : t.phase = s.phase → t.treeValid = s.treeValid ∧ t.tableValid = s.tableValid := fun h =>
    ⟨(flags_of_phase h).1.trans (flags_of_phase rfl).1.symm, (flags_of_phase h).2.trans (flags_of_phase rfl).2.symm⟩
  cases i with
  | nop | put _ | rstin | xfer => exact hsame hphase.1
  | clear | setfreq _ _ | count => exact flags_of_phase hphase.1
  | build =>
    rcases hphase with ⟨-, hp⟩ | ⟨he, -⟩
    · exact flags_of_phase hp
    · simp [hdone] at he
  | gen =>
    by_cases hp : s.phase = .collect
    · simp only [if_pos hp] at hphase
      simp [hphase] at hdone
    · simp only [if_neg hp] at hphase
      rcases hphase with ⟨-, hp⟩ | ⟨he, -⟩
      · exact flags_of_phase hp
      · simp [hdone] at he
  | encode | decode =>
    by_cases hp : s.phase = .ready
    · simp only [if_pos hp] at hphase
      exact flags_of_phase hphase.1
    · simp only [if_neg hp] at hphase
      simp [hphase] at hdone

/-! ### The step and a held error (R26, R228) -/

/-- The word of a decoded command is that command's word (R90 to R94). -/
theorem eq_encode_of_decode {w : CmdWord} {i : Instr} (h : decode w = .ok i) : w = encode i := by
  rw [decode] at h
  rcases decodeFields_cases (fieldsOf w) with ⟨-, he⟩ | ⟨-, -, he⟩ | ⟨j, hj, hok⟩
  · simp [he] at h
  · simp [he] at h
  · obtain rfl : j = i := by simpa [hok] using h
    rw [← word_fieldsOf w, hj, encode]

/-- Without a held error an illegal word enters IllegalCommand (R225). -/
theorem illegal_of_ok {s : State} (h : s.err = .none) (e : Illegal) :
    ∃ info pos, s.illegal e = s.raise .illegalCommand info pos := by
  cases e with
  | reservedOpcode op => exact ⟨_, _, unlessFaulted_of_ok h fun s => s.raise .illegalCommand (zext16 op) 0⟩
  | unusedField op => exact ⟨_, _, unlessFaulted_of_ok h fun s => s.raise .illegalCommand (zext16 op) 1⟩

/-- With a held error an illegal word is dropped (R228). -/
theorem illegal_of_fault {s : State} (h : s.err ≠ .none) (e : Illegal) : s.illegal e = s := by
  cases e with
  | reservedOpcode op => exact unlessFaulted_of_fault h fun s => s.raise .illegalCommand (zext16 op) 0
  | unusedField op => exact unlessFaulted_of_fault h fun s => s.raise .illegalCommand (zext16 op) 1

/-- Settles O13, by the four kinds of step: only a hardware reset and CLEAR, whose word is exact, are not dropped. -/
theorem onlyClearOrResetEndsFault : Obligations.OnlyClearOrResetEndsFault := by
  intro s t hf hstep
  rcases step_cases s with ⟨-, h⟩ | ⟨rest, hport, h⟩ | ⟨w, rest, i, hport, hdec, h⟩ | ⟨w, rest, e, -, -, h⟩ <;>
    rw [h] at hstep
  · cases hstep
    exact .inl ⟨rfl, rfl, rfl⟩
  · cases hstep
    exact .inr ⟨.inl (by simp [hport]), by simp [hport]⟩
  · by_cases hi : i = .clear
    · subst hi
      cases hstep
      refine .inr ⟨.inr ?_, by rw [hport]; rfl⟩
      rw [hport, eq_encode_of_decode hdec]
      rfl
    · rw [exec_of_fault (s := s.setPort rest) hf hi] at hstep
      cases hstep
      exact .inl ⟨rfl, rfl, rfl⟩
  · rw [illegal_of_fault (s := s.setPort rest) hf] at hstep
    cases hstep
    exact .inl ⟨rfl, rfl, rfl⟩

end Sys2Proof.Machine
end

section
/-! PROOFS, 10_state.md, what the host reads. The reset state meets every form and reads as R36 says, and the read port determines the core's state (R20, R66). -/

namespace Sys2Proof.Machine

/-! ### The reset state (R36) -/

/-- Every entry of a filled table is the value it was filled with. -/
theorem Table.eq_of_mem_fill {α : Type} {n : Nat} {v w : α} (h : w ∈ (Table.fill v : Table α n).cells) : w = v :=
  List.eq_of_mem_replicate h

theorem free_wellFormed : Node.free.wellFormed := rfl

theorem invalid_wellFormed : CodeEntry.invalid.wellFormed := by
  simp [CodeEntry.wellFormed, CodeEntry.invalid]

theorem reset_storesOk : StoresOk State.reset where
  noDetail _ := ⟨rfl, rfl⟩
  nodes n hn := by rw [Table.eq_of_mem_fill hn]; exact free_wellFormed
  codes e he := by rw [Table.eq_of_mem_fill he]; exact invalid_wellFormed
  counts := .inl ⟨rfl, rfl, rfl⟩
  treePresent h := absurd rfl h
  noTable h := nomatch h

/-- Settles O38: the phase of the reset state is COLLECT, and every table of it is filled with one value. -/
theorem resetMeetsInvariants : Obligations.ResetMeetsInvariants :=
  ⟨reset_storesOk, fun h => absurd rfl h, fun h => (nomatch h : False).elim, rfl, rfl⟩

/-- The scalar registers of the reset state read 0, but ROOT, which reads NIL (R36). -/
theorem reset_readCsr (inputs : List HostInput) {n : Nat} (hn : n < 9) :
    (State.reset.setPort inputs).readCsr n = some (if n = 8 then 0x1FF else 0) := by
  interval_cases n <;> simp [State.readCsr, Phase.bits, ErrCode.bits, State.ilen, State.olen, Buffer.empty]

/-- Every node entry of the reset state is 68 zero bits (R36). -/
theorem reset_node_packed (i : Fin Config.nnode) : (State.reset.node.get i).packed = 0 :=
  congrArg Node.packed (Table.get_fill Node.free i)

/-- Every code entry of the reset state is 264 zero bits (R36). -/
theorem reset_code_packed (y : Byte) : (State.reset.code.sym y).packed = 0 :=
  (congrArg CodeEntry.packed (Table.sym_fill CodeEntry.invalid y)).trans
    (by simp [CodeEntry.packed, CodeEntry.invalid])

/-- A hardware reset and the CLEAR word lead to the reset state (R201, R260). -/
theorem step_of_reset_or_clear {s : State} {i : HostInput} {rest : List HostInput} (hport : s.port = i :: rest)
    (hi : i = .reset ∨ i = .command 0x010000000000) : step s = .next (State.reset.setPort rest) := by
  rcases hi with rfl | rfl
  · simp only [step, takeInput_cons hport]; rfl
  · exact step_of_decode_ok hport (i := .clear) rfl

/-- Settles O9: the reset state is read as R36 says, whatever inputs are still to come, and each of the two inputs leads to it. -/
theorem resetValuesAsRead : Obligations.ResetValuesAsRead :=
  ⟨⟨rfl, rfl, rfl, rfl, fun _ => reset_readCsr [], Table.sym_fill 0, reset_node_packed, reset_code_packed⟩,
    fun _ _ rest hport hi => ⟨_, step_of_reset_or_clear hport hi,
      rfl, rfl, rfl, rfl, fun _ => reset_readCsr rest, Table.sym_fill 0, reset_node_packed, reset_code_packed⟩⟩

/-! ### The read port determines the state (R66) -/

/-- Lists that answer alike at every 17-bit index, through an injective view of their entries, are equal when no longer than the index reaches. -/
theorem eq_of_reads_eq {α : Type} {view : α → BitVec 264} (hview : Function.Injective view) {l m : List α}
    (hl : l.length ≤ 2 ^ 17) (hm : m.length ≤ 2 ^ 17)
    (h : ∀ i : BitVec 17, l[i.toNat]?.map view = m[i.toNat]?.map view) : l = m := by
  apply List.ext_getElem?
  intro i
  by_cases hi : i < 2 ^ 17
  · have hread := h (BitVec.ofNat 17 i)
    rw [BitVec.toNat_ofNat, Nat.mod_eq_of_lt hi] at hread
    exact Option.map_injective hview hread
  · rw [List.getElem?_eq_none (by omega), List.getElem?_eq_none (by omega)]

/-- Zero extension loses nothing (R6). -/
theorem setWidth_injective {v w : Nat} (h : v ≤ w) : Function.Injective (BitVec.setWidth w : BitVec v → BitVec w) :=
  Function.LeftInverse.injective (g := BitVec.setWidth v) fun x => by
    rw [BitVec.setWidth_setWidth_of_le _ h, BitVec.setWidth_eq]

/-- The parts of a concatenation are determined by it (R6). -/
theorem append_inj {v w : Nat} {a b : BitVec v} {c d : BitVec w} (h : a ++ c = b ++ d) : a = b ∧ c = d :=
  ⟨by simpa only [BitVec.extractLsb'_append_eq_left] using congrArg (BitVec.extractLsb' w v) h,
    by simpa only [BitVec.extractLsb'_append_eq_right] using congrArg (BitVec.extractLsb' 0 w) h⟩

theorem Phase.bits_injective : Function.Injective Phase.bits := by
  intro p q h; cases p <;> cases q <;> simp [Phase.bits] at h ⊢

theorem ErrCode.bits_injective : Function.Injective ErrCode.bits := by
  intro p q h; cases p <;> cases q <;> simp [ErrCode.bits] at h ⊢

theorem NodeKind.bits_injective : Function.Injective NodeKind.bits := by
  intro p q h; cases p <;> cases q <;> simp [NodeKind.bits] at h ⊢

/-- The 68 bits of a node entry determine it (R30). -/
theorem Node.packed_injective : Function.Injective Node.packed := by
  intro m n h
  obtain ⟨h, hright⟩ := append_inj h
  obtain ⟨h, hleft⟩ := append_inj h
  obtain ⟨h, hfreq⟩ := append_inj h
  obtain ⟨hkind, hsym⟩ := append_inj h
  cases m; cases n
  simp_all [NodeKind.bits_injective.eq_iff]

/-- The 264 bits of a code entry determine it (R32). -/
theorem CodeEntry.packed_injective : Function.Injective CodeEntry.packed := by
  intro e f h
  obtain ⟨h, hbits⟩ := append_inj h
  obtain ⟨hvalid, hlen⟩ := append_inj h
  cases e; cases f
  simp_all [BitVec.ofBool_eq_iff_eq]

/-- NLEAF is determined by its read (R31, R66). -/
theorem nleaf_read_injective : Function.Injective fun n : Fin 257 => BitVec.ofNat 264 n.val := by
  intro m n h
  have hmod := congrArg BitVec.toNat h
  rw [BitVec.toNat_ofNat, BitVec.toNat_ofNat] at hmod
  have hm := m.isLt
  have hn := n.isLt
  apply Fin.ext
  omega

/-- A buffer is determined by its reads (R34, R66). -/
theorem Buffer.eq_of_reads_eq {a b : Buffer}
    (h : ∀ i : BitVec 17, a.bytes[i.toNat]?.map (fun y => y.setWidth 264) = b.bytes[i.toNat]?.map (fun y => y.setWidth 264)) :
    a = b := by
  have hcap : Config.bufCap ≤ 2 ^ 17 := by decide
  exact Buffer.ext_bytes (Machine.eq_of_reads_eq (setWidth_injective (by decide)) (a.fits.trans hcap) (b.fits.trans hcap) h)

/-- A table no longer than the index reaches is determined by its reads (R66). -/
theorem Table.eq_of_reads_eq {α : Type} {n : Nat} (hn : n ≤ 2 ^ 17) {view : α → BitVec 264}
    (hview : Function.Injective view) {t u : Table α n}
    (h : ∀ i : BitVec 17, t.cells[i.toNat]?.map view = u.cells[i.toNat]?.map view) : t = u := by
  have hcells := Machine.eq_of_reads_eq hview (t.size.trans_le hn) (u.size.trans_le hn) h
  cases t; cases u
  simpa using hcells

/-- Settles O17: each space is read through an injective view, the scalar registers at fixed numbers, the stores and buffers at every index they have. -/
theorem readPortDeterminesState : Obligations.ReadPortDeterminesState := by
  intro s t h
  have hcsr (n : BitVec 17) : s.readCsr n.toNat = t.readCsr n.toNat := h 0 n
  have reg {v : Nat} (hv : v ≤ 264) {x y : BitVec v} (hxy : some (x.setWidth 264) = some (y.setWidth 264)) : y = x :=
    (setWidth_injective hv (Option.some.inj hxy)).symm
  refine frame_iff.2 ⟨fun _ => ?_, fun _ => ?_, fun _ => ?_, fun _ => ?_, fun _ => ?_, fun _ => ?_, fun _ => ?_,
    fun _ => ?_, fun _ => ?_, fun _ => ?_, fun _ => ?_, fun _ => ?_, fun hp => absurd (by simp) hp⟩
  · exact Phase.bits_injective (reg (by decide) (hcsr 0))
  · exact ErrCode.bits_injective (reg (by decide) (hcsr 1))
  · exact reg (by decide) (hcsr 2)
  · exact reg (by decide) (hcsr 3)
  · exact (nleaf_read_injective (Option.some.inj (hcsr 6))).symm
  · exact reg (by decide) (hcsr 7)
  · exact reg (by decide) (hcsr 8)
  · exact (Table.eq_of_reads_eq (by decide) (setWidth_injective (by decide)) (h 1)).symm
  · exact (Table.eq_of_reads_eq (by decide) ((setWidth_injective (by decide)).comp Node.packed_injective) (h 2)).symm
  · exact (Table.eq_of_reads_eq (by decide) CodeEntry.packed_injective (h 3)).symm
  · exact (Buffer.eq_of_reads_eq (h 4)).symm
  · exact (Buffer.eq_of_reads_eq (h 5)).symm

end Sys2Proof.Machine
end

section
/-! PROOFS, 10_state.md, the tree. BUILD's forest of nodes through its merges, and from it the tree invariants of R130 in the phase BUILD leaves (R24, R120 to R127). -/

namespace Sys2Proof.Machine

/-! ### Step 1 of BUILD: the leaves (R120) -/

/-- The leaves step 1 of BUILD makes of a list of counts whose first one is symbol `k`'s. -/
def leavesFrom (counts : List Count) (k : Nat) : List Node :=
  (counts.zipIdx k).filterMap (fun (c, s) => if c = 0 then none else some (Node.leafOf (BitVec.ofNat 8 s) (zext40 c)))

theorem leafList_eq (freq : Table Count Config.nsym) : leafList freq = leavesFrom freq.cells 0 := rfl

theorem leavesFrom_zero_cons (cs : List Count) (k : Nat) : leavesFrom (0 :: cs) k = leavesFrom cs (k + 1) := rfl

theorem leavesFrom_cons {c : Count} (h : c ≠ 0) (cs : List Count) (k : Nat) :
    leavesFrom (c :: cs) k = Node.leafOf (BitVec.ofNat 8 k) (zext40 c) :: leavesFrom cs (k + 1) :=
  List.filterMap_cons_some (a := (c, k)) (if_neg h)

/-- A leaf's symbol is the position of a count that is not 0, and its frequency that count. -/
theorem mem_leavesFrom {n : Node} {counts : List Count} {k : Nat} :
    n ∈ leavesFrom counts k ↔
      ∃ j c, counts[j]? = some c ∧ c ≠ 0 ∧ n = Node.leafOf (BitVec.ofNat 8 (k + j)) (zext40 c) := by
  induction counts generalizing k with
  | nil => simp [leavesFrom]
  | cons c cs ih =>
    have hsplit : (∃ j d, (c :: cs)[j]? = some d ∧ d ≠ 0 ∧ n = Node.leafOf (BitVec.ofNat 8 (k + j)) (zext40 d)) ↔
        (c ≠ 0 ∧ n = Node.leafOf (BitVec.ofNat 8 k) (zext40 c)) ∨
          ∃ j d, cs[j]? = some d ∧ d ≠ 0 ∧ n = Node.leafOf (BitVec.ofNat 8 (k + 1 + j)) (zext40 d) := by
      rw [← Nat.or_exists_add_one]
      simp [Nat.add_assoc, Nat.add_comm 1]
    rw [hsplit, ← ih]
    by_cases h : c = 0
    · subst h
      rw [leavesFrom_zero_cons]
      simp
    · rw [leavesFrom_cons h, List.mem_cons, and_iff_right h]

theorem length_leavesFrom (counts : List Count) (k : Nat) :
    (leavesFrom counts k).length = counts.countP (fun c => c != 0) := by
  induction counts generalizing k with
  | nil => rfl
  | cons c cs ih =>
    by_cases h : c = 0
    · subst h
      rw [leavesFrom_zero_cons, ih, List.countP_cons_of_neg (by simp)]
    · rw [leavesFrom_cons h, List.length_cons, ih, List.countP_cons_of_pos (by simpa using h)]

/-- The leaves' frequencies sum to the counts: a count of 0 adds nothing (R126). -/
theorem sum_leavesFrom (counts : List Count) (k : Nat) :
    ((leavesFrom counts k).map fun n => n.freq.toNat).sum = (counts.map BitVec.toNat).sum := by
  induction counts generalizing k with
  | nil => rfl
  | cons c cs ih =>
    rw [List.map_cons, List.sum_cons]
    by_cases h : c = 0
    · subst h
      rw [leavesFrom_zero_cons, ih]; exact (Nat.zero_add _).symm
    · have hc := c.isLt
      have hfreq : (zext40 c).toNat = c.toNat := by
        rw [zext40, BitVec.toNat_setWidth]; omega
      rw [leavesFrom_cons h, List.map_cons, List.sum_cons, ih, Node.leafOf, hfreq]

/-- The leaves ascend by symbol (R120). -/
theorem pairwise_leavesFrom {counts : List Count} {k : Nat} (hk : k + counts.length ≤ 256) :
    (leavesFrom counts k).Pairwise fun m n => m.sym.toNat < n.sym.toNat := by
  induction counts generalizing k with
  | nil => exact .nil
  | cons c cs ih =>
    rw [List.length_cons] at hk
    have hrest := ih (k := k + 1) (by omega)
    by_cases h : c = 0
    · subst h; rwa [leavesFrom_zero_cons]
    · rw [leavesFrom_cons h, List.pairwise_cons]
      refine ⟨fun n hn => ?_, hrest⟩
      obtain ⟨j, d, hj, -, rfl⟩ := mem_leavesFrom.1 hn
      have hlt := (List.getElem?_eq_some_iff.1 hj).1
      simp only [Node.leafOf, BitVec.toNat_ofNat]
      omega

/-- The leaves of FREQ are the symbols with a count, with that count (R120). -/
theorem mem_leafList {freq : Table Count Config.nsym} {n : Node} :
    n ∈ leafList freq ↔ ∃ y, freq.sym y ≠ 0 ∧ n = Node.leafOf y (zext40 (freq.sym y)) := by
  rw [leafList_eq, mem_leavesFrom]
  constructor
  · rintro ⟨j, c, hj, hc, rfl⟩
    obtain ⟨hlt, rfl⟩ := List.getElem?_eq_some_iff.1 hj
    have hj256 : j < 256 := hlt.trans_eq freq.size
    have hsym : freq.sym (BitVec.ofNat 8 j) = freq.cells[j] := by
      simp only [Table.sym, Table.get, symIdx, BitVec.toNat_ofNat, Nat.mod_eq_of_lt (show j < 2 ^ 8 from hj256)]
    exact ⟨BitVec.ofNat 8 j, by rwa [hsym], by rw [hsym, Nat.zero_add]⟩
  · rintro ⟨y, hy, rfl⟩
    exact ⟨y.toNat, freq.sym y, List.getElem?_eq_getElem _, hy, by simp⟩

theorem length_leafList (freq : Table Count Config.nsym) : (leafList freq).length = distinctSymbols freq :=
  length_leavesFrom _ _

theorem length_leafList_le (freq : Table Count Config.nsym) : (leafList freq).length ≤ 256 := by
  rw [length_leafList]
  exact List.countP_le_length.trans_eq freq.size

theorem sum_leafList (freq : Table Count Config.nsym) :
    ((leafList freq).map fun n => n.freq.toNat).sum = totalCount freq :=
  sum_leavesFrom _ _

/-- The sum of all counts fits a node's frequency (R126). -/
theorem totalCount_lt (freq : Table Count Config.nsym) : totalCount freq < 2 ^ 40 := by
  have hle := List.sum_le_card_nsmul (freq.cells.map BitVec.toNat) (2 ^ 32 - 1) (by
    rintro _ hx
    obtain ⟨c, -, rfl⟩ := List.mem_map.1 hx
    have := c.isLt
    omega)
  rw [List.length_map, freq.size, smul_eq_mul] at hle
  change (freq.cells.map BitVec.toNat).sum ≤ 256 * _ at hle
  rw [totalCount]
  omega

/-! ### Extraction (R122) -/

theorem minMember_mem (key : Nat → BitVec 49) (m : Nat) (rest : List Nat) : minMember key m rest ∈ m :: rest := by
  induction rest generalizing m with
  | nil => exact List.mem_singleton_self m
  | cons i rest ih =>
    rw [minMember]
    split
    · exact List.mem_cons_of_mem m (ih i)
    · rcases List.mem_cons.1 (ih m) with h | h
      · rw [h]; exact List.mem_cons_self
      · exact List.mem_cons_of_mem m (List.mem_cons_of_mem i h)

/-- Extraction finds the queue empty, or splits one member off it (R122). -/
theorem extractMin_cases (key : Nat → BitVec 49) (pq : List Nat) :
    (pq = [] ∧ extractMin key pq = none) ∨
    (∃ m rest, extractMin key pq = some (m, rest) ∧ pq.Perm (m :: rest)) := by
  cases pq with
  | nil => exact .inl ⟨rfl, rfl⟩
  | cons i rest => exact .inr ⟨_, _, rfl, List.perm_cons_erase (minMember_mem key i rest)⟩

/-! ### The forest while BUILD merges -/

/-- The children of all internal nodes of a list. -/
def childrenOf (nodes : List Node) : List NodeIdx :=
  nodes.flatMap (fun n => if n.kind = .internal then [n.left, n.right] else [])

theorem childList_eq (s : State) : s.childList = childrenOf s.node.cells := rfl

theorem childrenOf_append (l m : List Node) : childrenOf (l ++ m) = childrenOf l ++ childrenOf m :=
  List.flatMap_append

theorem childrenOf_of_not_internal {l : List Node} (h : ∀ n ∈ l, n.kind ≠ .internal) : childrenOf l = [] :=
  List.flatMap_eq_nil_iff.2 fun n hn => if_neg (h n hn)

/-- Node `i` of the list is internal, over earlier nodes whose frequencies its own sums without wrap (R130 (b), (e)). -/
def InternalOver (nodes : List Node) (i : Nat) : Prop :=
  (nodes.getD i Node.free).kind = .internal ∧ (nodes.getD i Node.free).sym = 0 ∧
    (nodes.getD i Node.free).left.toNat < i ∧ (nodes.getD i Node.free).right.toNat < i ∧
    (nodes.getD i Node.free).freq.toNat =
      (freqAt nodes (nodes.getD i Node.free).left.toNat).toNat +
        (freqAt nodes (nodes.getD i Node.free).right.toNat).toNat

/-- What holds of the nodes made so far and the queue before and after every merge. -/
structure Forest (leaves nodes : List Node) (pq : List Nat) : Prop where
  /-- The leaves come first, -/
  leavesFirst : leaves <+: nodes
  /-- then internal nodes. -/
  internals : ∀ i < nodes.length, leaves.length ≤ i → InternalOver nodes i
  /-- Each node is either owned once or in the queue once. -/
  owned : ((childrenOf nodes).map BitVec.toNat ++ pq).Perm (List.range nodes.length)
  /-- A merge makes a node and shortens the queue by one. -/
  size : nodes.length + pq.length = 2 * leaves.length
  /-- The queue's frequencies sum to the leaves'. -/
  total : (pq.map fun i => (freqAt nodes i).toNat).sum = (leaves.map fun n => n.freq.toNat).sum

theorem freqAt_append {nodes : List Node} {i : Nat} (h : i < nodes.length) (more : List Node) :
    freqAt (nodes ++ more) i = freqAt nodes i := by
  rw [freqAt, List.getD_append _ _ _ _ h, freqAt]

/-- A node stays internal over the same nodes when more are made. -/
theorem InternalOver.append {nodes : List Node} {i : Nat} (h : InternalOver nodes i) (hi : i < nodes.length)
    (more : List Node) : InternalOver (nodes ++ more) i := by
  obtain ⟨hkind, hsym, hleft, hright, hfreq⟩ := h
  rw [InternalOver, List.getD_append _ _ _ _ hi]
  refine ⟨hkind, hsym, hleft, hright, ?_⟩
  rw [hfreq, freqAt_append (by omega), freqAt_append (by omega)]

namespace Forest

variable {leaves nodes : List Node} {pq : List Nat}

/-- Every member of the queue is a node. -/
theorem lt_of_mem (h : Forest leaves nodes pq) {i : Nat} (hi : i ∈ pq) : i < nodes.length :=
  List.mem_range.1 (h.owned.subset (List.mem_append_right _ hi))

/-- Step 1 of BUILD leaves a forest of single leaves (R120). -/
theorem start (hleaf : ∀ n ∈ leaves, n.kind = .leaf) : Forest leaves leaves (List.range leaves.length) where
  leavesFirst := List.prefix_refl _
  internals i hi hle := absurd hle (by omega)
  owned := by
    rw [childrenOf_of_not_internal fun n hn => by simp [hleaf n hn]]
    exact List.Perm.refl _
  size := by rw [List.length_range]; omega
  total := by
    congr 1
    apply List.ext_getElem (by simp)
    intro i h1 h2
    have hi : i < leaves.length := by simpa using h2
    simp [freqAt, hi]

/-- A merge keeps the forest (R120 step 2, R124). -/
theorem merge (h : Forest leaves nodes pq) (hcount : leaves.length ≤ 256)
    (htotal : (leaves.map fun n => n.freq.toNat).sum < 2 ^ 40) {a b : Nat} {rest : List Nat}
    (hpq : pq.Perm (a :: b :: rest)) :
    Forest leaves (nodes ++ [mergedNode nodes a b]) (rest ++ [nodes.length]) := by
  have ha : a < nodes.length := h.lt_of_mem (hpq.symm.subset (by simp))
  have hb : b < nodes.length := h.lt_of_mem (hpq.symm.subset (by simp))
  have hlen : pq.length = rest.length + 2 := hpq.length_eq
  have hsize := h.size
  have haIdx : (BitVec.ofNat 9 a).toNat = a := by rw [BitVec.toNat_ofNat]; omega
  have hbIdx : (BitVec.ofNat 9 b).toNat = b := by rw [BitVec.toNat_ofNat]; omega
  have hsum : (freqAt nodes a).toNat + ((freqAt nodes b).toNat + (rest.map fun i => (freqAt nodes i).toNat).sum) =
      (leaves.map fun n => n.freq.toNat).sum := by
    rw [← h.total, (hpq.map _).sum_eq]; rfl
  have hmerged : (freqAt nodes a + freqAt nodes b).toNat = (freqAt nodes a).toNat + (freqAt nodes b).toNat := by
    rw [BitVec.toNat_add]; omega
  have hnew : (nodes ++ [mergedNode nodes a b]).getD nodes.length Node.free = mergedNode nodes a b := by simp
  refine ⟨h.leavesFirst.trans (List.prefix_append _ _), fun i hi hle => ?_, ?_, ?_, ?_⟩
  · by_cases hold : i < nodes.length
    · exact (h.internals i hold hle).append hold _
    · obtain rfl : i = nodes.length := by simp at hi; omega
      rw [InternalOver, hnew]
      simp only [mergedNode, Node.internalOf, haIdx, hbIdx]
      exact ⟨trivial, trivial, ha, hb, by rw [freqAt_append ha, freqAt_append hb, hmerged]⟩
  · have hchildren : (childrenOf (nodes ++ [mergedNode nodes a b])).map BitVec.toNat =
        (childrenOf nodes).map BitVec.toNat ++ [a, b] := by
      rw [childrenOf_append, List.map_append]
      simp [childrenOf, mergedNode, Node.internalOf, haIdx, hbIdx]
    rw [hchildren, List.length_append, List.length_singleton, List.range_succ, ← List.append_assoc]
    refine List.Perm.append_right _ (List.Perm.trans ?_ h.owned)
    rw [List.append_assoc]
    exact List.Perm.append_left _ hpq.symm
  · simp only [List.length_append, List.length_singleton]; omega
  · have hrest : (rest.map fun i => (freqAt (nodes ++ [mergedNode nodes a b]) i).toNat) =
        rest.map fun i => (freqAt nodes i).toNat :=
      List.map_congr_left fun i hi => by
        rw [freqAt_append (h.lt_of_mem (hpq.symm.subset (by simp [hi])))]
    have hlast : (freqAt (nodes ++ [mergedNode nodes a b]) nodes.length).toNat =
        (freqAt nodes a).toNat + (freqAt nodes b).toNat := by
      rw [freqAt, hnew]; exact hmerged
    rw [List.map_append, List.sum_append, hrest, ← hsum, List.map_singleton, List.sum_singleton, hlast]
    omega

/-- The merges keep the forest, and with a unit of fuel per merge they end with one tree (R120, R127). -/
theorem mergeLoop (hcount : leaves.length ≤ 256) (htotal : (leaves.map fun n => n.freq.toNat).sum < 2 ^ 40)
    (fuel : Nat) (h : Forest leaves nodes pq) (hne : pq ≠ []) (hfuel : pq.length ≤ fuel + 1) :
    ∃ r, (Machine.mergeLoop fuel nodes pq).2 = [r] ∧ Forest leaves (Machine.mergeLoop fuel nodes pq).1 [r] := by
  induction fuel generalizing nodes pq with
  | zero =>
    obtain ⟨r, rfl⟩ := List.length_eq_one_iff.1 (Nat.le_antisymm hfuel (List.length_pos_iff.2 hne))
    exact ⟨r, rfl, h⟩
  | succ fuel ih =>
    rcases extractMin_cases (nodeKey nodes) pq with ⟨hnil, -⟩ | ⟨a, pq1, ha, hpa⟩
    · exact absurd hnil hne
    rcases extractMin_cases (nodeKey nodes) pq1 with ⟨rfl, hb⟩ | ⟨b, rest, hb, hpb⟩
    · obtain rfl : pq = [a] := List.perm_singleton.1 hpa
      simp only [Machine.mergeLoop, ha, hb]
      exact ⟨a, rfl, h⟩
    · have hpq : pq.Perm (a :: b :: rest) := hpa.trans (hpb.cons a)
      have hlen : pq.length = rest.length + 2 := hpq.length_eq
      simp only [Machine.mergeLoop, ha, hb]
      exact ih (h.merge hcount htotal hpq) (by simp) (by simp; omega)

/-- Every owned node comes before its owner. -/
theorem exists_owner_after (hleaf : ∀ n ∈ leaves, n.kind = .leaf) (h : Forest leaves nodes pq) {c : NodeIdx}
    (hc : c ∈ childrenOf nodes) : ∃ i < nodes.length, c.toNat < i := by
  obtain ⟨n, hn, hcn⟩ := List.mem_flatMap.1 hc
  obtain ⟨i, hi, rfl⟩ := List.getElem_of_mem hn
  refine ⟨i, hi, ?_⟩
  by_cases hle : leaves.length ≤ i
  · obtain ⟨hkind, -, hleft, hright, -⟩ := h.internals i hi hle
    rw [List.getD_eq_getElem _ _ hi] at hkind hleft hright
    rw [if_pos hkind] at hcn
    rcases List.mem_pair.1 hcn with rfl | rfl <;> assumption
  · have hkind := hleaf _ (List.getElem_mem (Nat.lt_of_not_le hle))
    rw [h.leavesFirst.getElem (Nat.lt_of_not_le hle)] at hkind
    simp [hkind] at hcn

/-- When one tree is left its root is the node made last (R127). -/
theorem root_eq (hleaf : ∀ n ∈ leaves, n.kind = .leaf) {r : Nat} (h : Forest leaves nodes [r]) :
    r = nodes.length - 1 := by
  have hr := h.lt_of_mem (List.mem_singleton_self r)
  have hlast : nodes.length - 1 ∈ (childrenOf nodes).map BitVec.toNat ++ [r] :=
    h.owned.symm.subset (List.mem_range.2 (by omega))
  rcases List.mem_append.1 hlast with hmem | hmem
  · obtain ⟨c, hc, hcl⟩ := List.mem_map.1 hmem
    obtain ⟨i, hi, hlt⟩ := h.exists_owner_after hleaf hc
    omega
  · exact (List.mem_singleton.1 hmem).symm

end Forest

/-- BUILD's nodes are one tree over the leaves (R120). -/
theorem buildNodes_forest {freq : Table Count Config.nsym} (hne : leafList freq ≠ []) :
    ∃ r, (buildNodes freq).2 = [r] ∧ Forest (leafList freq) (buildNodes freq).1 [r] := by
  refine Forest.mergeLoop (length_leafList_le freq) (sum_leafList freq ▸ totalCount_lt freq) _ (Forest.start ?_) ?_ ?_
  · intro n hn
    obtain ⟨y, -, rfl⟩ := mem_leafList.1 hn
    rfl
  · simpa using hne
  · rw [List.length_range]; omega

/-! ### The tree BUILD leaves (R130) -/

theorem Table.cells_ofPrefix {α : Type} {n : Nat} {l : List α} (h : l.length ≤ n) (v : α) :
    (Table.ofPrefix l v : Table α n).cells = l ++ List.replicate (n - l.length) v := by
  simp only [Table.ofPrefix]
  rw [List.take_of_length_le]
  simp; omega

/-- Past the nodes made the store reads FREE, as a list does by default. -/
theorem nodeNo_eq_getD {t : State} {nodes : List Node} (hnode : t.node = .ofPrefix nodes Node.free)
    (hlen : nodes.length ≤ Config.nnode) (i : Nat) : t.nodeNo i = nodes.getD i Node.free := by
  rw [State.nodeNo, hnode, Table.cells_ofPrefix hlen]
  by_cases hi : i < nodes.length
  · rw [List.getD_append _ _ _ _ hi]
  · rw [List.getD_append_right _ _ _ _ (by omega), List.getD_eq_default nodes _ (by omega)]
    simp

theorem childList_ofPrefix {t : State} {nodes : List Node} (hnode : t.node = .ofPrefix nodes Node.free)
    (hlen : nodes.length ≤ Config.nnode) : t.childList = childrenOf nodes := by
  rw [childList_eq, hnode, Table.cells_ofPrefix hlen, childrenOf_append,
    childrenOf_of_not_internal (l := List.replicate _ _), List.append_nil]
  intro n hn
  rw [List.eq_of_mem_replicate hn]
  simp [Node.free]

/-- A node index occurs among children as often as its number does. -/
theorem count_map_toNat (l : List NodeIdx) {i : Nat} (hi : i < 512) :
    (l.map BitVec.toNat).count i = l.count (BitVec.ofNat 9 i) := by
  have hidx : (BitVec.ofNat 9 i).toNat = i := by rw [BitVec.toNat_ofNat]; omega
  conv_lhs => rw [← hidx]
  exact List.count_map_of_injective l _ (fun _ _ => BitVec.eq_of_toNat_eq) _

/-- A state that holds one tree over the leaves of its FREQ meets the invariants of R130. -/
theorem Forest.treeOk {t : State} {nodes : List Node} {r : Nat} (h : Forest (leafList t.freq) nodes [r])
    (hnode : t.node = .ofPrefix nodes Node.free) (hroot : t.root = BitVec.ofNat 9 r)
    (hnleaf : t.nleaf.val = (leafList t.freq).length) (hnnodes : t.nnodes = BitVec.ofNat 9 nodes.length) :
    TreeOk t := by
  have hsize : nodes.length + 1 = 2 * t.nleaf.val := hnleaf ▸ h.size
  have hleaves : t.nleaf.val ≤ 256 := hnleaf ▸ length_leafList_le t.freq
  have hlen : nodes.length ≤ Config.nnode := show nodes.length ≤ 511 by omega
  have hno := nodeNo_eq_getD hnode hlen
  have hr : r = nodes.length - 1 := h.root_eq fun n hn => by
    obtain ⟨y, -, rfl⟩ := mem_leafList.1 hn
    rfl
  have hrootNat : t.root.toNat = r := by rw [hroot, BitVec.toNat_ofNat]; omega
  have hleafNo : ∀ i (hi : i < (leafList t.freq).length), t.nodeNo i = (leafList t.freq)[i] := by
    intro i hi
    rw [hno, List.getD_eq_getElem _ _ (hi.trans_le h.leavesFirst.length_le), h.leavesFirst.getElem hi]
  have hinternal : ∀ i < 2 * t.nleaf.val - 1, t.nleaf.val ≤ i → InternalOver nodes i := fun i hi hle =>
    h.internals i (by omega) (hnleaf ▸ hle)
  have hcount : ∀ i < nodes.length, t.childList.count (BitVec.ofNat 9 i) + [r].count i = 1 := by
    intro i hi
    rw [childList_ofPrefix hnode hlen, ← count_map_toNat _ (by omega), ← List.count_append, h.owned.count_eq]
    exact List.count_eq_one_of_mem List.nodup_range (List.mem_range.2 hi)
  constructor
  case leafCount => exact ⟨hnleaf.trans (length_leafList _), by omega⟩
  case counts => exact ⟨by rw [hnnodes, BitVec.toNat_ofNat]; omega, by omega⟩
  case leaves =>
    intro i hi
    have hmem := List.getElem_mem (hnleaf ▸ hi : i < (leafList t.freq).length)
    rw [← hleafNo] at hmem
    obtain ⟨y, hy, hn⟩ := mem_leafList.1 hmem
    rw [hn]
    exact ⟨hy, rfl⟩
  case ascending =>
    intro j hj i hij
    rw [hnleaf] at hj
    rw [hleafNo i (hij.trans hj), hleafNo j hj]
    exact List.pairwise_iff_getElem.1 (pairwise_leavesFrom ((Nat.zero_add _).trans t.freq.size).le) i j _ _ hij
  case allSymbols =>
    intro y hy
    obtain ⟨i, hi, hn⟩ := List.getElem_of_mem (mem_leafList.2 ⟨y, hy, rfl⟩)
    exact ⟨i, hnleaf ▸ hi, by rw [hleafNo i hi, hn]; rfl⟩
  case internals =>
    intro i hi hle
    obtain ⟨hkind, hsym, hleft, hright, -⟩ := hinternal i hi hle
    rw [hno]
    exact ⟨hkind, hsym, hleft, hright⟩
  case frees =>
    intro i _ hle
    rw [hno, List.getD_eq_default _ _ (by omega)]
  case ownedOnce =>
    intro i hi
    have hone := hcount i (by omega)
    rwa [List.count_singleton, if_neg (by simp; omega)] at hone
  case rootUnowned =>
    have hone := hcount r (by omega)
    rw [List.count_singleton_self] at hone
    rw [hroot]
    omega
  case sums =>
    intro i hi hle
    obtain ⟨-, -, -, -, hfreq⟩ := hinternal i hi hle
    simp only [hno]
    exact hfreq
  case total =>
    have htotal := h.total
    rw [sum_leafList] at htotal
    rw [hrootNat, hno, ← htotal]
    simp [freqAt]

/-- With a count that is not 0, BUILD leaves a tree that meets the invariants of R130. -/
theorem buildTree_treeOk {s : State} (hne : leafList s.freq ≠ []) : TreeOk s.buildTree := by
  rcases buildTree_cases s with ⟨hnil, -⟩ | ⟨-, hbuild⟩
  · exact absurd hnil hne
  obtain ⟨r, hr, hforest⟩ := buildNodes_forest hne
  rw [hbuild]
  refine Forest.treeOk hforest rfl (by rw [hr]; rfl) ?_ rfl
  have hle := length_leafList_le s.freq
  exact Nat.mod_eq_of_lt (by omega)

end Sys2Proof.Machine
end

section
/-! PROOFS, 10_state.md, the table. A node store that meets R130 holds one code tree, GEN's walk writes that tree's paths, and the table so written meets R150 (R24, R140 to R143). -/

namespace Sys2Proof.Machine

/-! ### Code trees in a node store -/

/-- A binary tree of node indices. -/
inductive CodeTree where
  | leaf (i : NodeIdx)
  | node (i : NodeIdx) (l r : CodeTree)

namespace CodeTree

/-- The index at the root. -/
def root : CodeTree → NodeIdx
  | leaf i => i
  | node i _ _ => i

/-- The indices of all nodes, in the order of GEN's visits (R142). -/
def indices : CodeTree → List NodeIdx
  | leaf i => [i]
  | node i l r => i :: (l.indices ++ r.indices)

/-- The leaves from left to right, each with its path from the root (R141). -/
def leafPaths : CodeTree → List (NodeIdx × BitSeq)
  | leaf i => [(i, [])]
  | node _ l r => l.leafPaths.map (fun e => (e.1, false :: e.2)) ++ r.leafPaths.map (fun e => (e.1, true :: e.2))

/-- The tree stands in the node store: its leaves are LEAF entries, its inner nodes INTERNAL entries over their subtrees' roots (R30). -/
def In (store : Table Node Config.nnode) : CodeTree → Prop
  | leaf i => (nodeAt store i).kind = .leaf
  | node i l r => (nodeAt store i).kind = .internal ∧ (nodeAt store i).left = l.root ∧
      (nodeAt store i).right = r.root ∧ l.In store ∧ r.In store

/-- A table with every leaf's symbol given the leaf's path below `path` (R142). -/
def writeCodes (store : Table Node Config.nnode) :
    CodeTree → BitSeq → Table CodeEntry Config.nsym → Table CodeEntry Config.nsym
  | leaf i, path, table => table.setSym (nodeAt store i).sym (CodeEntry.ofPath path)
  | node _ l r, path, table => r.writeCodes store (path ++ [true]) (l.writeCodes store (path ++ [false]) table)

theorem mem_leafPaths_node {i j : NodeIdx} {l r : CodeTree} {c : BitSeq} :
    (j, c) ∈ (node i l r).leafPaths ↔
      (∃ d, (j, d) ∈ l.leafPaths ∧ c = false :: d) ∨ (∃ d, (j, d) ∈ r.leafPaths ∧ c = true :: d) := by
  simp only [leafPaths, List.mem_append, List.mem_map, Prod.mk.injEq, Prod.exists]
  constructor
  · rintro (⟨k, d, hd, rfl, rfl⟩ | ⟨k, d, hd, rfl, rfl⟩)
    · exact .inl ⟨d, hd, rfl⟩
    · exact .inr ⟨d, hd, rfl⟩
  · rintro (⟨d, hd, rfl⟩ | ⟨d, hd, rfl⟩)
    · exact .inl ⟨j, d, hd, rfl, rfl⟩
    · exact .inr ⟨j, d, hd, rfl, rfl⟩

theorem length_leafPaths_pos (T : CodeTree) : 1 ≤ T.leafPaths.length := by
  induction T with
  | leaf i => exact Nat.le_refl 1
  | node i l r ihl ihr => simp only [leafPaths, List.length_append, List.length_map]; omega

/-- A binary tree has one inner node fewer than leaves (R127). -/
theorem length_indices (T : CodeTree) : T.indices.length + 1 = 2 * T.leafPaths.length := by
  induction T with
  | leaf i => rfl
  | node i l r ihl ihr =>
    simp only [indices, leafPaths, List.length_cons, List.length_append, List.length_map]; omega

/-- A leaf is no deeper than there are other leaves (R130 (f)). -/
theorem length_path_lt (T : CodeTree) {j : NodeIdx} {c : BitSeq} (h : (j, c) ∈ T.leafPaths) :
    c.length < T.leafPaths.length := by
  induction T generalizing c with
  | leaf i =>
    obtain ⟨-, rfl⟩ := Prod.mk.inj (List.mem_singleton.1 h)
    exact Nat.one_pos
  | node i l r ihl ihr =>
    have hl := l.length_leafPaths_pos
    have hr := r.length_leafPaths_pos
    simp only [leafPaths, List.length_append, List.length_map]
    rcases mem_leafPaths_node.1 h with ⟨d, hd, rfl⟩ | ⟨d, hd, rfl⟩
    · have := ihl hd
      rw [List.length_cons]; omega
    · have := ihr hd
      rw [List.length_cons]; omega

/-- A leaf's path that begins another leaf's is that path (R150 (c)). -/
theorem path_prefix (T : CodeTree) {i j : NodeIdx} {c d : BitSeq} (hi : (i, c) ∈ T.leafPaths)
    (hj : (j, d) ∈ T.leafPaths) (hcd : c <+: d) : i = j ∧ c = d := by
  induction T generalizing c d with
  | leaf k =>
    obtain ⟨rfl, rfl⟩ := Prod.mk.inj (List.mem_singleton.1 hi)
    obtain ⟨rfl, rfl⟩ := Prod.mk.inj (List.mem_singleton.1 hj)
    exact ⟨rfl, rfl⟩
  | node k l r ihl ihr =>
    rcases mem_leafPaths_node.1 hi with ⟨c, hc, rfl⟩ | ⟨c, hc, rfl⟩ <;>
      rcases mem_leafPaths_node.1 hj with ⟨d, hd, rfl⟩ | ⟨d, hd, rfl⟩ <;>
      rw [List.cons_prefix_cons] at hcd
    · obtain ⟨rfl, rfl⟩ := ihl hc hd hcd.2; exact ⟨rfl, rfl⟩
    · exact absurd hcd.1 (by decide)
    · exact absurd hcd.1 (by decide)
    · obtain ⟨rfl, rfl⟩ := ihr hc hd hcd.2; exact ⟨rfl, rfl⟩

/-- Every bit sequence stops at an inner node, above some leaf, or passes through a leaf (R150 (d)). -/
theorem path_complete (T : CodeTree) (q : BitSeq) :
    (∃ j c, (j, c) ∈ T.leafPaths ∧ q <+: c ∧ q ≠ c) ∨ (∃ j c, (j, c) ∈ T.leafPaths ∧ c <+: q) := by
  induction T generalizing q with
  | leaf i => exact .inr ⟨i, [], List.mem_singleton_self _, List.nil_prefix⟩
  | node i l r ihl ihr =>
    rcases q with _ | ⟨b, q⟩
    · obtain ⟨⟨j, d⟩, hd⟩ := List.exists_mem_of_length_pos l.length_leafPaths_pos
      exact .inl ⟨j, false :: d, mem_leafPaths_node.2 (.inl ⟨d, hd, rfl⟩), List.nil_prefix, by simp⟩
    have lift : ∀ (U : CodeTree), (∀ j d, (j, d) ∈ U.leafPaths → (j, b :: d) ∈ (node i l r).leafPaths) →
        ((∃ j c, (j, c) ∈ U.leafPaths ∧ q <+: c ∧ q ≠ c) ∨ (∃ j c, (j, c) ∈ U.leafPaths ∧ c <+: q)) →
        (∃ j c, (j, c) ∈ (node i l r).leafPaths ∧ b :: q <+: c ∧ b :: q ≠ c) ∨
          (∃ j c, (j, c) ∈ (node i l r).leafPaths ∧ c <+: b :: q) := by
      rintro U hU (⟨j, c, hc, hq, hne⟩ | ⟨j, c, hc, hq⟩)
      · exact .inl ⟨j, b :: c, hU j c hc, List.cons_prefix_cons.2 ⟨rfl, hq⟩, by simpa using hne⟩
      · exact .inr ⟨j, b :: c, hU j c hc, List.cons_prefix_cons.2 ⟨rfl, hq⟩⟩
    cases b
    · exact lift l (fun j d hd => mem_leafPaths_node.2 (.inl ⟨d, hd, rfl⟩)) (ihl q)
    · exact lift r (fun j d hd => mem_leafPaths_node.2 (.inr ⟨d, hd, rfl⟩)) (ihr q)

/-- The leaves are among the nodes. -/
theorem leaves_sublist (T : CodeTree) : (T.leafPaths.map Prod.fst).Sublist T.indices := by
  induction T with
  | leaf i => exact List.Sublist.refl _
  | node i l r ihl ihr =>
    rw [leafPaths, List.map_append, List.map_map, List.map_map]
    exact (ihl.append ihr).cons i

section
variable {store : Table Node Config.nnode}

/-- A leaf's path leads to it from the root (R141). -/
theorem In.follow {T : CodeTree} (h : T.In store) {j : NodeIdx} {c : BitSeq} (hj : (j, c) ∈ T.leafPaths) :
    follow store T.root c = some j ∧ (nodeAt store j).kind = .leaf := by
  induction T generalizing c with
  | leaf i =>
    obtain ⟨rfl, rfl⟩ := Prod.mk.inj (List.mem_singleton.1 hj)
    exact ⟨rfl, h⟩
  | node i l r ihl ihr =>
    obtain ⟨hkind, hleft, hright, hl, hr⟩ := h
    rcases mem_leafPaths_node.1 hj with ⟨d, hd, rfl⟩ | ⟨d, hd, rfl⟩
    · rw [root, Machine.follow, if_pos hkind, childOf, if_neg (by simp), hleft]
      exact ihl hl hd
    · rw [root, Machine.follow, if_pos hkind, childOf, if_pos rfl, hright]
      exact ihr hr hd

/-- A node that is a LEAF entry is one of the tree's leaves. -/
theorem In.exists_path {T : CodeTree} (h : T.In store) {j : NodeIdx} (hj : j ∈ T.indices)
    (hleaf : (nodeAt store j).kind = .leaf) : ∃ c, (j, c) ∈ T.leafPaths := by
  induction T with
  | leaf i =>
    obtain rfl := List.mem_singleton.1 hj
    exact ⟨[], List.mem_singleton_self _⟩
  | node i l r ihl ihr =>
    obtain ⟨hkind, -, -, hl, hr⟩ := h
    rcases List.mem_cons.1 hj with rfl | hj
    · simp [hkind] at hleaf
    rcases List.mem_append.1 hj with hj | hj
    · obtain ⟨c, hc⟩ := ihl hl hj
      exact ⟨false :: c, mem_leafPaths_node.2 (.inl ⟨c, hc, rfl⟩)⟩
    · obtain ⟨c, hc⟩ := ihr hr hj
      exact ⟨true :: c, mem_leafPaths_node.2 (.inr ⟨c, hc, rfl⟩)⟩

/-- A tree's root is an entry of the store: NIL names none (log entry 9). -/
theorem In.root_ne_nil {T : CodeTree} (h : T.In store) : T.root ≠ Config.nil := by
  have hnil : nodeAt store Config.nil = Node.free := dif_neg (by decide)
  intro hroot
  cases T with
  | leaf i =>
    obtain rfl : i = Config.nil := hroot
    rw [In, hnil] at h
    cases h
  | node i l r =>
    obtain rfl : i = Config.nil := hroot
    have hkind := h.1
    rw [hnil] at hkind
    cases hkind

/-! ### GEN's walk over a code tree (R142) -/

/-- The walk visits a code tree's nodes once each and writes its leaves' paths (R142). -/
theorem In.walk {T : CodeTree} (h : T.In store) (path : BitSeq) (hdepth : path.length + T.leafPaths.length ≤ 256)
    (fuel : Nat) (rest : List (NodeIdx × BitSeq)) (table : Table CodeEntry Config.nsym) :
    walk store (T.indices.length + fuel) ((T.root, path) :: rest) table =
      walk store fuel rest (T.writeCodes store path table) := by
  induction T generalizing path fuel rest table with
  | leaf i =>
    rw [indices, List.length_singleton, Nat.add_comm, root, Machine.walk, show (nodeAt store i).kind = .leaf from h]
    rfl
  | node i l r ihl ihr =>
    obtain ⟨hkind, hleft, hright, hl, hr⟩ := h
    have hlpos := l.length_leafPaths_pos
    have hrpos := r.length_leafPaths_pos
    rw [leafPaths, List.length_append, List.length_map, List.length_map] at hdepth
    have hfuel : (node i l r).indices.length + fuel = l.indices.length + (r.indices.length + fuel) + 1 := by
      simp only [indices, List.length_cons, List.length_append]; omega
    rw [hfuel, root, Machine.walk, hkind]
    simp only [hleft, hright]
    rw [if_neg (not_or.2 ⟨hl.root_ne_nil, hr.root_ne_nil⟩), if_neg (show path.length ≠ 255 by omega),
      ihl hl _ (by simp; omega), ihr hr _ (by simp; omega)]
    rfl

/-- Symbols of no leaf keep their entry. -/
theorem sym_writeCodes_of_ne {T : CodeTree} {y : Byte} (h : ∀ e ∈ T.leafPaths, (nodeAt store e.1).sym ≠ y)
    (path : BitSeq) (table : Table CodeEntry Config.nsym) :
    (T.writeCodes store path table).sym y = table.sym y := by
  induction T generalizing path table with
  | leaf i => rw [writeCodes, Table.sym_setSym, if_neg (h (i, []) (List.mem_singleton_self _)).symm]
  | node i l r ihl ihr =>
    rw [writeCodes,
      ihr (fun e he => h (e.1, true :: e.2) (mem_leafPaths_node.2 (.inr ⟨e.2, he, rfl⟩))),
      ihl (fun e he => h (e.1, false :: e.2) (mem_leafPaths_node.2 (.inl ⟨e.2, he, rfl⟩)))]

/-- When no two leaves have one symbol, each leaf's symbol gets its path. -/
theorem sym_writeCodes_of_mem {T : CodeTree}
    (hinj : (T.leafPaths.map fun e => (nodeAt store e.1).sym).Nodup) {j : NodeIdx} {c : BitSeq}
    (hj : (j, c) ∈ T.leafPaths) (path : BitSeq) (table : Table CodeEntry Config.nsym) :
    (T.writeCodes store path table).sym (nodeAt store j).sym = CodeEntry.ofPath (path ++ c) := by
  induction T generalizing c path table with
  | leaf i =>
    obtain ⟨rfl, rfl⟩ := Prod.mk.inj (List.mem_singleton.1 hj)
    rw [writeCodes, Table.sym_setSym, if_pos rfl, List.append_nil]
  | node i l r ihl ihr =>
    rw [leafPaths, List.map_append, List.map_map, List.map_map] at hinj
    obtain ⟨hl, hr, hdisj⟩ := List.nodup_append.1 hinj
    rw [writeCodes]
    rcases mem_leafPaths_node.1 hj with ⟨d, hd, rfl⟩ | ⟨d, hd, rfl⟩
    · have hright : ∀ e ∈ r.leafPaths, (nodeAt store e.1).sym ≠ (nodeAt store j).sym := fun e he =>
        (hdisj _ (List.mem_map_of_mem hd) _ (List.mem_map_of_mem he)).symm
      rw [sym_writeCodes_of_ne hright, ihl hl hd, List.append_assoc]
      rfl
    · rw [ihr hr hd, List.append_assoc]
      rfl

/-! ### Owners -/

/-- The children of one entry of the store. -/
def childrenAt (store : Table Node Config.nnode) (i : NodeIdx) : List NodeIdx :=
  if (nodeAt store i).kind = .internal then [(nodeAt store i).left, (nodeAt store i).right] else []

/-- The nodes of a tree are its root and its nodes' children. -/
theorem In.indices_perm {T : CodeTree} (h : T.In store) :
    T.indices.Perm (T.root :: T.indices.flatMap (childrenAt store)) := by
  induction T with
  | leaf i =>
    have hkind : (nodeAt store i).kind = .leaf := h
    simp [indices, root, childrenAt, hkind]
  | node i l r ihl ihr =>
    obtain ⟨hkind, hleft, hright, hl, hr⟩ := h
    rw [indices, root, List.flatMap_cons, List.flatMap_append, childrenAt, if_pos hkind, hleft, hright]
    refine List.Perm.cons i (((ihl hl).append (ihr hr)).trans ?_)
    exact List.Perm.cons _ List.perm_middle

end

end CodeTree

open CodeTree (childrenAt)

/-! ### The tree of R130, by node index -/

/-- A node by its index and by its number: both read FREE at NIL (log entry 9). -/
theorem nodeAt_eq_nodeNo (s : State) (i : NodeIdx) : nodeAt s.node i = s.nodeNo i.toNat := by
  unfold nodeAt State.nodeNo
  split
  case isTrue hi => exact (List.getD_eq_getElem _ _ (by rw [s.node.size]; exact hi)).symm
  case isFalse hi => exact (List.getD_eq_default _ _ (by rw [s.node.size]; omega)).symm

namespace TreeOk

variable {s : State} (h : TreeOk s) {i j : NodeIdx}

include h

/-- An entry below NLEAF is a leaf (R130 (a)). -/
theorem kind_of_lt_nleaf (hi : i.toNat < s.nleaf.val) : (nodeAt s.node i).kind = .leaf := by
  rw [nodeAt_eq_nodeNo, (h.leaves _ hi).2]
  rfl

/-- The entries from NLEAF on up to the root are internal, over earlier entries (R130 (b)). -/
theorem internal_of_le (hi : i.toNat < 2 * s.nleaf.val - 1) (hle : s.nleaf.val ≤ i.toNat) :
    (nodeAt s.node i).kind = .internal ∧ (nodeAt s.node i).left.toNat < i.toNat ∧
      (nodeAt s.node i).right.toNat < i.toNat := by
  obtain ⟨hkind, -, hleft, hright⟩ := h.internals _ hi hle
  rw [nodeAt_eq_nodeNo]
  exact ⟨hkind, hleft, hright⟩

/-- The entries past the root are FREE, and NIL reads as FREE (R130 (c)). -/
theorem free_of_root_lt (hi : 2 * s.nleaf.val - 1 ≤ i.toNat) : nodeAt s.node i = Node.free := by
  by_cases hn : i.toNat < Config.nnode
  · rw [nodeAt_eq_nodeNo, h.frees _ hn hi]
  · exact dif_neg hn

theorem lt_nleaf_of_leaf (hi : (nodeAt s.node i).kind = .leaf) : i.toNat < s.nleaf.val := by
  by_contra hle
  by_cases hlt : i.toNat < 2 * s.nleaf.val - 1
  · simp [(h.internal_of_le hlt (by omega)).1] at hi
  · simp [h.free_of_root_lt (i := i) (by omega), Node.free] at hi

/-- Children come before their owner, and owners are no later than the root. -/
theorem lt_of_mem_childrenAt (hj : j ∈ childrenAt s.node i) : j.toNat < i.toNat ∧ i.toNat ≤ s.root.toNat := by
  have hkind : (nodeAt s.node i).kind = .internal := by
    by_contra hkind
    simp [childrenAt, hkind] at hj
  have hlt : i.toNat < 2 * s.nleaf.val - 1 := by
    by_contra hle
    simp [h.free_of_root_lt (i := i) (by omega), Node.free] at hkind
  have hle : s.nleaf.val ≤ i.toNat := by
    by_contra hlt
    simp [h.kind_of_lt_nleaf (i := i) (by omega)] at hkind
  obtain ⟨-, hleft, hright⟩ := h.internal_of_le hlt hle
  obtain ⟨-, hroot⟩ := h.counts
  rw [childrenAt, if_pos hkind] at hj
  refine ⟨?_, by omega⟩
  rcases List.mem_pair.1 hj with rfl | rfl <;> assumption

/-- Each entry up to the root is the root of a code tree in the store. -/
theorem exists_codeTree (hi : i.toNat ≤ s.root.toNat) : ∃ T : CodeTree, T.root = i ∧ T.In s.node := by
  induction hn : i.toNat using Nat.strong_induction_on generalizing i with
  | _ n ih =>
    obtain ⟨-, hroot⟩ := h.counts
    obtain ⟨-, hpos⟩ := h.leafCount
    by_cases hlt : i.toNat < s.nleaf.val
    · exact ⟨.leaf i, rfl, h.kind_of_lt_nleaf hlt⟩
    · obtain ⟨hkind, hleft, hright⟩ := h.internal_of_le (i := i) (by omega) (by omega)
      obtain ⟨l, hl, hlIn⟩ := ih _ (hn ▸ hleft) (by omega) rfl
      obtain ⟨r, hr, hrIn⟩ := ih _ (hn ▸ hright) (by omega) rfl
      exact ⟨.node i l r, rfl, hkind, hl.symm, hr.symm, hlIn, hrIn⟩

end TreeOk

/-! ### Each entry has one place in the tree (R130 (d)) -/

/-- An element found once in a concatenation is found once in one part, and in no other. -/
theorem exists_part_of_count_eq_one {α β : Type} [DecidableEq α] {f : β → List α} {l : List β} {a : α}
    (h : (l.flatMap f).count a = 1) :
    ∃ p ∈ l, (f p).count a = 1 ∧ ∀ q ∈ l, q ≠ p → (f q).count a = 0 := by
  induction l with
  | nil => simp at h
  | cons b l ih =>
    rw [List.flatMap_cons, List.count_append] at h
    by_cases hb : (f b).count a = 0
    · obtain ⟨p, hp, hone, hrest⟩ := ih (by omega)
      refine ⟨p, List.mem_cons_of_mem b hp, hone, fun q hq hne => ?_⟩
      rcases List.mem_cons.1 hq with rfl | hq
      · exact hb
      · exact hrest q hq hne
    · refine ⟨b, List.mem_cons_self, by omega, fun q hq hne => ?_⟩
      have hnone : a ∉ l.flatMap f := List.count_eq_zero.1 (by omega)
      have hql : q ∈ l := (List.mem_cons.1 hq).resolve_left hne
      exact List.count_eq_zero.2 fun hmem => hnone (List.mem_flatMap.2 ⟨q, hql, hmem⟩)

/-- An element found once in one part alone is found as often as the part occurs. -/
theorem count_flatMap_of_one_part {α β : Type} [DecidableEq α] [DecidableEq β] {f : β → List α} {l : List β} {a : α}
    {p : β} (hp : (f p).count a = 1) (hrest : ∀ q, q ≠ p → (f q).count a = 0) : (l.flatMap f).count a = l.count p := by
  induction l with
  | nil => rfl
  | cons b l ih =>
    rw [List.flatMap_cons, List.count_append, ih]
    by_cases hb : b = p
    · rw [hb, hp, List.count_cons_self, Nat.add_comm]
    · rw [hrest b hb, List.count_cons_of_ne hb, Nat.zero_add]

theorem ofNat_toNat_idx (i : NodeIdx) : BitVec.ofNat 9 i.toNat = i := by
  rw [BitVec.ofNat_toNat, BitVec.setWidth_eq]

/-- The children of the whole store, index by index. -/
theorem childList_eq_flatMap (s : State) :
    s.childList = ((List.range Config.nnode).map (BitVec.ofNat 9)).flatMap (childrenAt s.node) := by
  have hcells : s.node.cells = ((List.range Config.nnode).map (BitVec.ofNat 9)).map (nodeAt s.node) := by
    apply List.ext_getElem
    · rw [List.length_map, List.length_map, List.length_range, s.node.size]
    · intro i hi _
      have hn : i < 511 := hi.trans_eq s.node.size
      have hidx : (BitVec.ofNat 9 i).toNat = i := by rw [BitVec.toNat_ofNat]; omega
      rw [List.getElem_map, List.getElem_map, List.getElem_range, nodeAt_eq_nodeNo, hidx, State.nodeNo,
        List.getD_eq_getElem _ _ hi]
  rw [childList_eq, childrenOf, hcells, List.flatMap_map]
  rfl

namespace TreeOk

variable {s : State} (h : TreeOk s) {j : NodeIdx}

include h

/-- Every index that owns something is an index of a slot. -/
theorem mem_slots_of_child {p : NodeIdx} (hj : j ∈ childrenAt s.node p) :
    p ∈ (List.range Config.nnode).map (BitVec.ofNat 9) := by
  obtain ⟨-, hle⟩ := h.lt_of_mem_childrenAt hj
  obtain ⟨-, hroot⟩ := h.counts
  have hn := s.nleaf.isLt
  exact List.mem_map.2 ⟨p.toNat, List.mem_range.2 (show p.toNat < 511 by omega), ofNat_toNat_idx p⟩

/-- The root has no owner (R130 (d)). -/
theorem root_not_child (p : NodeIdx) : s.root ∉ childrenAt s.node p := by
  intro hmem
  have hnone := h.rootUnowned
  rw [childList_eq_flatMap, List.count_eq_zero] at hnone
  exact hnone (List.mem_flatMap.2 ⟨p, h.mem_slots_of_child hmem, hmem⟩)

/-- Each entry before the root has one owner, which lists it once (R130 (d)). -/
theorem exists_owner (hj : j.toNat < s.root.toNat) :
    ∃ p, (childrenAt s.node p).count j = 1 ∧ ∀ q, q ≠ p → (childrenAt s.node q).count j = 0 := by
  obtain ⟨-, hroot⟩ := h.counts
  have hone := h.ownedOnce j.toNat (by omega)
  rw [ofNat_toNat_idx, childList_eq_flatMap] at hone
  obtain ⟨p, -, hp, hrest⟩ := exists_part_of_count_eq_one hone
  refine ⟨p, hp, fun q hq => ?_⟩
  by_contra hne
  exact hne (hrest q (h.mem_slots_of_child (List.count_pos_iff.1 (Nat.pos_of_ne_zero hne))) hq)

variable {T : CodeTree} (hT : T.root = s.root) (hIn : T.In s.node)

include hT hIn

/-- Every entry up to the root stands once in the root's tree. -/
theorem count_indices (hj : j.toNat ≤ s.root.toNat) : T.indices.count j = 1 := by
  induction hk : s.root.toNat - j.toNat using Nat.strong_induction_on generalizing j with
  | _ k ih =>
    rw [hIn.indices_perm.count_eq, hT]
    by_cases hroot : j = s.root
    · rw [hroot, List.count_cons_self, List.count_eq_zero.2]
      intro hmem
      obtain ⟨p, -, hp⟩ := List.mem_flatMap.1 hmem
      exact h.root_not_child p hp
    · have hlt : j.toNat < s.root.toNat := Nat.lt_of_le_of_ne hj fun heq => hroot (BitVec.eq_of_toNat_eq heq)
      obtain ⟨p, hp, hrest⟩ := h.exists_owner hlt
      obtain ⟨hjp, hpr⟩ := h.lt_of_mem_childrenAt (List.count_pos_iff.1 (Nat.lt_of_lt_of_eq Nat.one_pos hp.symm))
      rw [List.count_cons_of_ne (Ne.symm hroot), count_flatMap_of_one_part hp hrest]
      exact ih _ (by omega) hpr rfl

/-- No entry past the root stands in the root's tree. -/
theorem le_root_of_mem (hj : j ∈ T.indices) : j.toNat ≤ s.root.toNat := by
  rcases List.mem_cons.1 (hIn.indices_perm.subset hj) with hroot | hmem
  · rw [hroot, hT]
  · obtain ⟨p, -, hp⟩ := List.mem_flatMap.1 hmem
    obtain ⟨hjp, hpr⟩ := h.lt_of_mem_childrenAt hp
    omega

theorem nodup_indices : T.indices.Nodup := by
  refine List.nodup_iff_count_le_one.2 fun j => ?_
  by_cases hj : j ∈ T.indices
  · exact (h.count_indices hT hIn (h.le_root_of_mem hT hIn hj)).le
  · rw [List.count_eq_zero.2 hj]
    exact Nat.zero_le 1

/-- The root's tree has at most NLEAF leaves. -/
theorem length_leafPaths_le : T.leafPaths.length ≤ s.nleaf.val := by
  have hsub : T.indices.map BitVec.toNat ⊆ List.range (s.root.toNat + 1) := by
    intro n hn
    obtain ⟨j, hj, rfl⟩ := List.mem_map.1 hn
    exact List.mem_range.2 (Nat.lt_succ_of_le (h.le_root_of_mem hT hIn hj))
  have hnodup := (h.nodup_indices hT hIn).map (f := BitVec.toNat) fun _ _ => BitVec.eq_of_toNat_eq
  have hle := (hnodup.subperm hsub).length_le
  rw [List.length_map, List.length_range] at hle
  have hlen := T.length_indices
  obtain ⟨-, hroot⟩ := h.counts
  obtain ⟨-, hpos⟩ := h.leafCount
  omega

omit hT hIn in
/-- Two leaves with one symbol are one leaf (R130 (a)). -/
theorem leaf_sym_inj {i : NodeIdx} (hi : (nodeAt s.node i).kind = .leaf) (hj : (nodeAt s.node j).kind = .leaf)
    (hsym : (nodeAt s.node i).sym = (nodeAt s.node j).sym) : i = j := by
  have hilt := h.lt_nleaf_of_leaf hi
  have hjlt := h.lt_nleaf_of_leaf hj
  rw [nodeAt_eq_nodeNo, nodeAt_eq_nodeNo] at hsym
  apply BitVec.eq_of_toNat_eq
  rcases Nat.lt_trichotomy i.toNat j.toNat with hlt | heq | hlt
  · have := h.ascending _ hjlt _ hlt
    rw [hsym] at this; omega
  · exact heq
  · have := h.ascending _ hilt _ hlt
    rw [hsym] at this; omega

theorem nodup_leaf_syms : (T.leafPaths.map fun e => (nodeAt s.node e.1).sym).Nodup := by
  have hnodup : (T.leafPaths.map Prod.fst).Nodup := (h.nodup_indices hT hIn).sublist T.leaves_sublist
  have hmap : (T.leafPaths.map fun e => (nodeAt s.node e.1).sym) =
      (T.leafPaths.map Prod.fst).map fun i => (nodeAt s.node i).sym := by
    rw [List.map_map]; rfl
  rw [hmap]
  refine hnodup.map_on fun i hi j hj hsym => ?_
  obtain ⟨e, he, rfl⟩ := List.mem_map.1 hi
  obtain ⟨f, hf, rfl⟩ := List.mem_map.1 hj
  exact h.leaf_sym_inj (hIn.follow he).2 (hIn.follow hf).2 hsym

end TreeOk

/-! ### The table GEN writes (R150) -/

/-- The table of a code tree, every other symbol without a code (R142). -/
def CodeTree.table (store : Table Node Config.nnode) (T : CodeTree) : Table CodeEntry Config.nsym :=
  T.writeCodes store [] (.fill CodeEntry.invalid)

/-- With two or more leaves GEN completes with the table of the root's tree (R140, R142). -/
theorem TreeOk.generate_eq {s : State} (h : TreeOk s) (hmany : 2 ≤ s.nleaf.val) {T : CodeTree}
    (hT : T.root = s.root) (hIn : T.In s.node) : generate s.node s.root = .ok (T.table s.node) := by
  obtain ⟨-, hroot⟩ := h.counts
  have hn := s.nleaf.isLt
  have hkind : (nodeAt s.node s.root).kind = .internal := (h.internal_of_le (by omega) (by omega)).1
  have hlen := T.length_indices
  have hle := h.length_leafPaths_le hT hIn
  rw [generate, if_neg (hT ▸ hIn.root_ne_nil), if_neg (by simp [hkind]), ← hT,
    show Config.nnode = T.indices.length + (511 - T.indices.length) from (by omega : 511 = _),
    hIn.walk [] (by rw [List.length_nil]; omega)]
  cases 511 - T.indices.length <;> rfl

/-- A symbol's code is the path of its leaf (R141, R142). -/
theorem TreeOk.codeOf_table {s : State} (h : TreeOk s) {T : CodeTree} (hT : T.root = s.root) (hIn : T.In s.node)
    {y : Byte} {c : BitSeq} :
    codeOf (T.table s.node) y = some c ↔ ∃ j, (j, c) ∈ T.leafPaths ∧ (nodeAt s.node j).sym = y := by
  have hcode : ∀ j d, (j, d) ∈ T.leafPaths → codeOf (T.table s.node) (nodeAt s.node j).sym = some d := by
    intro j d hd
    have hle := h.length_leafPaths_le hT hIn
    have hlt := T.length_path_lt hd
    have hn := s.nleaf.isLt
    have hentry : (T.table s.node).sym (nodeAt s.node j).sym = CodeEntry.ofPath d :=
      CodeTree.sym_writeCodes_of_mem (h.nodup_leaf_syms hT hIn) hd _ _
    exact codeOf_eq_some.2 ⟨by rw [hentry]; rfl, by rw [hentry, CodeEntry.code_ofPath d (by omega)]⟩
  constructor
  · intro hy
    by_cases hsome : ∃ e ∈ T.leafPaths, (nodeAt s.node e.1).sym = y
    · obtain ⟨⟨j, d⟩, hd, rfl⟩ := hsome
      rw [hcode j d hd] at hy
      obtain rfl := Option.some.inj hy
      exact ⟨j, hd, rfl⟩
    · have hentry : (T.table s.node).sym y = CodeEntry.invalid :=
        (CodeTree.sym_writeCodes_of_ne (fun e he hsym => hsome ⟨e, he, hsym⟩) _ _).trans (Table.sym_fill _ y)
      rw [codeOf, hentry] at hy
      cases hy
  · rintro ⟨j, hj, rfl⟩
    exact hcode j c hj

/-- Symbol tables that agree on a test of each symbol's entry pass it equally often. -/
theorem countP_cells_eq {α β : Type} {t : Table α Config.nsym} {u : Table β Config.nsym} {p : α → Bool} {q : β → Bool}
    (h : ∀ y, p (t.sym y) = q (u.sym y)) : t.cells.countP p = u.cells.countP q := by
  have hmap : t.cells.map p = u.cells.map q := by
    apply List.ext_getElem
    · rw [List.length_map, List.length_map, t.size, u.size]
    · intro i hi _
      rw [List.length_map, t.size] at hi
      have hidx : (BitVec.ofNat 8 i).toNat = i := by
        rw [BitVec.toNat_ofNat]; exact Nat.mod_eq_of_lt hi
      rw [List.getElem_map, List.getElem_map]
      simpa only [Table.sym, Table.get, symIdx, hidx] using h (BitVec.ofNat 8 i)
  rw [← Function.id_comp p, ← Function.id_comp q, ← List.countP_map, ← List.countP_map, hmap]

/-- When the symbols with a code are those with a count, there are NLEAF codes (R150 (a)). -/
theorem TreeOk.countP_valid {s : State} (h : TreeOk s)
    (hvalid : ∀ y, (codeOf s.code y).isSome = true ↔ s.freq.sym y ≠ 0) :
    s.code.cells.countP (fun e => e.valid) = s.nleaf.val := by
  rw [h.leafCount.1, distinctSymbols]
  refine countP_cells_eq fun y => Bool.eq_iff_iff.2 ?_
  rw [bne_iff_ne, ← hvalid]
  unfold codeOf
  split <;> simp_all

/-- Distinct symbols have distinct leaves, so neither's code begins the other's (R150 (c)). -/
theorem TreeOk.prefixFree_table {s : State} (h : TreeOk s) {T : CodeTree} (hT : T.root = s.root) (hIn : T.In s.node) :
    PrefixFree (T.table s.node) := by
  intro y z c d hne hc hd hcd
  obtain ⟨i, hi, rfl⟩ := (h.codeOf_table hT hIn).1 hc
  obtain ⟨j, hj, rfl⟩ := (h.codeOf_table hT hIn).1 hd
  exact hne (by rw [(T.path_prefix hi hj hcd).1])

/-- The symbols with a code are those with a count: each such symbol's leaf stands in the tree (R150 (a)). -/
theorem TreeOk.isSome_codeOf_table {s : State} (h : TreeOk s) {T : CodeTree} (hT : T.root = s.root)
    (hIn : T.In s.node) (y : Byte) : (codeOf (T.table s.node) y).isSome = true ↔ s.freq.sym y ≠ 0 := by
  rw [Option.isSome_iff_exists]
  constructor
  · rintro ⟨c, hc⟩
    obtain ⟨j, hj, rfl⟩ := (h.codeOf_table hT hIn).1 hc
    rw [nodeAt_eq_nodeNo]
    exact (h.leaves _ (h.lt_nleaf_of_leaf (hIn.follow hj).2)).1
  · intro hy
    obtain ⟨n, hn, hsym⟩ := h.allSymbols y hy
    obtain ⟨-, hroot⟩ := h.counts
    have hidx : (BitVec.ofNat 9 n).toNat = n := by
      have := s.nleaf.isLt
      rw [BitVec.toNat_ofNat]; omega
    have hmem : BitVec.ofNat 9 n ∈ T.indices :=
      List.count_pos_iff.1 (by rw [h.count_indices hT hIn (by omega)]; exact Nat.one_pos)
    obtain ⟨c, hc⟩ := hIn.exists_path hmem (h.kind_of_lt_nleaf (by omega))
    exact ⟨c, (h.codeOf_table hT hIn).2 ⟨_, hc, by rw [nodeAt_eq_nodeNo, hidx, hsym]⟩⟩

/-- With two or more leaves the table of the root's tree meets R150. -/
theorem TreeOk.tableOk_of_many {s : State} (h : TreeOk s) (hmany : 2 ≤ s.nleaf.val) {T : CodeTree}
    (hT : T.root = s.root) (hIn : T.In s.node) (hcode : s.code = T.table s.node) : TableOk s := by
  have hof {y c} : codeOf s.code y = some c ↔ ∃ j, (j, c) ∈ T.leafPaths ∧ (nodeAt s.node j).sym = y :=
    hcode ▸ h.codeOf_table hT hIn
  have hvalid : ∀ y, (codeOf s.code y).isSome = true ↔ s.freq.sym y ≠ 0 := hcode ▸ h.isSome_codeOf_table hT hIn
  have hfree : PrefixFree s.code := hcode ▸ h.prefixFree_table hT hIn
  constructor
  case validIff => exact hvalid
  case cardinality => exact h.countP_valid hvalid
  case paths =>
    intro _ y c hc
    obtain ⟨j, hj, hsym⟩ := hof.1 hc
    obtain ⟨hfollow, hleaf⟩ := hIn.follow hj
    exact ⟨j, hT ▸ hfollow, hleaf, hsym⟩
  case lengths =>
    intro _ y c hc
    obtain ⟨j, hj, -⟩ := hof.1 hc
    obtain ⟨hfollow, hleaf⟩ := hIn.follow hj
    have hlt := T.length_path_lt hj
    have hle := h.length_leafPaths_le hT hIn
    refine ⟨List.length_pos_iff.2 fun hnil => ?_, by omega⟩
    rw [hnil, hT] at hfollow
    obtain rfl : s.root = j := Option.some.inj hfollow
    have hroot := h.lt_nleaf_of_leaf hleaf
    rw [h.counts.2] at hroot
    omega
  case single => exact fun hone => absurd hone (by omega)
  case prefixFree => exact hfree
  case inverse => exact fun y c hc => (lookup_code hfree hc).1
  case complete =>
    intro _ q
    rcases T.path_complete q with ⟨j, c, hj, hq, hne⟩ | ⟨j, c, hj, hq⟩
    · exact .inl ⟨_, c, hof.2 ⟨j, hj, rfl⟩, hq, hne⟩
    · refine .inr ⟨_, ⟨c, hof.2 ⟨j, hj, rfl⟩, hq⟩, ?_⟩
      rintro z ⟨d, hd, hdq⟩
      obtain ⟨k, hk, rfl⟩ := hof.1 hd
      rcases List.prefix_or_prefix_of_prefix hdq hq with hpre | hpre
      · rw [(T.path_prefix hk hj hpre).1]
      · rw [(T.path_prefix hj hk hpre).1]

/-- With one leaf GEN gives its symbol the code "0" and no other symbol one, which meets R150 (R143). -/
theorem TreeOk.tableOk_of_one {s : State} (h : TreeOk s) (hone : s.nleaf.val = 1)
    (hgen : generate s.node s.root = .ok s.code) : TableOk s := by
  obtain ⟨-, hroot⟩ := h.counts
  have hzero : s.root.toNat = 0 := by omega
  have hkind : (nodeAt s.node s.root).kind = .leaf := h.kind_of_lt_nleaf (by omega)
  have hnil : s.root ≠ Config.nil := fun hr => by
    rw [hr] at hzero
    exact absurd hzero (by decide)
  rw [generate, if_neg hnil, if_pos hkind] at hgen
  have hcode : s.code = (Table.fill CodeEntry.invalid).setSym (nodeAt s.node s.root).sym (CodeEntry.ofPath [false]) :=
    (Except.ok.inj hgen).symm
  have hof {y c} : codeOf s.code y = some c ↔ y = (nodeAt s.node s.root).sym ∧ c = [false] := by
    rw [codeOf_eq_some, hcode, Table.sym_setSym]
    by_cases hy : y = (nodeAt s.node s.root).sym
    · rw [if_pos hy, CodeEntry.code_ofPath _ (by decide)]
      simp [hy, CodeEntry.ofPath, eq_comm]
    · rw [if_neg hy, Table.sym_fill]
      simp [hy, CodeEntry.invalid]
  have hvalid : ∀ y, (codeOf s.code y).isSome = true ↔ s.freq.sym y ≠ 0 := by
    intro y
    rw [Option.isSome_iff_exists]
    constructor
    · rintro ⟨c, hc⟩
      rw [(hof.1 hc).1, nodeAt_eq_nodeNo]
      exact (h.leaves _ (by omega)).1
    · intro hy
      obtain ⟨n, hn, hsym⟩ := h.allSymbols y hy
      obtain rfl : n = 0 := by omega
      exact ⟨[false], hof.2 ⟨by rw [nodeAt_eq_nodeNo, hzero, hsym], rfl⟩⟩
  have hfree : PrefixFree s.code := fun y z c d hne hc hd _ => hne ((hof.1 hc).1.trans (hof.1 hd).1.symm)
  constructor
  case validIff => exact hvalid
  case cardinality => exact h.countP_valid hvalid
  case paths => exact fun hmany => absurd hmany (by omega)
  case lengths => exact fun hmany => absurd hmany (by omega)
  case single => exact fun _ y c hc => (hof.1 hc).2
  case prefixFree => exact hfree
  case inverse => exact fun y c hc => (lookup_code hfree hc).1
  case complete => exact fun hmany => absurd hmany (by omega)

/-- The table GEN answers on a tree that meets R130 meets R150. -/
theorem TreeOk.tableOk {s : State} (h : TreeOk s) (hgen : generate s.node s.root = .ok s.code) : TableOk s := by
  obtain ⟨-, hpos⟩ := h.leafCount
  by_cases hone : s.nleaf.val = 1
  · exact h.tableOk_of_one hone hgen
  · have hmany : 2 ≤ s.nleaf.val := by omega
    obtain ⟨T, hT, hIn⟩ := h.exists_codeTree (Nat.le_refl _)
    rw [h.generate_eq hmany hT hIn] at hgen
    exact h.tableOk_of_many hmany hT hIn (Except.ok.inj hgen).symm

end Sys2Proof.Machine
end

section
/-! PROOFS, 10_state.md, the invariants of every step. What commands, illegal words and reset keep, a step keeps; and the forms of the stores, the tree and the table are kept so (R24, R27 to R32). -/

namespace Sys2Proof.Machine

/-! ### From commands to steps -/

/-- An invariant that does not look at the inputs still to come holds after a step when it holds at reset, and commands and illegal words keep it without a held error: with one they are dropped (R94, R228, R260). -/
theorem step_keeps {P : State → Prop} (hport : ∀ s inputs, P s → P (s.setPort inputs)) (hreset : P State.reset)
    (hexec : ∀ i s t, s.err = .none → P s → exec i s = .next t → P t)
    (hillegal : ∀ s info pos, P s → P (s.raise .illegalCommand info pos))
    {s t : State} (hs : P s) (hstep : step s = .next t) : P t := by
  rcases step_cases s with ⟨-, h⟩ | ⟨rest, -, h⟩ | ⟨w, rest, i, -, -, h⟩ | ⟨w, rest, e, -, -, h⟩ <;> rw [h] at hstep
  · cases hstep; exact hs
  · cases hstep; exact hport _ rest hreset
  · have hrest := hport s rest hs
    by_cases hok : s.err = .none
    · exact hexec i (s.setPort rest) t hok hrest hstep
    · by_cases hi : i = .clear
      · subst hi; cases hstep; exact hport _ rest hreset
      · rw [exec_of_fault (s := s.setPort rest) hok hi] at hstep
        cases hstep; exact hrest
  · cases hstep
    have hrest := hport s rest hs
    by_cases hok : s.err = .none
    · obtain ⟨info, pos, he⟩ := illegal_of_ok (s := s.setPort rest) hok e
      rw [he]; exact hillegal _ info pos hrest
    · rw [illegal_of_fault (s := s.setPort rest) hok]
      exact hrest

/-! ### The forms of the stores (R30, R32) -/

/-- The entry made from a path of 1 to 255 bits has the form of R32. -/
theorem ofPath_wellFormed {path : BitSeq} (hpos : path ≠ []) (hlen : path.length ≤ 255) :
    (CodeEntry.ofPath path).wellFormed := by
  have hbits : (BitVec.ofNat 8 path.length).toNat = path.length := by rw [BitVec.toNat_ofNat]; omega
  have hlenPos : 1 ≤ (CodeEntry.ofPath path).len.toNat := by
    rw [CodeEntry.ofPath, hbits]; exact List.length_pos_iff.2 hpos
  rw [CodeEntry.wellFormed, if_pos (show (CodeEntry.ofPath path).valid = true from rfl), CodeEntry.code_ofPath path hlen]
  exact ⟨hlenPos, rfl⟩

theorem setSym_wellFormed {table : Table CodeEntry Config.nsym} (h : ∀ e ∈ table.cells, e.wellFormed) (y : Byte)
    {v : CodeEntry} (hv : v.wellFormed) : ∀ e ∈ (table.setSym y v).cells, e.wellFormed := by
  intro e he
  rcases List.mem_or_eq_of_mem_set he with he | rfl
  · exact h e he
  · exact hv

theorem fill_invalid_wellFormed : ∀ e ∈ (Table.fill CodeEntry.invalid : Table CodeEntry Config.nsym).cells, e.wellFormed := by
  intro e he
  rw [Table.eq_of_mem_fill he]
  exact invalid_wellFormed

/-- On any node store the walk writes entries of the form of R32, when no leaf is pending with an empty or overlong path. -/
theorem walk_wellFormed {store : Table Node Config.nnode} {fuel : Nat} {stack : List (NodeIdx × BitSeq)}
    {table out : Table CodeEntry Config.nsym}
    (hstack : ∀ e ∈ stack, e.2.length ≤ 255 ∧ (e.2 = [] → (nodeAt store e.1).kind ≠ .leaf))
    (htable : ∀ e ∈ table.cells, e.wellFormed) (hwalk : walk store fuel stack table = .ok out) :
    ∀ e ∈ out.cells, e.wellFormed := by
  induction fuel generalizing stack table with
  | zero =>
    rcases stack with _ | ⟨_, rest⟩
    · cases hwalk; exact htable
    · cases hwalk
  | succ fuel ih =>
    rcases stack with _ | ⟨⟨i, path⟩, rest⟩
    · cases hwalk; exact htable
    obtain ⟨⟨hlen, hleaf⟩, hrest⟩ := List.forall_mem_cons.1 hstack
    rw [walk] at hwalk
    cases hkind : (nodeAt store i).kind <;> simp only [hkind] at hwalk
    case free => cases hwalk
    case reserved => cases hwalk
    case leaf =>
      exact ih hrest (setSym_wellFormed htable _ (ofPath_wellFormed (fun hnil => hleaf hnil hkind) hlen)) hwalk
    case internal =>
      split at hwalk
      · cases hwalk
      split at hwalk
      · cases hwalk
      next hmax =>
        refine ih ?_ htable hwalk
        have hchild (b : Bool) : (path ++ [b]).length ≤ 255 := by
          have hne : path.length ≠ 255 := hmax
          rw [List.length_append, List.length_singleton]
          change path.length ≤ 255 at hlen
          omega
        exact List.forall_mem_cons.2 ⟨⟨hchild false, fun hnil => absurd hnil (by simp)⟩,
          List.forall_mem_cons.2 ⟨⟨hchild true, fun hnil => absurd hnil (by simp)⟩, hrest⟩⟩

/-- On any node store GEN writes entries of the form of R32. -/
theorem generate_wellFormed {store : Table Node Config.nnode} {root : NodeIdx} {table : Table CodeEntry Config.nsym}
    (h : generate store root = .ok table) : ∀ e ∈ table.cells, e.wellFormed := by
  rw [generate] at h
  split at h
  · cases h
  split at h
  · cases h
    exact setSym_wellFormed fill_invalid_wellFormed _ (ofPath_wellFormed (by decide) (by decide))
  next hkind =>
    refine walk_wellFormed (fun e he => ?_) fill_invalid_wellFormed h
    obtain rfl := List.mem_singleton.1 he
    exact ⟨Nat.zero_le _, fun _ => hkind⟩

/-- The entries of a store that meets R130 have the form of R30. -/
theorem TreeOk.nodes_wellFormed {s : State} (h : TreeOk s) : ∀ n ∈ s.node.cells, n.wellFormed := by
  intro n hn
  obtain ⟨i, hi, rfl⟩ := List.getElem_of_mem hn
  have hno : s.nodeNo i = s.node.cells[i] := List.getD_eq_getElem _ _ hi
  have hnleaf := s.nleaf.isLt
  rw [← hno]
  by_cases hleaf : i < s.nleaf.val
  · rw [(h.leaves i hleaf).2]
    exact ⟨rfl, rfl⟩
  by_cases hinternal : i < 2 * s.nleaf.val - 1
  · obtain ⟨hkind, hsym, hleft, hright⟩ := h.internals i hinternal (by omega)
    have hnil {c : NodeIdx} (hc : c.toNat < i) : c ≠ Config.nil := by
      rintro rfl
      have : 511 < i := hc
      omega
    rw [Node.wellFormed, hkind]
    exact ⟨hsym, hnil hleft, hnil hright⟩
  · rw [h.frees i (hi.trans_eq s.node.size) (by omega)]
    exact free_wellFormed

/-- The forms depend on no register but those of R27 and R31 and the phase, and in COLLECT they ask nothing of the phase. -/
theorem StoresOk.of_frame {s t : State} (h : StoresOk s)
    (hframe : Frame [.phase, .err, .errinfo, .errpos, .freq, .ibuf, .obuf, .port] s t)
    (hphase : t.phase = s.phase ∨ t.phase = .collect)
    (hdetail : t.err = .none → t.errinfo = 0 ∧ t.errpos = 0) : StoresOk t := by
  have hnode : t.node = s.node := hframe .node (by decide)
  have hcode : t.code = s.code := hframe .code (by decide)
  have hnleaf : t.nleaf = s.nleaf := hframe .nleaf (by decide)
  have hnnodes : t.nnodes = s.nnodes := hframe .nnodes (by decide)
  have hroot : t.root = s.root := hframe .root (by decide)
  refine ⟨hdetail, hnode ▸ h.nodes, hcode ▸ h.codes, ?_, fun hp => ?_, fun hp => ?_⟩
  · rw [hnleaf, hnnodes, hroot]
    exact h.counts
  · rcases hphase with hsame | hcollect
    · rw [hnleaf]
      exact h.treePresent (hsame ▸ hp)
    · exact absurd hcollect hp
  · rcases hphase with hsame | hcollect
    · rw [hcode]
      exact h.noTable (hsame ▸ hp)
    · rw [hcollect] at hp; cases hp

/-- An error entry keeps the forms (R226). -/
theorem StoresOk.raise {s : State} (h : StoresOk s) {e : ErrCode} (he : e ≠ .none) (info : BitVec 16) (pos : BitVec 32) :
    StoresOk (s.raise e info pos) :=
  h.of_frame (frame_iff.2 (by simp)) (.inl rfl) fun hnone => absurd hnone he

/-- BUILD keeps the forms: it leaves a tree, or nothing (R120, R121). -/
theorem StoresOk.buildTree {s : State} (h : StoresOk s) (hok : s.err = .none) : StoresOk s.buildTree := by
  rcases buildTree_cases s with ⟨-, hbuild⟩ | ⟨hne, hbuild⟩
  · rw [hbuild]
    exact reset_storesOk.of_frame (frame_iff.2 (by simp)) (.inl rfl) fun hnone => nomatch hnone
  · have htree := buildTree_treeOk hne
    obtain ⟨-, hpos⟩ := htree.leafCount
    have hcode : s.buildTree.code = .fill CodeEntry.invalid := by rw [hbuild]; rfl
    have hdetail : s.buildTree.errinfo = s.errinfo ∧ s.buildTree.errpos = s.errpos := by
      rw [hbuild]; exact ⟨rfl, rfl⟩
    refine ⟨fun _ => ?_, htree.nodes_wellFormed, hcode ▸ fill_invalid_wellFormed, ?_, fun _ => hpos, fun _ e he => ?_⟩
    · rw [hdetail.1, hdetail.2]
      exact h.noDetail hok
    · exact .inr ⟨hpos, htree.counts⟩
    · rw [hcode] at he
      exact Table.eq_of_mem_fill he

/-- GEN keeps the forms: it leaves a table of paths, or none (R140, R144). -/
theorem StoresOk.genTable {s : State} (h : StoresOk s) (hp : s.phase ≠ .collect) : StoresOk s.genTable := by
  rcases genTable_cases s with ⟨table, hgen, heq⟩ | ⟨i, n, -, heq⟩ <;> rw [heq]
  · exact ⟨h.noDetail, h.nodes, generate_wellFormed hgen, h.counts, fun _ => h.treePresent hp, fun hb => nomatch hb⟩
  · exact ⟨fun hnone => (nomatch hnone), h.nodes, fill_invalid_wellFormed, h.counts, fun _ => h.treePresent hp,
      fun _ e he => Table.eq_of_mem_fill he⟩

/-- ENCODE keeps the forms: it writes OBUF and the error registers alone (R160). -/
theorem StoresOk.packInput {s : State} (h : StoresOk s) : StoresOk s.packInput := by
  rcases packInput_cases s with ⟨_, _, -, heq⟩ | ⟨_, -, -, heq⟩ | ⟨_, _, -, -, heq⟩ <;> rw [heq]
  · exact h.of_frame (frame_iff.2 (by simp)) (.inl rfl) fun hnone => nomatch hnone
  · exact h.of_frame (frame_iff.2 (by simp)) (.inl rfl) fun hnone => nomatch hnone
  · exact h.of_frame (frame_iff.2 (by simp)) (.inl rfl) h.noDetail

/-- DECODE keeps the forms: it writes OBUF and the error registers alone (R180). -/
theorem StoresOk.unpackInput {s : State} (h : StoresOk s) : StoresOk s.unpackInput := by
  rcases unpackInput_cases s with ⟨_, _, -, heq⟩ | ⟨_, -, -, heq⟩ | ⟨_, _, -, -, heq⟩ <;> rw [heq]
  · exact h.of_frame (frame_iff.2 (by simp)) (.inl rfl) fun hnone => nomatch hnone
  · exact h.of_frame (frame_iff.2 (by simp)) (.inl rfl) fun hnone => nomatch hnone
  · exact h.of_frame (frame_iff.2 (by simp)) (.inl rfl) h.noDetail

/-- Every command that is not dropped keeps the forms. -/
theorem exec_keeps_storesOk (i : Instr) (s t : State) (hok : s.err = .none) (h : StoresOk s)
    (hexec : exec i s = .next t) : StoresOk t := by
  cases i with
  | nop => cases hexec; exact h
  | clear => cases hexec; exact reset_storesOk.of_frame (frame_iff.2 (by simp)) (.inl rfl) fun _ => ⟨rfl, rfl⟩
  | setfreq y c =>
    rw [exec_setfreq hok] at hexec; cases hexec
    exact h.of_frame (frame_iff.2 (by simp)) (.inr rfl) h.noDetail
  | count =>
    rw [exec_count hok] at hexec; cases hexec
    exact h.of_frame (frame_iff.2 (by simp)) (.inr rfl) h.noDetail
  | build => rw [exec_build hok] at hexec; cases hexec; exact h.buildTree hok
  | gen =>
    by_cases hp : s.phase = .collect
    · rw [exec_gen_of_collect hok hp] at hexec; cases hexec; exact h.raise (by decide) _ _
    · rw [exec_gen hok hp] at hexec; cases hexec; exact h.genTable hp
  | put y =>
    rcases exec_put_cases hok y with ⟨b, -, hput⟩ | ⟨-, hput⟩ <;> rw [hput] at hexec <;> cases hexec
    · exact h.of_frame (frame_iff.2 (by simp)) (.inl rfl) h.noDetail
    · exact h.raise (by decide) _ _
  | rstin =>
    rw [exec_rstin hok] at hexec; cases hexec
    exact h.of_frame (frame_iff.2 (by simp)) (.inl rfl) h.noDetail
  | encode =>
    by_cases hp : s.phase = .ready
    · rw [exec_encode hok hp] at hexec; cases hexec; exact h.packInput
    · rw [exec_encode_of_not_ready hok hp] at hexec; cases hexec; exact h.raise (by decide) _ _
  | decode =>
    by_cases hp : s.phase = .ready
    · rw [exec_decode hok hp] at hexec; cases hexec; exact h.unpackInput
    · rw [exec_decode_of_not_ready hok hp] at hexec; cases hexec; exact h.raise (by decide) _ _
  | xfer =>
    rw [exec_xfer hok] at hexec; cases hexec
    exact h.of_frame (frame_iff.2 (by simp)) (.inl rfl) h.noDetail

/-- Settles O39: reset has the forms, and commands and illegal words keep them. -/
theorem stepKeepsStoreForms : Obligations.StepKeepsStoreForms := by
  intro s t hs hstep
  refine step_keeps (fun s inputs h => ?_) reset_storesOk exec_keeps_storesOk
    (fun s info pos h => h.raise (by decide) info pos) hs hstep
  exact h.of_frame (frame_iff.2 (by simp)) (.inl rfl) h.noDetail

/-! ### The tree in BUILT and READY, the table in READY (R24) -/

/-- The tree's invariants speak of FREQ, the node store and the registers of R31 alone. -/
theorem TreeOk.of_frame {changed : List Piece} {s t : State} (h : TreeOk s) (hframe : Frame changed s t)
    (hkeep : ∀ p ∈ [Piece.nleaf, .nnodes, .root, .freq, .node], p ∉ changed) : TreeOk t := by
  have hnleaf : t.nleaf = s.nleaf := hframe .nleaf (hkeep _ (by simp))
  have hnnodes : t.nnodes = s.nnodes := hframe .nnodes (hkeep _ (by simp))
  have hroot : t.root = s.root := hframe .root (hkeep _ (by simp))
  have hfreq : t.freq = s.freq := hframe .freq (hkeep _ (by simp))
  have hnode : t.node = s.node := hframe .node (hkeep _ (by simp))
  cases s
  cases t
  subst hnleaf hnnodes hroot hfreq hnode
  exact ⟨h.leafCount, h.counts, h.leaves, h.ascending, h.allSymbols, h.internals, h.frees, h.ownedOnce,
    h.rootUnowned, h.sums, h.total⟩

/-- The table's invariants speak of CODE, FREQ, the node store and the registers of R31 alone. -/
theorem TableOk.of_frame {changed : List Piece} {s t : State} (h : TableOk s) (hframe : Frame changed s t)
    (hkeep : ∀ p ∈ [Piece.nleaf, .root, .freq, .node, .code], p ∉ changed) : TableOk t := by
  have hnleaf : t.nleaf = s.nleaf := hframe .nleaf (hkeep _ (by simp))
  have hroot : t.root = s.root := hframe .root (hkeep _ (by simp))
  have hfreq : t.freq = s.freq := hframe .freq (hkeep _ (by simp))
  have hnode : t.node = s.node := hframe .node (hkeep _ (by simp))
  have hcode : t.code = s.code := hframe .code (hkeep _ (by simp))
  cases s
  cases t
  subst hnleaf hroot hfreq hnode hcode
  exact ⟨h.validIff, h.cardinality, h.paths, h.lengths, h.single, h.prefixFree, h.inverse, h.complete⟩

/-- A command that is not dropped and leaves BUILT or READY is BUILD, or finds that phase and keeps the tree's pieces. -/
theorem exec_built_cases {i : Instr} {s t : State} (hok : s.err = .none) (hexec : exec i s = .next t)
    (hp : t.phase ≠ .collect) :
    (leafList s.freq ≠ [] ∧ t = s.buildTree) ∨
      (s.phase ≠ .collect ∧ ∀ p ∈ [Piece.nleaf, .nnodes, .root, .freq, .node], p ∉ writesOf i) := by
  have hphase := (phaseTransitions i s t hexec).2 hok
  cases i with
  | nop | put _ | rstin | xfer => exact .inr ⟨hphase.1 ▸ hp, by simp [writesOf]⟩
  | clear | setfreq _ _ | count => exact absurd hphase.1 hp
  | build =>
    rw [exec_build hok] at hexec
    cases hexec
    refine .inl ⟨fun hnil => hp ?_, rfl⟩
    rcases buildTree_cases s with ⟨-, hbuild⟩ | ⟨hne, -⟩
    · rw [hbuild]; rfl
    · exact absurd hnil hne
  | gen =>
    refine .inr ⟨fun hc => hp ?_, by simp [writesOf]⟩
    simp only [if_pos hc] at hphase
    rw [hphase]; exact hc
  | encode | decode =>
    refine .inr ⟨fun hc => hp ?_, by simp [writesOf]⟩
    simp only [if_neg (show s.phase ≠ .ready by simp [hc])] at hphase
    rw [hphase]; exact hc

/-- Every command that is not dropped keeps the tree from BUILT on (R24). -/
theorem exec_keeps_tree (i : Instr) (s t : State) (hok : s.err = .none) (h : TreeWhenBuilt s)
    (hexec : exec i s = .next t) : TreeWhenBuilt t := by
  intro hp
  rcases exec_built_cases hok hexec hp with ⟨hne, rfl⟩ | ⟨hs, hkeep⟩
  · exact buildTree_treeOk hne
  · exact (h hs).of_frame (exec_frame_of_ok hok hexec) hkeep

theorem TreeWhenBuilt.of_frame {changed : List Piece} {s t : State} (h : TreeWhenBuilt s) (hframe : Frame changed s t)
    (hkeep : ∀ p ∈ [Piece.phase, .nleaf, .nnodes, .root, .freq, .node], p ∉ changed) : TreeWhenBuilt t := fun hp =>
  have hphase : t.phase = s.phase := hframe .phase (hkeep _ (by simp))
  (h (hphase ▸ hp)).of_frame hframe fun p hmem => hkeep p (List.mem_cons_of_mem _ hmem)

theorem TableWhenReady.of_frame {changed : List Piece} {s t : State} (h : TableWhenReady s) (hframe : Frame changed s t)
    (hkeep : ∀ p ∈ [Piece.phase, .nleaf, .root, .freq, .node, .code], p ∉ changed) : TableWhenReady t := fun hp =>
  have hphase : t.phase = s.phase := hframe .phase (hkeep _ (by simp))
  (h (hphase ▸ hp)).of_frame hframe fun p hmem => hkeep p (List.mem_cons_of_mem _ hmem)

/-- Setting the inputs still to come writes no piece of the core (log entry 1). -/
theorem setPort_frame (s : State) (inputs : List HostInput) : Frame [.port] s (s.setPort inputs) :=
  frame_iff.2 (by simp)

/-- Error entry writes the error registers alone (R226). -/
theorem raise_frame (s : State) (e : ErrCode) (info : BitVec 16) (pos : BitVec 32) :
    Frame [.err, .errinfo, .errpos] s (s.raise e info pos) :=
  frame_iff.2 (by simp)

/-- Settles O40: BUILD makes the tree, what invalidates it leaves COLLECT, and nothing else writes its pieces. -/
theorem stepKeepsTree : Obligations.StepKeepsTree := fun _ _ hs hstep =>
  step_keeps (fun s inputs h => TreeWhenBuilt.of_frame h (setPort_frame s inputs) (by simp)) (fun hp => absurd rfl hp)
    exec_keeps_tree (fun s info pos h => TreeWhenBuilt.of_frame h (raise_frame s _ info pos) (by simp)) hs hstep

/-- Every command that is not dropped keeps the table in READY: GEN makes it from the tree, and what keeps READY writes none of its pieces (R24). -/
theorem exec_keeps_table (i : Instr) (s t : State) (hok : s.err = .none) (htree : TreeWhenBuilt s)
    (h : TableWhenReady s) (hexec : exec i s = .next t) : TableWhenReady t := by
  intro hp
  have hphase := (phaseTransitions i s t hexec).2 hok
  have hframe := exec_frame_of_ok hok hexec
  cases i with
  | nop | put _ | rstin | xfer => exact (h (hphase.1.symm.trans hp)).of_frame hframe (by simp [writesOf])
  | clear | setfreq _ _ | count => exact absurd (hphase.1.symm.trans hp) (by decide)
  | build => rcases hphase with ⟨-, hb⟩ | ⟨-, hb⟩ <;> exact absurd (hb.symm.trans hp) (by decide)
  | gen =>
    by_cases hc : s.phase = .collect
    · simp only [if_pos hc] at hphase
      rw [hphase] at hp
      exact absurd (hc.symm.trans hp) (by decide)
    · rw [exec_gen hok hc] at hexec
      cases hexec
      have htreeT : TreeOk s.genTable := (htree hc).of_frame hframe (by simp [writesOf])
      rcases genTable_cases s with ⟨table, hgen, heq⟩ | ⟨i, n, -, heq⟩
      · refine htreeT.tableOk ?_
        rw [heq]
        exact hgen
      · rw [heq] at hp
        cases hp
  | encode | decode =>
    by_cases hr : s.phase = .ready
    · exact (h hr).of_frame hframe (by simp [writesOf])
    · simp only [if_neg hr] at hphase
      rw [hphase] at hp
      exact absurd hp hr

/-- Settles O41: tree and table together are kept, the table in READY from the tree. -/
theorem stepKeepsTable : Obligations.StepKeepsTable := fun s t htree htable hstep =>
  (step_keeps (P := fun s => TreeWhenBuilt s ∧ TableWhenReady s)
    (fun s inputs h => ⟨TreeWhenBuilt.of_frame h.1 (setPort_frame s inputs) (by simp),
      TableWhenReady.of_frame h.2 (setPort_frame s inputs) (by simp)⟩)
    ⟨fun hp => absurd rfl hp, fun hp => nomatch hp⟩
    (fun i s t hok h hexec => ⟨exec_keeps_tree i s t hok h.1 hexec, exec_keeps_table i s t hok h.1 h.2 hexec⟩)
    (fun s info pos h => ⟨TreeWhenBuilt.of_frame h.1 (raise_frame s _ info pos) (by simp),
      TableWhenReady.of_frame h.2 (raise_frame s _ info pos) (by simp)⟩)
    ⟨htree, htable⟩ hstep).2

end Sys2Proof.Machine
end

section
/-! PROOFS, 20_memory.md. What each read of the host's port answers where its element exists (R66). -/

namespace Sys2Proof.Machine

/-! ### The element at a read index (R66) -/

/-- A symbol's entry is the element at its read index (R8). -/
theorem Table.getElem?_sym {α : Type} (t : Table α Config.nsym) (y : Byte) :
    t.cells[(y.setWidth 17).toNat]? = some (t.sym y) := by
  rw [BitVec.toNat_setWidth_of_le (by decide)]
  exact List.getElem?_eq_getElem _

/-- Every node index but NIL names a slot of the store (R5). -/
theorem toNat_lt_nnode {i : NodeIdx} (hi : i ≠ Config.nil) : i.toNat < Config.nnode := by
  have hne : i.toNat ≠ 511 := fun h => hi (BitVec.eq_of_toNat_eq h)
  have hlt : i.toNat < 512 := i.isLt
  change i.toNat < 511
  omega

/-- A node is the element at its read index (R30). -/
theorem getElem?_nodeAt (store : Table Node Config.nnode) {i : NodeIdx} (hi : i ≠ Config.nil) :
    store.cells[(i.setWidth 17).toNat]? = some (nodeAt store i) := by
  rw [BitVec.toNat_setWidth_of_le (by decide), nodeAt, dif_pos (toNat_lt_nnode hi)]
  exact List.getElem?_eq_getElem _

/-! ### The length registers (R28, R34) -/

/-- A buffer's length fits its 17-bit register, so the register's zero extension is the length. -/
theorem Buffer.setWidth_length (b : Buffer) :
    (BitVec.ofNat 17 b.bytes.length).setWidth 264 = BitVec.ofNat 264 b.bytes.length := by
  have hfits : b.bytes.length ≤ 65536 := b.fits
  exact BitVec.setWidth_ofNat_of_le_of_lt (by decide) (by omega)

/-- Settles O18: each store or buffer is read at the element its index names, and each scalar register, ILEN and OLEN as the buffers' lengths, by its number. -/
theorem readPortValues : Obligations.ReadPortValues := by
  intro s
  refine ⟨fun y => ?_, fun i hi => ?_, fun y => ?_, fun i b hb => ?_, fun i b hb => ?_, rfl, rfl, rfl, rfl, ?_, ?_,
    rfl, rfl, rfl⟩
  · exact congrArg (Option.map _) (s.freq.getElem?_sym y)
  · exact congrArg (Option.map _) (getElem?_nodeAt s.node hi)
  · exact congrArg (Option.map _) (s.code.getElem?_sym y)
  · exact congrArg (Option.map _) hb
  · exact congrArg (Option.map _) hb
  · exact congrArg some s.ibuf.setWidth_length
  · exact congrArg some s.obuf.setWidth_length

end Sys2Proof.Machine
end

section
/-! PROOFS, 30_encoding.md, words and commands. Decode and encode are inverse (R90 to R94), a row of the opcode map selects the well-formed words of its opcode (R93), and the assembler forms (R97, R98). -/

namespace Sys2Proof

/-! ### Decode and encode (R90 to R94) -/

/-- A command's word decodes to the command, whatever its operands (R91, R94). -/
theorem decode_encode (i : Instr) : decode (encode i) = .ok i := by
  rw [decode, fieldsOf_encode]
  cases i <;> rfl

/-- Settles O1: a decoded word's fields are its command's, and a command's own word decodes to it. -/
theorem decodeIsExactlyEncodeInverse : Obligations.DecodeIsExactlyEncodeInverse :=
  fun _ i => ⟨Machine.eq_encode_of_decode, fun h => h ▸ decode_encode i⟩

/-! ### Fields of a word, and when they are well formed (R90, R91) -/

/-- A word is determined by its fields (R90). -/
theorem fieldsOf_inj {v w : CmdWord} : fieldsOf v = fieldsOf w ↔ v = w :=
  ⟨fun h => by rw [← word_fieldsOf v, h, word_fieldsOf], congrArg _⟩

/-- Masking a word masks each of its fields (R90). -/
theorem fieldsOf_and (v w : CmdWord) : fieldsOf (v &&& w) =
    { op := (fieldsOf v).op &&& (fieldsOf w).op
      a := (fieldsOf v).a &&& (fieldsOf w).a
      b := (fieldsOf v).b &&& (fieldsOf w).b } := by
  simp only [fieldsOf, BitVec.extractLsb'_and]

/-- The fields of a command are well formed, with its opcode (R91, R93). -/
theorem fields_wellFormed_and_op (i : Instr) : i.fields.wellFormed = true ∧ i.fields.op = i.opcode := by
  cases i
  exacts [Laws.FieldForm.nop, Laws.FieldForm.clear, Laws.FieldForm.setfreq _ _, Laws.FieldForm.count,
    Laws.FieldForm.build, Laws.FieldForm.gen, Laws.FieldForm.put _, Laws.FieldForm.rstin, Laws.FieldForm.encode,
    Laws.FieldForm.decode, Laws.FieldForm.xfer]

/-- Only the eleven opcodes of the map have a format (R95 (a)). -/
theorem formatOf_of_reserved {op : Byte} (h : 0x0A < op.toNat) : formatOf op = none := by
  unfold formatOf
  split
  · omega
  · omega
  · exact if_neg (by omega)

/-- The fields of a word that decodes to no command are not well formed (R94, R95). -/
theorem not_wellFormed_of_decode_error {w : CmdWord} {e : Illegal} (h : decode w = .error e) :
    (fieldsOf w).wellFormed = false := by
  rcases decodeFields_cases (fieldsOf w) with ⟨hop, -⟩ | ⟨-, hwf, -⟩ | ⟨i, -, hok⟩
  · rw [Fields.wellFormed, formatOf_of_reserved hop]
  · exact hwf
  · rw [decode, hok] at h
    cases h

/-! ### The rows of the opcode map (R93) -/

/-- The opcode of a row: the `OP` field of its pattern (R93). -/
def OpcodeRow.opcode (r : OpcodeRow) : Byte := (fieldsOf r.pattern).op

/-- The fields of a format's mask: ones in `OP` and in every field the format leaves unused (R91, R93). -/
def Format.maskFields : Format → Fields
  | .z => { op := BitVec.allOnes 8, a := BitVec.allOnes 8, b := BitVec.allOnes 32 }
  | .a => { op := BitVec.allOnes 8, a := 0, b := BitVec.allOnes 32 }
  | .ab => { op := BitVec.allOnes 8, a := 0, b := 0 }

/-- The columns of a row agree: its mask is its format's, its pattern is its opcode alone, and its format is that of its opcode (R93). -/
theorem opcodeMap_columns : ∀ r ∈ opcodeMap, fieldsOf r.mask = r.format.maskFields ∧
    fieldsOf r.pattern = { op := r.opcode, a := 0, b := 0 } ∧ formatOf r.opcode = some r.format := by decide

/-- No two rows have the same opcode (R93). -/
theorem opcodeMap_nodup : (opcodeMap.map OpcodeRow.opcode).Nodup := by decide

/-- A command's opcode is the number of its row, which has its mnemonic (R93). -/
theorem opcodeMap_at_opcode (i : Instr) :
    ∃ r, opcodeMap[i.opcode.toNat]? = some r ∧ r.mnemonic = i.mnemonic ∧ r.opcode = i.opcode := by
  cases i <;> exact ⟨_, rfl, rfl, rfl⟩

/-- A row selects exactly the words with its opcode and well-formed fields (R91, R93). -/
theorem selects_iff {r : OpcodeRow} (hr : r ∈ opcodeMap) (w : CmdWord) :
    r.selects w = true ↔ (fieldsOf w).op = r.opcode ∧ (fieldsOf w).wellFormed = true := by
  obtain ⟨hmask, hpattern, hformat⟩ := opcodeMap_columns r hr
  have hwf : (fieldsOf w).op = r.opcode → (fieldsOf w).wellFormed = (fieldsOf w).unusedZero r.format := fun h => by
    rw [Fields.wellFormed, h, hformat]
  rw [OpcodeRow.selects, beq_iff_eq, ← fieldsOf_inj, fieldsOf_and, hmask, hpattern, Fields.mk.injEq]
  refine Iff.trans ?_ (and_congr_right fun h => by rw [hwf h])
  cases r.format <;> simp [Format.maskFields, Fields.unusedZero, -BitVec.reduceAllOnes]

/-- The rows that the word of a command selects are those with its opcode (R93). -/
theorem selects_iff_of_decode {r : OpcodeRow} (hr : r ∈ opcodeMap) {w : CmdWord} {i : Instr} (h : decode w = .ok i) :
    r.selects w = true ↔ i.opcode = r.opcode := by
  obtain rfl := Machine.eq_encode_of_decode h
  rw [selects_iff hr, fieldsOf_encode, (fields_wellFormed_and_op i).1, (fields_wellFormed_and_op i).2, and_iff_left rfl]

/-- Settles O2: a decoded word selects the rows with its command's opcode, of which there is one, and a word that is no command has no well-formed fields to select a row with. -/
theorem opcodeMapSelectsDecodedRow : Obligations.OpcodeMapSelectsDecodedRow := by
  refine fun w => ⟨fun i hi => ?_, fun e he => ?_⟩
  · obtain ⟨r, hr, hmnemonic, hopcode⟩ := opcodeMap_at_opcode i
    have hmem : r ∈ opcodeMap := List.mem_of_getElem? hr
    have honly : ∀ q ∈ opcodeMap, q.selects w = (q == r) := fun q hq => by
      rw [Bool.eq_iff_iff, selects_iff_of_decode hq hi, ← hopcode, beq_iff_eq]
      exact ⟨fun h => List.inj_on_of_nodup_map opcodeMap_nodup hq hmem h.symm, fun h => by rw [h]⟩
    refine ⟨r, ?_, hmnemonic, hopcode ▸ (opcodeMap_columns r hmem).2.2⟩
    rw [List.filter_congr honly, List.filter_beq, List.count_eq_one_of_mem (.of_map _ opcodeMap_nodup) hmem,
      List.replicate_one]
  · refine List.filter_eq_nil_iff.2 fun q hq hsel => ?_
    have hwf := ((selects_iff hq w).1 hsel).2
    rw [not_wellFormed_of_decode_error he] at hwf
    cases hwf

/-! ### Assembler forms (R97, R98) -/

/-- The operand values of a command's assembler line, `A` then `B` (R97). -/
def Instr.operands : Instr → List Nat
  | .setfreq s c => [s.toNat, c.toNat]
  | .put d => [d.toNat]
  | _ => []

/-- A command is the value of its own line (R97). -/
theorem assemble_operands (i : Instr) : assemble i.mnemonic i.operands = some i := by
  cases i with
  | setfreq s c => simp [assemble, Instr.mnemonic, Instr.operands, s.isLt, c.isLt]
  | put d => simp [assemble, Instr.mnemonic, Instr.operands, d.isLt]
  | _ => rfl

/-- A line that assembles gives a command of its mnemonic (R97). -/
theorem mnemonic_of_assemble {mnemonic : String} {operands : List Nat} {i : Instr}
    (h : assemble mnemonic operands = some i) : i.mnemonic = mnemonic := by
  unfold assemble at h
  split at h
  case h_3 | h_7 =>
    split at h <;> cases h
    rfl
  all_goals cases h
  all_goals rfl

/-- A `PUTS` of printable characters is one PUT for each (R98). -/
theorem expand_puts {text : List Byte} (h : ∀ c ∈ text, 0x20 ≤ c.toNat ∧ c.toNat ≤ 0x7E) :
    (Pseudo.puts text).expand = some (text.map Instr.put) :=
  if_pos (List.all_eq_true.2 fun c hc => by simpa using h c hc)

/-- Settles O4: each command's own line, the mnemonic of a line's command, and the three expansions. -/
theorem assemblerForms : Obligations.AssemblerForms :=
  ⟨fun i => ⟨i.operands, assemble_operands i⟩, fun _ _ _ => mnemonic_of_assemble, fun _ => expand_puts, rfl, rfl⟩

end Sys2Proof
end

section
/-! PROOFS, 30_encoding.md, words that are presented. What the step does with an illegal word, and the worked encodings (R94, R99, R225). -/

namespace Sys2Proof.Machine

/-- A step that takes a word that is no command enters IllegalCommand, or is dropped (R94, R225). -/
theorem step_of_decode_error {s : State} {w : CmdWord} {rest : List HostInput} {e : Illegal}
    (hport : s.port = .command w :: rest) (hdec : decode w = .error e) :
    step s = .next ((s.setPort rest).illegal e) := by
  simp only [step, takeInput_cons hport, hdec]

/-- Settles O3: each named word is its command's, and the illegal ones raise as first word after reset, ENCODE by the phase (R94, R225). -/
theorem workedEncodings : Obligations.WorkedEncodings := by
  have hdecode : ∀ {w : CmdWord} {i : Instr}, w = encode i → decode w = .ok i := (decodeIsExactlyEncodeInverse _ _).2
  refine ⟨hdecode rfl, hdecode rfl, hdecode rfl, hdecode rfl, hdecode rfl, hdecode rfl, hdecode rfl, hdecode rfl,
    hdecode rfl, hdecode rfl, hdecode rfl, hdecode rfl, hdecode rfl, ?_, ?_, ?_, ?_⟩
  · exact step_of_decode_error (e := .reservedOpcode 0x0B) rfl (by decide)
  · exact step_of_decode_error (e := .unusedField 0x04) rfl (by decide)
  · exact step_of_decode_error (e := .unusedField 0x06) rfl (by decide)
  · exact (step_of_decode_ok (i := .encode) rfl (by decide)).trans
      (exec_encode_of_not_ready (s := State.reset) rfl (by decide))

end Sys2Proof.Machine
end

section
/-! PROOFS, 40_frequency.md. What SETFREQ and COUNT write (R110, R111), and the sum of COUNT's counts (R112). -/

namespace Sys2Proof.Machine

/-! ### The counts of a byte sequence (R111) -/

@[simp] theorem countBytes_nil : countBytes [] = .fill 0 := rfl

/-- The last byte of a sequence adds one to its own count. -/
theorem countBytes_concat (bytes : List Byte) (b : Byte) :
    countBytes (bytes ++ [b]) = (countBytes bytes).setSym b ((countBytes bytes).sym b + 1) :=
  List.foldl_concat ..

/-- A symbol's count is its number of occurrences, modulo the width of a count. -/
theorem sym_countBytes (bytes : List Byte) (y : Byte) :
    (countBytes bytes).sym y = BitVec.ofNat 32 (bytes.count y) := by
  induction bytes using List.reverseRecOn with
  | nil => simp
  | append_singleton bytes b ih =>
    rw [countBytes_concat, Table.sym_setSym, List.count_append]
    by_cases h : y = b
    · rw [if_pos h, ← h, ih, List.count_singleton_self, BitVec.ofNat_add]
      rfl
    · rw [if_neg h, ih, List.count_eq_zero.2 (mt List.mem_singleton.1 h), Nat.add_zero]

/-- A buffer is too short for a count to wrap (R34, R112). -/
theorem toNat_sym_countBytes (b : Buffer) (y : Byte) : ((countBytes b.bytes).sym y).toNat = b.bytes.count y := by
  have hlen : b.bytes.length ≤ 65536 := b.fits
  have hcount : b.bytes.count y ≤ b.bytes.length := List.count_le_length
  rw [sym_countBytes, BitVec.toNat_ofNat]
  omega

theorem sym_countBytes_ne_zero {b : Buffer} {y : Byte} (h : y ∈ b.bytes) : (countBytes b.bytes).sym y ≠ 0 := by
  have hpos : 0 < b.bytes.count y := List.count_pos_iff.2 h
  intro hzero
  rw [← toNat_sym_countBytes, hzero] at hpos
  exact absurd hpos (by decide)

/-! ### The sum of all counts (R112) -/

theorem totalCount_eq_sum (freq : Table Count Config.nsym) :
    totalCount freq = ∑ i : Fin Config.nsym, (freq.sym (BitVec.ofFin (w := 8) i)).toNat := by
  have hcells : freq.cells = List.ofFn freq.get :=
    List.ext_getElem (by rw [List.length_ofFn, freq.size]) fun i _ _ => by rw [List.getElem_ofFn]; rfl
  rw [totalCount, hcells, List.map_ofFn, List.sum_ofFn]
  rfl

/-- Every byte is counted once, under its own symbol. -/
theorem totalCount_countBytes (b : Buffer) : totalCount (countBytes b.bytes) = b.bytes.length := by
  have hcount (i : Fin Config.nsym) :
      ((countBytes b.bytes).sym (BitVec.ofFin (w := 8) i)).toNat = (b.bytes.map BitVec.toFin).count i := by
    rw [toNat_sym_countBytes]
    exact (List.count_map_of_injective _ _ (fun _ _ => BitVec.eq_of_toFin_eq) (BitVec.ofFin (w := 8) i)).symm
  calc totalCount (countBytes b.bytes)
      = ∑ i : Fin Config.nsym, ((b.bytes.map BitVec.toFin : List _) : Multiset _).count i := by
        rw [totalCount_eq_sum]
        exact Finset.sum_congr rfl fun i _ => (hcount i).trans (Multiset.coe_count _ _).symm
    _ = b.bytes.length := by
        rw [Multiset.sum_count_eq_card fun _ _ => Finset.mem_univ _, Multiset.coe_card, List.length_map]

/-! ### The two commands -/

/-- Settles O20: the table COUNT makes holds the occurrences, and its frame is the command's. -/
theorem countCountsBytes : Obligations.CountCountsBytes := fun s hok =>
  ⟨decode_encode .count, _, exec_count hok, toNat_sym_countBytes s.ibuf, rfl, exec_frame_of_ok hok (exec_count hok)⟩

/-- Settles O21: the counts sum to ILEN, and a symbol occurs at most ILEN times. -/
theorem countTotalIsInputLength : Obligations.CountTotalIsInputLength := by
  intro s t hok hexec
  rw [exec_count hok] at hexec
  cases hexec
  refine ⟨totalCount_countBytes s.ibuf, fun y => ?_⟩
  calc ((countBytes s.ibuf.bytes).sym y).toNat
      = s.ibuf.bytes.count y := toNat_sym_countBytes s.ibuf y
    _ ≤ s.ibuf.bytes.length := List.count_le_length
    _ ≤ 65536 := s.ibuf.fits

/-- Settles O19: the entry written reads back, every other entry reads as before, and the frame is the command's. -/
theorem setfreqWritesOneCount : Obligations.SetfreqWritesOneCount := by
  intro s y c hok
  refine ⟨decode_encode (.setfreq y c), _, exec_setfreq hok y c, ?_, fun z hz => ?_, rfl,
    exec_frame_of_ok hok (exec_setfreq hok y c)⟩
  · rw [Table.sym_setSym, if_pos rfl]
  · rw [Table.sym_setSym, if_neg hz]

end Sys2Proof.Machine
end

section
/-! PROOFS, 40_frequency.md, the round trip. A table GEN makes of COUNT's counts codes all of IBUF, and DECODE undoes ENCODE under such a table (R111, R120, R140, R160, R180, R190). -/

namespace Sys2Proof.Machine

/-! ### Issued commands (R4) -/

/-- A step of a run that takes a command's own word performs the command and leaves the inputs behind it to come. -/
theorem run_command {s : State} {i : Instr} {rest : List HostInput} (hport : s.port = .command (encode i) :: rest)
    (n : Nat) : ∃ t, exec i (s.setPort rest) = .next t ∧ t.port = rest ∧
      Host.Core.run Sys2Proof.core (n + 1) s = Host.Core.run Sys2Proof.core n t := by
  obtain ⟨t, hexec, ht⟩ := exec_answers_next i (s.setPort rest)
  have hstep : Sys2Proof.core.step s = .next t := (step_of_decode_ok hport (decode_encode i)).trans hexec
  exact ⟨t, hexec, ht, by simp only [Host.Core.run, hstep]⟩

/-! ### Streams (R162 to R164, R180 to R184) -/

/-- Unpacking the stream of a symbol sequence gives the sequence (R190). -/
theorem unpackBytes_packBits {table : Table CodeEntry Config.nsym} {syms : List Byte} (hp : PrefixFree table)
    (hn : NonEmptyCodes table) (hs : AllCoded table syms) :
    unpackBytes (lookup table) (packBits (codeBits table syms)) = .ok syms := by
  obtain ⟨payload, hpack, hlen, hbits⟩ := packBits_eq (codeBits table syms)
  obtain ⟨hheader, -, hle⟩ := toNat_header (codeBits table syms).length
  have htotal := congrArg List.length hbits
  rw [length_expandBytes, List.length_append, length_zeros] at htotal
  have htake : (expandBytes payload).take (8 * payload.length - padAmount (codeBits table syms).length) =
      codeBits table syms := by
    rw [htotal, Nat.add_sub_cancel, hbits, List.take_left]
  have hscan := scan_codes hp hn hs [] 0
  rw [List.append_nil] at hscan
  rw [hpack, unpackBytes]
  simp only [hheader]
  rw [if_neg (by omega), if_neg (by omega), htake, hscan]
  simp [scan, Except.map]

/-! ### A machine that codes a symbol sequence (R190) -/

/-- The machine accepts commands in READY, and its table codes the sequence so that DECODE can tell the codes apart. -/
structure ReadyFor (syms : List Byte) (s : State) : Prop where
  /-- No error is held. -/
  noError : s.err = .none
  /-- The phase is READY. -/
  ready : s.phase = .ready
  /-- No code begins another. -/
  prefixFree : PrefixFree s.code
  /-- No code is empty. -/
  nonEmpty : NonEmptyCodes s.code
  /-- The symbols of the sequence have codes. -/
  coded : AllCoded s.code syms

theorem ReadyFor.of_eq {syms : List Byte} {s t : State} (h : ReadyFor syms s) (herr : t.err = s.err)
    (hphase : t.phase = s.phase) (hcode : t.code = s.code) : ReadyFor syms t :=
  ⟨herr.trans h.noError, hphase.trans h.ready, hcode ▸ h.prefixFree, hcode ▸ h.nonEmpty, hcode ▸ h.coded⟩

/-- Unless it overflows, ENCODE of a coded IBUF leaves IBUF's stream in OBUF and the table as it was (R160, R166). -/
theorem exec_encode_completes {s t : State} {syms : List Byte} (hexec : exec .encode s = .next t) (h : ReadyFor syms s)
    (hin : s.ibuf.bytes = syms) (hfits : t.err ≠ .bufferOverflow) :
    ReadyFor syms t ∧ t.obuf.bytes = packBits (codeBits t.code syms) := by
  have hconcat : concatCodes s.code 0 s.ibuf.bytes = .ok (codeBits s.code syms) :=
    hin ▸ concatCodes_of_allCoded h.coded 0
  rw [exec_encode h.noError h.ready] at hexec
  cases hexec
  rcases packInput_cases s with ⟨_, _, herr, -⟩ | ⟨_, -, -, heq⟩ | ⟨q, out, hok, hout, heq⟩
  · rw [hconcat] at herr; cases herr
  · rw [heq] at hfits; exact absurd rfl hfits
  · rw [hconcat] at hok; cases hok
    rw [heq]
    exact ⟨h.of_eq rfl rfl rfl, hout⟩

/-- DECODE of the stream of a coded sequence that fits leaves the sequence in OBUF (R180, R190). -/
theorem exec_decode_completes {s t : State} {syms : List Byte} (hexec : exec .decode s = .next t) (h : ReadyFor syms s)
    (hin : s.ibuf.bytes = packBits (codeBits s.code syms)) (hlen : syms.length ≤ Config.bufCap) :
    t.err = .none ∧ t.obuf.bytes = syms := by
  have hunpack : unpackBytes (lookup s.code) s.ibuf.bytes = .ok syms :=
    hin ▸ unpackBytes_packBits h.prefixFree h.nonEmpty h.coded
  rw [exec_decode h.noError h.ready] at hexec
  cases hexec
  rcases unpackInput_cases s with ⟨_, _, herr, -⟩ | ⟨_, hok, hlong, -⟩ | ⟨_, b, hok, hb, heq⟩
  · rw [hunpack] at herr; cases herr
  · rw [hunpack] at hok; cases hok
    exact absurd hlong (Nat.not_lt.2 hlen)
  · rw [hunpack] at hok; cases hok
    rw [heq]
    exact ⟨h.noError, hb⟩

/-! ### From counts to a table that codes the counted symbols (R120, R140) -/

/-- GEN completes on a tree that meets R130 (R140, R143). -/
theorem TreeOk.exists_generate {s : State} (h : TreeOk s) : ∃ table, generate s.node s.root = .ok table := by
  obtain ⟨-, hpos⟩ := h.leafCount
  obtain ⟨-, hroot⟩ := h.counts
  by_cases hone : s.nleaf.val = 1
  · have hkind : (nodeAt s.node s.root).kind = .leaf := h.kind_of_lt_nleaf (by omega)
    have hnil : s.root ≠ Config.nil := fun hr => by
      rw [hr, hone] at hroot
      exact absurd hroot (by decide)
    exact ⟨_, by rw [generate, if_neg hnil, if_pos hkind]⟩
  · obtain ⟨T, hT, hIn⟩ := h.exists_codeTree (Nat.le_refl _)
    exact ⟨_, h.generate_eq (by omega) hT hIn⟩

/-- A table that meets R150 over one leaf or more has no empty code. -/
theorem TableOk.nonEmptyCodes {s : State} (h : TableOk s) (hpos : 1 ≤ s.nleaf.val) : NonEmptyCodes s.code := by
  intro y hy
  by_cases hone : s.nleaf.val = 1
  · exact absurd (h.single hone y [] hy) (by simp)
  · exact absurd (h.lengths (by omega) y [] hy).1 (by simp)

/-- A table that meets R150 codes every sequence of symbols with a count. -/
theorem TableOk.allCoded {s : State} (h : TableOk s) {syms : List Byte} (hsyms : ∀ y ∈ syms, s.freq.sym y ≠ 0) :
    AllCoded s.code syms := by
  intro y hy
  obtain ⟨c, hc⟩ := Option.isSome_iff_exists.1 ((h.validIff y).2 (hsyms y hy))
  exact (codeOf_eq_some.1 hc).1

/-- COUNT completes with the counts of IBUF (R111). -/
theorem exec_count_completes {s t : State} (hexec : exec .count s = .next t) (hok : s.err = .none) :
    t.err = .none ∧ t.freq = countBytes s.ibuf.bytes ∧ t.ibuf = s.ibuf := by
  rw [exec_count hok] at hexec
  cases hexec
  exact ⟨hok, rfl, rfl⟩

/-- BUILD on a table with a count completes in BUILT with a tree (R120). -/
theorem exec_build_completes {s t : State} (hexec : exec .build s = .next t) (hok : s.err = .none)
    (hcount : ∃ y, s.freq.sym y ≠ 0) :
    t.err = .none ∧ t.phase = .built ∧ t.freq = s.freq ∧ t.ibuf = s.ibuf ∧ TreeOk t := by
  obtain ⟨y, hy⟩ := hcount
  have hne : leafList s.freq ≠ [] := List.ne_nil_of_mem (mem_leafList.2 ⟨y, hy, rfl⟩)
  have htree := buildTree_treeOk hne
  rw [exec_build hok] at hexec
  cases hexec
  rcases buildTree_cases s with ⟨hnil, -⟩ | ⟨-, hbuild⟩
  · exact absurd hnil hne
  · have hkeeps : s.buildTree.err = s.err ∧ s.buildTree.phase = .built ∧ s.buildTree.freq = s.freq ∧
        s.buildTree.ibuf = s.ibuf := by rw [hbuild]; exact ⟨rfl, rfl, rfl, rfl⟩
    obtain ⟨herr, hphase, hfreq, hibuf⟩ := hkeeps
    exact ⟨herr.trans hok, hphase, hfreq, hibuf, htree⟩

/-- GEN on a valid tree makes the machine ready for every sequence of symbols with a count (R140, R150). -/
theorem exec_gen_readyFor {s t : State} {syms : List Byte} (hexec : exec .gen s = .next t) (hok : s.err = .none)
    (hp : s.phase ≠ .collect) (htree : TreeOk s) (hsyms : ∀ y ∈ syms, s.freq.sym y ≠ 0) :
    ReadyFor syms t ∧ t.ibuf = s.ibuf := by
  obtain ⟨table, hgen⟩ := htree.exists_generate
  rw [exec_gen hok hp] at hexec
  cases hexec
  rcases genTable_cases s with ⟨table', hgen', heq⟩ | ⟨i, n, herr, -⟩
  · rw [heq]
    have htable := TreeOk.tableOk (s := { s with code := table', phase := .ready })
      (htree.of_frame (changed := [.code, .phase]) (frame_iff.2 (by simp)) (by simp)) hgen'
    exact ⟨⟨hok, rfl, htable.prefixFree, htable.nonEmptyCodes htree.leafCount.2, htable.allCoded hsyms⟩, rfl⟩
  · rw [hgen] at herr; cases herr

/-! ### The round trip (R190) -/

/-- The first four commands of the round trip, when ENCODE does not overflow: the machine is ready for the bytes of IBUF, and their stream is in OBUF. -/
theorem run_count_build_gen_encode {s u : State} (hok : s.err = .none) (hport : s.port = []) (hne : s.ibuf.bytes ≠ [])
    (hrun : Host.Core.run Sys2Proof.core 4 (s.issue [.count, .build, .gen, .encode]) = .next u)
    (hfits : u.err ≠ .bufferOverflow) :
    u.port = [] ∧ ReadyFor s.ibuf.bytes u ∧ u.obuf.bytes = packBits (codeBits u.code s.ibuf.bytes) := by
  have hissue : (s.issue [.count, .build, .gen, .encode]).port =
      [.command (encode .count), .command (encode .build), .command (encode .gen), .command (encode .encode)] := by
    rw [State.issue, hport]; rfl
  obtain ⟨a, hcount, hportA, hrunA⟩ := run_command hissue 3
  obtain ⟨b, hbuild, hportB, hrunB⟩ := run_command hportA 2
  obtain ⟨c, hgen, hportC, hrunC⟩ := run_command hportB 1
  obtain ⟨d, hencode, hportD, hrunD⟩ := run_command hportC 0
  rw [hrunA, hrunB, hrunC, hrunD] at hrun
  cases hrun
  obtain ⟨hokA, hfreqA, hibufA⟩ := exec_count_completes hcount hok
  have hcounted : ∀ y ∈ s.ibuf.bytes, a.freq.sym y ≠ 0 := fun y hy => hfreqA ▸ sym_countBytes_ne_zero hy
  obtain ⟨y, hy⟩ := List.exists_mem_of_ne_nil _ hne
  obtain ⟨hokB, hphaseB, hfreqB, hibufB, htreeB⟩ := exec_build_completes hbuild hokA ⟨y, hcounted y hy⟩
  obtain ⟨hreadyC, hibufC⟩ := exec_gen_readyFor hgen hokB (by simp [hphaseB])
    (htreeB.of_frame (setPort_frame b _) (by simp)) (by simpa only [setPort_freq, hfreqB] using hcounted)
  have hibuf : c.ibuf = s.ibuf := hibufC.trans (hibufB.trans hibufA)
  exact ⟨hportD, exec_encode_completes hencode (hreadyC.of_eq rfl rfl rfl) (congrArg Buffer.bytes hibuf) hfits⟩

/-- The last two commands of the round trip: XFER hands the stream in OBUF to DECODE (R204, R180). -/
theorem run_xfer_decode {syms : List Byte} {u : State} (hport : u.port = []) (h : ReadyFor syms u)
    (hout : u.obuf.bytes = packBits (codeBits u.code syms)) (hlen : syms.length ≤ Config.bufCap) :
    ∃ t, Host.Core.run Sys2Proof.core 2 (u.issue [.xfer, .decode]) = .next t ∧ t.err = .none ∧ t.obuf.bytes = syms := by
  have hissue : (u.issue [.xfer, .decode]).port = [.command (encode .xfer), .command (encode .decode)] := by
    rw [State.issue, hport]; rfl
  obtain ⟨a, hxfer, hportA, hrunA⟩ := run_command hissue 1
  obtain ⟨b, hdecode, -, hrunB⟩ := run_command hportA 0
  rw [exec_xfer (by exact h.noError)] at hxfer
  cases hxfer
  exact ⟨b, hrunA.trans hrunB, exec_decode_completes hdecode (h.of_eq rfl rfl rfl) hout hlen⟩

/-- Settles O57: GEN's table of COUNT's counts codes all of IBUF, and DECODE undoes ENCODE under it. -/
theorem roundTripFromAnyInput : Obligations.RoundTripFromAnyInput := by
  intro s u hok hport hne hrun hfits
  obtain ⟨hportU, hready, hout⟩ := run_count_build_gen_encode hok hport hne hrun hfits
  exact run_xfer_decode hportU hready hout s.ibuf.fits

end Sys2Proof.Machine
end

section
/-! PROOFS, 41_tree_builder.md, the queue. A key orders nodes by frequency, then by index, so extraction has one answer (R122, R123); and a queue of keys instead of indices builds the same nodes (R132). -/

namespace Sys2Proof.Machine

/-! ### Keys (R122) -/

/-- A key as a number: the frequency above nine bits of index. -/
theorem toNat_nodeKey (nodes : List Node) {i : Nat} (hi : i < 512) :
    (nodeKey nodes i).toNat = (freqAt nodes i).toNat * 512 + i := by
  have hidx : (BitVec.ofNat 9 i).toNat = i := by rw [BitVec.toNat_ofNat]; omega
  rw [nodeKey, BitVec.toNat_append, hidx, ← Nat.shiftLeft_add_eq_or_of_lt hi, Nat.shiftLeft_eq]

/-- Keys compare by frequency, and by index when the frequencies are equal (R123). -/
theorem nodeKey_lt_iff (nodes : List Node) {i j : Nat} (hi : i < 512) (hj : j < 512) :
    nodeKey nodes i < nodeKey nodes j ↔ (freqAt nodes i).toNat < (freqAt nodes j).toNat ∨
      ((freqAt nodes i).toNat = (freqAt nodes j).toNat ∧ i < j) := by
  rw [BitVec.lt_def, toNat_nodeKey nodes hi, toNat_nodeKey nodes hj]
  omega

/-- Keys of distinct indices differ (R122). -/
theorem nodeKey_inj {nodes : List Node} {i j : Nat} (hi : i < 512) (hj : j < 512)
    (h : nodeKey nodes i = nodeKey nodes j) : i = j := by
  have hnat := congrArg BitVec.toNat h
  rw [toNat_nodeKey nodes hi, toNat_nodeKey nodes hj] at hnat
  omega

theorem nodeKey_append {nodes : List Node} {i : Nat} (h : i < nodes.length) (more : List Node) :
    nodeKey (nodes ++ more) i = nodeKey nodes i := by
  rw [nodeKey, freqAt_append h, nodeKey]

theorem nodeKey_last (nodes : List Node) (n : Node) :
    nodeKey (nodes ++ [n]) nodes.length = n.freq ++ BitVec.ofNat 9 nodes.length := by
  simp [nodeKey, freqAt]

@[simp] theorem keyFreq_nodeKey (nodes : List Node) (i : Nat) : keyFreq (nodeKey nodes i) = freqAt nodes i :=
  BitVec.extractLsb'_append_eq_left

@[simp] theorem keyIdx_nodeKey (nodes : List Node) (i : Nat) : keyIdx (nodeKey nodes i) = BitVec.ofNat 9 i :=
  BitVec.extractLsb'_append_eq_right

/-! ### The least member (R122) -/

theorem minMember_le (key : Nat → BitVec 49) (m : Nat) (rest : List Nat) :
    ∀ i ∈ m :: rest, key (minMember key m rest) ≤ key i := by
  induction rest generalizing m with
  | nil => simp [minMember]
  | cons j rest ih =>
    rw [minMember]
    split
    next hlt =>
      obtain ⟨hj, hrest⟩ := List.forall_mem_cons.1 (ih j)
      exact List.forall_mem_cons.2 ⟨BitVec.le_trans hj (BitVec.le_of_lt hlt), List.forall_mem_cons.2 ⟨hj, hrest⟩⟩
    next hle =>
      obtain ⟨hm, hrest⟩ := List.forall_mem_cons.1 (ih m)
      exact List.forall_mem_cons.2
        ⟨hm, List.forall_mem_cons.2 ⟨BitVec.le_trans hm (BitVec.not_lt.1 hle), hrest⟩⟩

/-- No key left in the queue is below the extracted one (R122). -/
theorem extractMin_le {key : Nat → BitVec 49} {pq rest : List Nat} {m : Nat}
    (h : extractMin key pq = some (m, rest)) : ∀ j ∈ rest, key m ≤ key j := by
  cases pq with
  | nil => cases h
  | cons i pq =>
    cases h
    exact fun j hj => minMember_le key i pq j (List.mem_of_mem_erase hj)

/-- Settles O26: the extracted key is the least, and no other member has it. -/
theorem extractMinTakesLeastKey : Obligations.ExtractMinTakesLeastKey := by
  intro nodes pq hne hnodup hlt
  rcases extractMin_cases (nodeKey nodes) pq with ⟨hnil, -⟩ | ⟨m, rest, hmin, hperm⟩
  · exact absurd hnil hne
  refine ⟨m, rest, hmin, hperm, fun j hj => ?_⟩
  have hm : m < 512 := hlt m (hperm.symm.subset List.mem_cons_self)
  have hj' : j < 512 := hlt j (hperm.symm.subset (List.mem_cons_of_mem m hj))
  have hmj : m ≠ j := fun h => (List.nodup_cons.1 (hperm.nodup_iff.1 hnodup)).1 (h ▸ hj)
  have hkey : nodeKey nodes m < nodeKey nodes j :=
    BitVec.lt_of_le_ne (extractMin_le hmin j hj) fun h => hmj (nodeKey_inj hm hj' h)
  exact ⟨hkey, (nodeKey_lt_iff nodes hm hj').1 hkey⟩

/-! ### The merge network (R132) -/

theorem minKey_map (key : Nat → BitVec 49) (m : Nat) (rest : List Nat) :
    minKey (key m) (rest.map key) = key (minMember key m rest) := by
  induction rest generalizing m with
  | nil => rfl
  | cons i rest ih =>
    rw [List.map_cons, minKey, minMember]
    split
    · exact ih i
    · exact ih m

/-- Erasing a member and erasing its key agree when the members' keys differ. -/
theorem map_erase_of_inj {key : Nat → BitVec 49} {l : List Nat} {m : Nat}
    (hinj : ∀ i ∈ l, key i = key m → i = m) : (l.map key).erase (key m) = (l.erase m).map key := by
  induction l with
  | nil => rfl
  | cons i l ih =>
    obtain ⟨hi, hl⟩ := List.forall_mem_cons.1 hinj
    by_cases him : i = m
    · rw [him, List.map_cons, List.erase_cons_head, List.erase_cons_head]
    · rw [List.map_cons, List.erase_cons_tail (by simpa using mt hi him), ih hl,
        List.erase_cons_tail (by simpa using him), List.map_cons]

/-- A selection among keys is the extraction of their member (R122, R132). -/
theorem selectKey_map {key : Nat → BitVec 49} {pq : List Nat}
    (hinj : ∀ i ∈ pq, ∀ j ∈ pq, key i = key j → i = j) :
    selectKey (pq.map key) = (extractMin key pq).map fun r => (key r.1, r.2.map key) := by
  cases pq with
  | nil => rfl
  | cons i pq =>
    have hmem := minMember_mem key i pq
    rw [List.map_cons, selectKey, minKey_map, ← List.map_cons, map_erase_of_inj fun j hj => hinj j hj _ hmem]
    rfl

/-- The network's loop is the architectural loop with keys for indices, as long as the nodes to be made have 9-bit indices (R132). -/
theorem networkLoop_map_nodeKey (fuel : Nat) {nodes : List Node} {pq : List Nat} (hpq : ∀ i ∈ pq, i < nodes.length)
    (hroom : nodes.length + fuel ≤ 512) :
    networkLoop fuel nodes (pq.map (nodeKey nodes)) = ((mergeLoop fuel nodes pq).1,
      (mergeLoop fuel nodes pq).2.map (nodeKey (mergeLoop fuel nodes pq).1)) := by
  induction fuel generalizing nodes pq with
  | zero => rfl
  | succ fuel ih =>
    have hselect : ∀ l : List Nat, (∀ i ∈ l, i < nodes.length) → selectKey (l.map (nodeKey nodes)) =
        (extractMin (nodeKey nodes) l).map fun r => (nodeKey nodes r.1, r.2.map (nodeKey nodes)) :=
      fun l hl => selectKey_map fun i hi j hj =>
        nodeKey_inj (by have := hl i hi; omega) (by have := hl j hj; omega)
    rw [networkLoop, mergeLoop, hselect pq hpq]
    rcases extractMin_cases (nodeKey nodes) pq with ⟨-, ha⟩ | ⟨a, pq1, ha, hpa⟩ <;> rw [ha]
    · rfl
    have hpq1 : ∀ i ∈ pq1, i < nodes.length := fun i hi => hpq i (hpa.symm.subset (List.mem_cons_of_mem a hi))
    simp only [Option.map_some, hselect pq1 hpq1]
    rcases extractMin_cases (nodeKey nodes) pq1 with ⟨-, hb⟩ | ⟨b, pq2, hb, hpb⟩ <;> rw [hb]
    · rfl
    have hpq2 : ∀ i ∈ pq2, i < nodes.length := fun i hi => hpq1 i (hpb.symm.subset (List.mem_cons_of_mem b hi))
    have hkeys : (pq2 ++ [nodes.length]).map (nodeKey (nodes ++ [mergedNode nodes a b])) =
        pq2.map (nodeKey nodes) ++ [(freqAt nodes a + freqAt nodes b) ++ BitVec.ofNat 9 nodes.length] := by
      rw [List.map_append, List.map_congr_left fun i hi => nodeKey_append (hpq2 i hi) _, List.map_singleton,
        nodeKey_last]
      rfl
    have hnext : ∀ i ∈ pq2 ++ [nodes.length], i < (nodes ++ [mergedNode nodes a b]).length := by
      intro i hi
      rw [List.length_append, List.length_singleton]
      rcases List.mem_append.1 hi with hi | hi
      · exact Nat.lt_succ_of_lt (hpq2 i hi)
      · rw [List.mem_singleton.1 hi]; exact Nat.lt_succ_self _
    simp only [Option.map_some, keyFreq_nodeKey, keyIdx_nodeKey]
    rw [← hkeys]
    exact ih hnext (by rw [List.length_append, List.length_singleton]; omega)

/-- Settles O30: at most 256 leaves and 256 merges need no index of more than 9 bits. -/
theorem mergeNetworkAgrees : Obligations.MergeNetworkAgrees := by
  intro freq
  have hle := length_leafList_le freq
  exact networkLoop_map_nodeKey _ (fun i hi => List.mem_range.1 hi) (by omega)

end Sys2Proof.Machine
end

section
/-! PROOFS, 41_tree_builder.md, the tree. The state BUILD leaves without a held error: on an empty table (R121), with one symbol (R125), with two (R122 to R124), and with any number (R120, R130); and GEN after it is a function of FREQ (R123). -/

namespace Sys2Proof.Machine

/-! ### The leaves, given the counted symbols (R120 step 1) -/

theorem leafList_eq_nil_iff {freq : Table Count Config.nsym} : leafList freq = [] ↔ ∀ y, freq.sym y = 0 := by
  rw [List.eq_nil_iff_forall_not_mem]
  constructor
  · intro h y
    by_contra hy
    exact h _ (mem_leafList.2 ⟨y, hy, rfl⟩)
  · rintro h n hn
    obtain ⟨y, hy, -⟩ := mem_leafList.1 hn
    exact hy (h y)

/-- The leaves ascend by symbol (R120). -/
theorem pairwise_leafList (freq : Table Count Config.nsym) :
    (leafList freq).Pairwise fun m n => m.sym.toNat < n.sym.toNat :=
  pairwise_leavesFrom ((Nat.zero_add _).trans freq.size).le

/-- The counted symbols in ascending order determine the leaves (R120). -/
theorem leafList_eq_map {freq : Table Count Config.nsym} {syms : List Byte}
    (hsyms : ∀ y, freq.sym y ≠ 0 ↔ y ∈ syms) (hasc : syms.Pairwise fun y z => y.toNat < z.toNat) :
    leafList freq = syms.map fun y => Node.leafOf y (zext40 (freq.sym y)) := by
  have hmap : (syms.map fun y => Node.leafOf y (zext40 (freq.sym y))).Pairwise
      fun m n => m.sym.toNat < n.sym.toNat := List.pairwise_map.2 hasc
  have hnodup : ∀ {l : List Node}, l.Pairwise (fun m n => m.sym.toNat < n.sym.toNat) → l.Nodup := fun h =>
    h.imp fun hlt heq => absurd (heq ▸ hlt) (Nat.lt_irrefl _)
  refine List.Perm.eq_of_pairwise (fun m n _ _ hmn hnm => absurd hmn (Nat.lt_asymm hnm))
    (pairwise_leafList freq) hmap
    ((List.perm_ext_iff_of_nodup (hnodup (pairwise_leafList freq)) (hnodup hmap)).2 fun n => ?_)
  rw [mem_leafList, List.mem_map]
  constructor
  · rintro ⟨y, hy, rfl⟩
    exact ⟨y, (hsyms y).1 hy, rfl⟩
  · rintro ⟨y, hy, rfl⟩
    exact ⟨y, (hsyms y).2 hy, rfl⟩

/-! ### What BUILD answers -/

/-- BUILD without a leaf, and the whole state it leaves (R121). -/
theorem buildTree_of_no_leaves {s : State} (hnil : leafList s.freq = []) :
    s.buildTree = { s.discardTree with err := .emptyAlphabet, errinfo := 0, errpos := 0 } := by
  rcases buildTree_cases s with ⟨-, hbuild⟩ | ⟨hne, -⟩
  · exact hbuild
  · exact absurd hnil hne

/-- BUILD with a leaf, and the whole state it leaves (R120). -/
theorem buildTree_of_leaves {s : State} (hne : leafList s.freq ≠ []) :
    s.buildTree = { s.discardTree with
      node := .ofPrefix (buildNodes s.freq).1 Node.free
      root := BitVec.ofNat 9 ((buildNodes s.freq).2.headD 0x1FF)
      nleaf := Fin.ofNat 257 (leafList s.freq).length
      nnodes := BitVec.ofNat 9 (buildNodes s.freq).1.length
      phase := .built } := by
  rcases buildTree_cases s with ⟨hnil, -⟩ | ⟨-, hbuild⟩
  · exact absurd hnil hne
  · exact hbuild

/-- Settles O22: without a count there is no leaf. -/
theorem buildOnEmptyTableRaises : Obligations.BuildOnEmptyTableRaises := by
  intro s hok hzero
  rw [exec_build hok, buildTree_of_no_leaves (leafList_eq_nil_iff.2 hzero)]
  rfl

/-- Settles O23: the forest of merges gives the tree, and the other pieces are read off. -/
theorem buildCompletesWithTree : Obligations.BuildCompletesWithTree := by
  rintro s hok ⟨y, hy⟩
  have hne : leafList s.freq ≠ [] := fun hnil => hy (leafList_eq_nil_iff.1 hnil y)
  refine ⟨_, exec_build hok, ?_, buildTree_treeOk hne, fun z => ?_, ?_⟩ <;> rw [buildTree_of_leaves hne]
  · exact Table.sym_fill _ z
  · exact frame_iff.2 (by simp)

/-- Settles O24: one leaf and a queue of one member need no merge. -/
theorem buildOneSymbolLeafIsRoot : Obligations.BuildOneSymbolLeafIsRoot := by
  intro s y hok hy hother
  have hleaf : leafList s.freq = [Node.leafOf y (zext40 (s.freq.sym y))] :=
    leafList_eq_map (syms := [y]) (fun z => by
      rw [List.mem_singleton]
      exact ⟨fun hz => by_contra fun hne => hz (hother z hne), fun hz => hz ▸ hy⟩) (List.pairwise_singleton _ _)
  have hnodes : buildNodes s.freq = ([Node.leafOf y (zext40 (s.freq.sym y))], [0]) := by
    rw [buildNodes, hleaf]; rfl
  refine ⟨_, exec_build hok, ?_⟩
  rw [buildTree_of_leaves (by rw [hleaf]; simp), hnodes, hleaf]
  refine ⟨rfl, rfl, rfl, rfl, rfl, fun n hn => ?_⟩
  rw [Table.cells_ofPrefix (show 1 ≤ 511 by decide)] at hn
  rcases List.mem_append.1 hn with hn | hn
  · rw [List.mem_singleton.1 hn]; exact fun h => nomatch h
  · rw [List.eq_of_mem_replicate hn]; exact fun h => nomatch h

/-! ### Two symbols (R122 to R124) -/

/-- With two leaves one merge is made, with the leaf of smaller key on the left. -/
theorem buildNodes_of_two_leaves {freq : Table Count Config.nsym} {m n : Node} (h : leafList freq = [m, n]) :
    buildNodes freq =
      if m.freq.toNat ≤ n.freq.toNat then ([m, n, Node.internalOf (m.freq + n.freq) 0 1], [2])
      else ([m, n, Node.internalOf (n.freq + m.freq) 1 0], [2]) := by
  have hkey : nodeKey [m, n] 1 < nodeKey [m, n] 0 ↔ n.freq.toNat < m.freq.toNat := by
    rw [nodeKey_lt_iff _ (by decide) (by decide)]
    simp [freqAt]
  rw [buildNodes, h]
  change mergeLoop 2 [m, n] [0, 1] = _
  by_cases hle : m.freq.toNat ≤ n.freq.toNat
  · rw [if_pos hle]
    simp [mergeLoop, extractMin, minMember, hkey, Nat.not_lt.2 hle, mergedNode, freqAt]
  · rw [if_neg hle]
    simp [mergeLoop, extractMin, minMember, hkey, Nat.lt_of_not_le hle, mergedNode, freqAt]

theorem toNat_zext40 (c : Count) : (zext40 c).toNat = c.toNat :=
  BitVec.toNat_setWidth_of_le (by decide)

/-- Two counts add without wrap in a node's frequency (R126). -/
theorem toNat_zext40_add (c d : Count) : (zext40 c + zext40 d).toNat = c.toNat + d.toNat := by
  have hc := c.isLt
  have hd := d.isLt
  rw [BitVec.toNat_add, toNat_zext40, toNat_zext40]
  omega

/-- Settles O25: two leaves, and the one merge that the order of their keys decides. -/
theorem buildTwoSymbolsFollowsKeyOrder : Obligations.BuildTwoSymbolsFollowsKeyOrder := by
  intro s x y hok hxy hx hy hother
  have hleaf : leafList s.freq = [Node.leafOf x (zext40 (s.freq.sym x)), Node.leafOf y (zext40 (s.freq.sym y))] :=
    leafList_eq_map (syms := [x, y]) (fun z => by
      rw [List.mem_pair]
      constructor
      · intro hz
        by_contra hne
        rw [not_or] at hne
        exact hz (hother z hne.1 hne.2)
      · rintro (rfl | rfl) <;> assumption) (List.pairwise_pair.2 hxy)
  refine ⟨_, exec_build hok, ?_⟩
  rw [buildTree_of_leaves (by rw [hleaf]; simp), buildNodes_of_two_leaves hleaf]
  simp only [Node.leafOf, toNat_zext40]
  by_cases hle : (s.freq.sym x).toNat ≤ (s.freq.sym y).toNat
  · simp only [if_pos hle]
    exact ⟨rfl, rfl, rfl, rfl, toNat_zext40_add _ _, rfl, rfl⟩
  · simp only [if_neg hle]
    exact ⟨rfl, rfl, rfl, rfl, (toNat_zext40_add _ _).trans (Nat.add_comm _ _), rfl, rfl⟩

/-! ### Depth (R130 (f)) -/

namespace CodeTree

/-- A path that leads from a code tree's root to a LEAF entry is the path of a leaf of the tree (R141). -/
theorem In.mem_leafPaths_of_follow {store : Table Node Config.nnode} {T : CodeTree} (h : T.In store)
    {path : BitSeq} {i : NodeIdx} (hfollow : Machine.follow store T.root path = some i)
    (hleaf : (nodeAt store i).kind = .leaf) : (i, path) ∈ T.leafPaths := by
  induction T generalizing path with
  | leaf j =>
    have hkind : (nodeAt store j).kind = .leaf := h
    cases path with
    | nil =>
      obtain rfl : j = i := Option.some.inj hfollow
      exact List.mem_singleton_self _
    | cons b rest => simp [root, Machine.follow, hkind] at hfollow
  | node j l r ihl ihr =>
    obtain ⟨hkind, hleft, hright, hl, hr⟩ := h
    cases path with
    | nil =>
      obtain rfl : j = i := Option.some.inj hfollow
      simp [hkind] at hleaf
    | cons b rest =>
      rw [root, Machine.follow, if_pos hkind, childOf] at hfollow
      cases b with
      | false => exact mem_leafPaths_node.2 (.inl ⟨rest, ihl hl (by rwa [if_neg (by simp), hleft] at hfollow), rfl⟩)
      | true => exact mem_leafPaths_node.2 (.inr ⟨rest, ihr hr (by rwa [if_pos rfl, hright] at hfollow), rfl⟩)

end CodeTree

/-- Settles O27: the path is a leaf's path in the root's code tree, and with two leaves the root is none. -/
theorem leafDepthBound : Obligations.LeafDepthBound := by
  intro s path i h hfollow hleaf
  obtain ⟨T, hT, hIn⟩ := h.exists_codeTree (Nat.le_refl _)
  have hlt := T.length_path_lt (hIn.mem_leafPaths_of_follow (hT ▸ hfollow) hleaf)
  have hle := h.length_leafPaths_le hT hIn
  refine ⟨by omega, fun hmany => List.length_pos_iff.2 ?_⟩
  rintro rfl
  obtain rfl : s.root = i := Option.some.inj hfollow
  have hroot := h.lt_nleaf_of_leaf hleaf
  rw [h.counts.2] at hroot
  omega

/-! ### A function of FREQ (R123) -/

/-- The pieces that BUILD and GEN neither make from FREQ nor keep FREQ in. -/
def besideFreq : List Piece := [.ibuf, .obuf, .port, .errinfo, .errpos]

/-- BUILD makes the same of equal FREQ, errors included (R120, R121). -/
theorem buildTree_sameBesideFreq {s s' : State} (hok : s.err = .none) (hok' : s'.err = .none)
    (hfreq : s.freq = s'.freq) :
    Frame besideFreq s.buildTree s'.buildTree := by
  by_cases hnil : leafList s.freq = []
  · rw [buildTree_of_no_leaves hnil, buildTree_of_no_leaves (s := s') (hfreq ▸ hnil)]
    exact frame_iff.2 (by simp [besideFreq, hfreq])
  · rw [buildTree_of_leaves hnil, buildTree_of_leaves (s := s') (hfreq ▸ hnil)]
    exact frame_iff.2 (by simp [besideFreq, hfreq, hok, hok'])

/-- GEN makes the same of equal trees, errors included (R140, R144). -/
theorem genTable_sameBesideFreq {t t' : State} (h : Frame besideFreq t t') :
    Frame besideFreq t.genTable t'.genTable := by
  have hgen : generate t'.node t'.root = generate t.node t.root := by
    rw [show t'.node = t.node from h .node (by decide), show t'.root = t.root from h .root (by decide)]
  have hpieces := frame_iff.1 h
  simp only [besideFreq] at hpieces
  rcases genTable_cases t with ⟨table, ht, heq⟩ | ⟨i, n, ht, heq⟩ <;>
    rcases genTable_cases t' with ⟨table', ht', heq'⟩ | ⟨i', n', ht', heq'⟩ <;>
    rw [hgen, ht] at ht' <;> cases ht' <;> rw [heq, heq']
  · exact frame_iff.2 (by simp [besideFreq, hpieces])
  · exact frame_iff.2 (by simp [besideFreq, hpieces])

/-- GEN, dropped, illegal or performed, makes the same of equal trees (R123, R150 (e)). -/
theorem exec_gen_sameBesideFreq {t t' u u' : State} (h : Frame besideFreq t t') (hu : exec .gen t = .next u)
    (hu' : exec .gen t' = .next u') : Frame besideFreq u u' := by
  have herr : t'.err = t.err := h .err (by decide)
  have hphase : t'.phase = t.phase := h .phase (by decide)
  by_cases hok : t.err = .none
  · by_cases hp : t.phase = .collect
    · rw [exec_gen_of_collect hok hp] at hu
      rw [exec_gen_of_collect (herr.trans hok) (hphase.trans hp)] at hu'
      cases hu
      cases hu'
      have hpieces := frame_iff.1 h
      simp only [besideFreq] at hpieces
      exact frame_iff.2 (by simp [besideFreq, hpieces])
    · rw [exec_gen hok hp] at hu
      rw [exec_gen (herr.trans hok) (hphase ▸ hp)] at hu'
      cases hu
      cases hu'
      exact genTable_sameBesideFreq h
  · rw [exec_of_fault hok (by decide)] at hu
    rw [exec_of_fault (herr ▸ hok) (by decide)] at hu'
    cases hu
    cases hu'
    exact h

/-- Settles O28: BUILD and then GEN keep two machines alike in every piece that FREQ determines. -/
theorem tableIsFunctionOfFreq : Obligations.TableIsFunctionOfFreq := by
  intro s s' t t' u u' hok hok' hfreq ht ht' hu hu'
  rw [exec_build hok] at ht
  rw [exec_build hok'] at ht'
  cases ht
  cases ht'
  exact exec_gen_sameBesideFreq (buildTree_sameBesideFreq hok hok' hfreq) hu hu'

end Sys2Proof.Machine
end

section
/-! PROOFS, 41_tree_builder.md, optimality, the bound. Code lengths that meet Kraft's inequality cost at least what the merges add up to: the two least weights can be given the two greatest lengths, and then be merged (R131). -/

namespace Sys2Proof.Machine

/-! ### Kraft's inequality for codes none of which begins another -/

/-- The sum of Kraft's inequality over code lengths. -/
def kraftSum (lengths : List Nat) : ℚ := (lengths.map fun n => (1 / 2 : ℚ) ^ n).sum

@[simp] theorem kraftSum_cons (n : Nat) (lengths : List Nat) :
    kraftSum (n :: lengths) = (1 / 2) ^ n + kraftSum lengths := by
  rw [kraftSum, List.map_cons, List.sum_cons, kraftSum]

theorem kraftSum_perm {l m : List Nat} (h : l.Perm m) : kraftSum l = kraftSum m :=
  (h.map _).sum_eq

theorem kraftSum_nonneg (lengths : List Nat) : 0 ≤ kraftSum lengths := by
  refine List.sum_nonneg fun x hx => ?_
  obtain ⟨n, -, rfl⟩ := List.mem_map.1 hx
  positivity

/-- Non-empty codes none of which begins another can be told apart in any concatenation. -/
theorem uniquelyDecodable_of_prefixFree {α : Type} {S : Set (List α)} (hne : [] ∉ S)
    (hfree : ∀ c ∈ S, ∀ d ∈ S, c <+: d → c = d) : InformationTheory.UniquelyDecodable S := by
  intro l m hl hm heq
  induction l generalizing m with
  | nil =>
    cases m with
    | nil => rfl
    | cons d m =>
      obtain ⟨hd, -⟩ := List.append_eq_nil_iff.1 heq.symm
      exact absurd (hd ▸ hm d List.mem_cons_self) hne
  | cons c l ih =>
    obtain ⟨hc, hl⟩ := List.forall_mem_cons.1 hl
    cases m with
    | nil =>
      obtain ⟨rfl, -⟩ := List.append_eq_nil_iff.1 heq
      exact absurd hc hne
    | cons d m =>
      obtain ⟨hd, hrest⟩ := List.forall_mem_cons.1 hm
      rw [List.flatten_cons, List.flatten_cons] at heq
      have hcd : c = d := by
        rcases List.prefix_or_prefix_of_prefix (heq ▸ List.prefix_append c l.flatten) (List.prefix_append d m.flatten)
          with h | h
        · exact hfree c hc d hd h
        · exact (hfree d hd c hc h).symm
      subst hcd
      rw [ih m hl hrest (List.append_cancel_left heq)]

/-- Kraft's inequality for a list of distinct non-empty codes, none of which begins another. -/
theorem kraftSum_le_one {codes : List BitSeq} (hnodup : codes.Nodup) (hne : [] ∉ codes)
    (hfree : ∀ c ∈ codes, ∀ d ∈ codes, c <+: d → c = d) : kraftSum (codes.map List.length) ≤ 1 := by
  have hdec : InformationTheory.UniquelyDecodable (codes.toFinset : Set BitSeq) :=
    uniquelyDecodable_of_prefixFree (by simpa using hne) (by simpa using hfree)
  have hkraft := InformationTheory.kraft_mcmillan_inequality hdec
  rw [List.sum_toFinset _ hnodup] at hkraft
  have hreal : ((kraftSum (codes.map List.length) : ℚ) : ℝ) ≤ 1 := by
    rw [kraftSum, List.map_map, Rat.cast_list_sum, List.map_map]
    simpa [Function.comp_def] using hkraft
  exact_mod_cast hreal

/-- Over lengths of at most `k` Kraft's sum is a whole number of `2 ^ -k`. -/
theorem exists_kraftSum_eq {lengths : List Nat} {k : Nat} (h : ∀ n ∈ lengths, n ≤ k) :
    ∃ N : Nat, kraftSum lengths = N * (1 / 2) ^ k := by
  induction lengths with
  | nil => exact ⟨0, by simp [kraftSum]⟩
  | cons n lengths ih =>
    obtain ⟨hn, hrest⟩ := List.forall_mem_cons.1 h
    obtain ⟨N, hN⟩ := ih hrest
    have hpow : (1 / 2 : ℚ) ^ n = 2 ^ (k - n) * (1 / 2) ^ k := by
      obtain ⟨d, rfl⟩ := Nat.exists_eq_add_of_le hn
      rw [Nat.add_sub_cancel_left, pow_add, mul_left_comm, ← mul_pow]
      norm_num
    refine ⟨2 ^ (k - n) + N, ?_⟩
    rw [kraftSum_cons, hpow, hN]
    push_cast
    ring

/-- A length greater than all others can be cut down to their bound. -/
theorem kraftSum_shorten {lengths : List Nat} {k n : Nat} (h : ∀ m ∈ lengths, m ≤ k)
    (hkraft : kraftSum (n :: lengths) ≤ 1) : kraftSum (k :: lengths) ≤ 1 := by
  obtain ⟨N, hN⟩ := exists_kraftSum_eq h
  rw [kraftSum_cons, hN] at hkraft ⊢
  have hpow : (2 : ℚ) ^ k * (1 / 2) ^ k = 1 := by rw [← mul_pow]; norm_num
  have hk : (0 : ℚ) < (1 / 2) ^ k := by positivity
  have hn : (0 : ℚ) < (1 / 2) ^ n := by positivity
  have hlt : (N : ℚ) < 2 ^ k := lt_of_mul_lt_mul_right (by linarith) hk.le
  have hle : (N : ℚ) + 1 ≤ 2 ^ k := by exact_mod_cast hlt
  calc (1 / 2 : ℚ) ^ k + N * (1 / 2) ^ k = (N + 1) * (1 / 2) ^ k := by ring
    _ ≤ 2 ^ k * (1 / 2) ^ k := mul_le_mul_of_nonneg_right hle hk.le
    _ = 1 := hpow

/-! ### Weights with code lengths -/

/-- The cost of code lengths: each pair is a weight and its code's length (R131). -/
def weightedLength (pairs : List (Nat × Nat)) : Nat := (pairs.map fun p => p.1 * p.2).sum

@[simp] theorem weightedLength_cons (p : Nat × Nat) (pairs : List (Nat × Nat)) :
    weightedLength (p :: pairs) = p.1 * p.2 + weightedLength pairs := rfl

theorem weightedLength_perm {l m : List (Nat × Nat)} (h : l.Perm m) : weightedLength l = weightedLength m :=
  (h.map _).sum_eq

/-- Giving the smaller of two weights the greater of two lengths costs no more. -/
theorem mul_max_add_mul_min_le {a w : Nat} (haw : a ≤ w) (m n : Nat) :
    a * max m n + w * min m n ≤ a * m + w * n := by
  obtain ⟨d, rfl⟩ := Nat.exists_eq_add_of_le haw
  have hmin : d * min m n ≤ d * n := Nat.mul_le_mul_left d (Nat.min_le_right m n)
  calc a * max m n + (a + d) * min m n = a * (max m n + min m n) + d * min m n := by ring
    _ ≤ a * (m + n) + d * n := by rw [max_add_min]; omega
    _ = a * m + (a + d) * n := by ring

/-- A least weight can be given the greatest length, with the lengths permuted and at no more cost. -/
theorem exists_longest_first {a : Nat} (n : Nat) {pairs : List (Nat × Nat)} (ha : ∀ p ∈ pairs, a ≤ p.1) :
    ∃ k out, out.map Prod.fst = pairs.map Prod.fst ∧ (k :: out.map Prod.snd).Perm (n :: pairs.map Prod.snd) ∧
      (∀ p ∈ out, p.2 ≤ k) ∧ weightedLength ((a, k) :: out) ≤ weightedLength ((a, n) :: pairs) := by
  induction pairs generalizing n with
  | nil => exact ⟨n, [], rfl, List.Perm.refl _, by simp, Nat.le_refl _⟩
  | cons p pairs ih =>
    obtain ⟨w, m⟩ := p
    obtain ⟨haw, hrest⟩ := List.forall_mem_cons.1 ha
    change a ≤ w at haw
    obtain ⟨k, out, hfst, hsnd, hle, hcost⟩ := ih (max n m) hrest
    have hk : max n m ≤ k := by
      rcases List.mem_cons.1 (hsnd.symm.subset List.mem_cons_self) with h | h
      · exact h.le
      · obtain ⟨q, hq, hqm⟩ := List.mem_map.1 h
        exact hqm ▸ hle q hq
    have hpair : [max n m, min n m].Perm [n, m] := by
      rcases Nat.le_total n m with h | h
      · rw [max_eq_right h, min_eq_left h]; exact List.Perm.swap n m []
      · rw [max_eq_left h, min_eq_right h]
    refine ⟨k, (w, min n m) :: out, by simp [hfst], ?_, ?_, ?_⟩
    · calc List.Perm (k :: min n m :: out.map Prod.snd) (min n m :: k :: out.map Prod.snd) := List.Perm.swap _ _ _
        List.Perm _ (min n m :: max n m :: pairs.map Prod.snd) := hsnd.cons _
        List.Perm _ (max n m :: min n m :: pairs.map Prod.snd) := List.Perm.swap _ _ _
        List.Perm _ (n :: m :: pairs.map Prod.snd) := hpair.append_right _
    · exact List.forall_mem_cons.2 ⟨(min_le_max).trans hk, hle⟩
    · have hexchange := mul_max_add_mul_min_le haw n m
      simp only [weightedLength_cons] at hcost ⊢
      omega

/-- A code of greatest length has company when Kraft's inequality holds, and the two make one code a bit shorter. -/
theorem exists_kraftSum_merge {lengths : List Nat} {j : Nat} (h : kraftSum (j :: j :: lengths) ≤ 1) :
    ∃ i, j = i + 1 ∧ kraftSum (i :: lengths) ≤ 1 := by
  rw [kraftSum_cons, kraftSum_cons] at h
  cases j with
  | zero =>
    have hnonneg := kraftSum_nonneg lengths
    rw [pow_zero] at h
    linarith
  | succ i =>
    refine ⟨i, rfl, ?_⟩
    rw [pow_succ] at h
    rw [kraftSum_cons]
    linarith

/-- Two least weights can be replaced by their sum, and the cost falls by at least the sum (R131). -/
theorem exists_merged_lengths {a b : Nat} {rest : List Nat} {pairs : List (Nat × Nat)}
    (hpairs : pairs.map Prod.fst = a :: b :: rest) (ha : ∀ w ∈ b :: rest, a ≤ w) (hb : ∀ w ∈ rest, b ≤ w)
    (hkraft : kraftSum (pairs.map Prod.snd) ≤ 1) :
    ∃ merged : List (Nat × Nat), merged.map Prod.fst = (a + b) :: rest ∧ kraftSum (merged.map Prod.snd) ≤ 1 ∧
      weightedLength merged + (a + b) ≤ weightedLength pairs := by
  obtain ⟨⟨a, n⟩, others, rfl, rfl, hothers⟩ := List.map_eq_cons_iff.1 hpairs
  obtain ⟨k, out, hout, hlengths, hk, hcost⟩ := exists_longest_first n (List.forall_mem_map.1 (hothers ▸ ha))
  obtain ⟨⟨b, m⟩, out, rfl, rfl, hrest⟩ := List.map_eq_cons_iff.1 (hout.trans hothers)
  obtain ⟨j, last, hlast, hlengths', hj, hcost'⟩ := exists_longest_first m (List.forall_mem_map.1 (hrest ▸ hb))
  obtain ⟨hmk, houtk⟩ := List.forall_mem_cons.1 hk
  have hmax : ∀ l ∈ m :: out.map Prod.snd, l ≤ k := List.forall_mem_cons.2 ⟨hmk, List.forall_mem_map.2 houtk⟩
  have hjk : j ≤ k := hmax j (hlengths'.subset List.mem_cons_self)
  have hlong : kraftSum (k :: j :: last.map Prod.snd) ≤ 1 := by
    rw [kraftSum_perm ((hlengths'.cons k).trans hlengths)]
    exact hkraft
  obtain ⟨i, rfl, hshort⟩ := exists_kraftSum_merge
    (kraftSum_shorten (List.forall_mem_cons.2 ⟨Nat.le_refl j, List.forall_mem_map.2 hj⟩) hlong)
  refine ⟨(a + b, i) :: last, by rw [List.map_cons, hlast, hrest], hshort, ?_⟩
  have hdeeper : a * (i + 1) ≤ a * k := Nat.mul_le_mul_left a hjk
  simp only [weightedLength_cons] at hcost hcost' ⊢
  linarith

/-! ### What the merges add up to (R120 step 2) -/

/-- The frequency of an INTERNAL node, and 0 of any other. -/
def internalFreq (n : Node) : Nat := if n.kind = .internal then n.freq.toNat else 0

/-- The sum of the frequencies of the nodes merges made. -/
def mergedFreq (nodes : List Node) : Nat := (nodes.map internalFreq).sum

/-- Reading a list at each of its positions reads the list. -/
theorem map_range_getD {α β : Type} (f : α → β) (l : List α) (d : α) :
    (List.range l.length).map (fun i => f (l.getD i d)) = l.map f := by
  apply List.ext_getElem (by simp)
  intro i hi _
  have hlt : i < l.length := by simpa using hi
  simp [hlt]

/-- A list that is a permutation of images is the list of images of a permutation. -/
theorem exists_perm_map_eq {α β : Type} {f : α → β} {l : List α} {m : List β} (h : (l.map f).Perm m) :
    ∃ l' : List α, l'.Perm l ∧ l'.map f = m := by
  have hcomp := List.eq_map_comp_perm (α := α) f
  have hm : (fun a b => List.Perm a (List.map f b)) m l := h.symm
  rw [← hcomp] at hm
  obtain ⟨l', rfl, hl'⟩ := hm
  exact ⟨l', hl', rfl⟩

namespace Forest

variable {leaves nodes : List Node} {pq rest : List Nat} {a b : Nat} (h : Forest leaves nodes pq)
  (htotal : (leaves.map fun n => n.freq.toNat).sum < 2 ^ 40) (hpq : pq.Perm (a :: b :: rest))

include h htotal hpq

/-- The two frequencies a merge adds do not wrap (R126). -/
theorem toNat_add_freqAt :
    (freqAt nodes a + freqAt nodes b).toNat = (freqAt nodes a).toNat + (freqAt nodes b).toNat := by
  have hsum := h.total
  rw [(hpq.map _).sum_eq, List.map_cons, List.map_cons, List.sum_cons, List.sum_cons] at hsum
  rw [BitVec.toNat_add]
  omega

/-- The weights in the queue after a merge (R120 step 2). -/
theorem freqs_merge :
    ((rest ++ [nodes.length]).map fun i => (freqAt (nodes ++ [mergedNode nodes a b]) i).toNat).Perm
      (((freqAt nodes a).toNat + (freqAt nodes b).toNat) :: rest.map fun i => (freqAt nodes i).toNat) := by
  have hrest : (rest.map fun i => (freqAt (nodes ++ [mergedNode nodes a b]) i).toNat) =
      rest.map fun i => (freqAt nodes i).toNat :=
    List.map_congr_left fun i hi => by
      rw [freqAt_append (h.lt_of_mem (hpq.symm.subset (by simp [hi])))]
  have hlast : (freqAt (nodes ++ [mergedNode nodes a b]) nodes.length).toNat =
      (freqAt nodes a).toNat + (freqAt nodes b).toNat := by
    rw [← h.toNat_add_freqAt htotal hpq]
    simp [freqAt, mergedNode, Node.internalOf]
  rw [List.map_append, hrest, List.map_singleton, hlast]
  exact List.perm_append_singleton _ _

/-- A merge adds the frequency of its node (R120 step 2, R126). -/
theorem mergedFreq_merge :
    mergedFreq (nodes ++ [mergedNode nodes a b]) =
      mergedFreq nodes + ((freqAt nodes a).toNat + (freqAt nodes b).toNat) := by
  rw [← h.toNat_add_freqAt htotal hpq]
  simp [mergedFreq, internalFreq, mergedNode, Node.internalOf]

end Forest

/-- No member left in the queue has a smaller frequency than the extracted one (R122). -/
theorem extractMin_freq_le {nodes : List Node} {pq rest : List Nat} {m : Nat} (hlt : ∀ i ∈ pq, i < 512)
    (hperm : pq.Perm (m :: rest)) (h : extractMin (nodeKey nodes) pq = some (m, rest)) :
    ∀ j ∈ rest, (freqAt nodes m).toNat ≤ (freqAt nodes j).toNat := by
  intro j hj
  have hle := extractMin_le h j hj
  have hm := hlt m (hperm.symm.subset List.mem_cons_self)
  have hj := hlt j (hperm.symm.subset (List.mem_cons_of_mem m hj))
  rw [BitVec.le_def, toNat_nodeKey nodes hm, toNat_nodeKey nodes hj] at hle
  omega

/-- The frequencies the merges make add up to no more than any code lengths for the queue's members cost (R131). -/
theorem mergedFreq_mergeLoop_le {leaves nodes : List Node} {pq : List Nat} (hcount : leaves.length ≤ 256)
    (htotal : (leaves.map fun n => n.freq.toNat).sum < 2 ^ 40) (fuel : Nat) (h : Forest leaves nodes pq)
    {pairs : List (Nat × Nat)} (hpairs : (pairs.map Prod.fst).Perm (pq.map fun i => (freqAt nodes i).toNat))
    (hkraft : kraftSum (pairs.map Prod.snd) ≤ 1) :
    mergedFreq (mergeLoop fuel nodes pq).1 ≤ mergedFreq nodes + weightedLength pairs := by
  induction fuel generalizing nodes pq pairs with
  | zero => exact Nat.le_add_right _ _
  | succ fuel ih =>
    rw [mergeLoop]
    rcases extractMin_cases (nodeKey nodes) pq with ⟨-, ha⟩ | ⟨a, pq1, ha, hpa⟩
    · rw [ha]; exact Nat.le_add_right _ _
    rcases extractMin_cases (nodeKey nodes) pq1 with ⟨-, hb⟩ | ⟨b, rest, hb, hpb⟩
    · simp only [ha, hb]; exact Nat.le_add_right _ _
    simp only [ha, hb]
    have hpq : pq.Perm (a :: b :: rest) := hpa.trans (hpb.cons a)
    have hsize := h.size
    have hlt : ∀ i ∈ pq, i < 512 := fun i hi => by have := h.lt_of_mem hi; omega
    have hlt1 : ∀ i ∈ pq1, i < 512 := fun i hi => hlt i (hpa.symm.subset (List.mem_cons_of_mem a hi))
    have hmin := extractMin_freq_le hlt hpa ha
    have hmin1 := extractMin_freq_le hlt1 hpb hb
    obtain ⟨sorted, hsorted, hfst⟩ := exists_perm_map_eq (hpairs.trans (hpq.map _))
    obtain ⟨merged, hmerged, hshort, hcost⟩ := exists_merged_lengths hfst
      (List.forall_mem_map.2 fun i hi => hmin i (hpb.symm.subset hi)) (List.forall_mem_map.2 hmin1)
      (by rw [kraftSum_perm (hsorted.map _)]; exact hkraft)
    have hrec := ih (h.merge hcount htotal hpq) (hmerged ▸ (h.freqs_merge htotal hpq).symm) hshort
    rw [h.mergedFreq_merge htotal hpq] at hrec
    rw [weightedLength_perm hsorted] at hcost
    dsimp only at hcost
    omega

/-! ### The leaves' codes (R131) -/

/-- The symbols with a count, in ascending order. -/
def countedSyms (freq : Table Count Config.nsym) : List Byte := (leafList freq).map Node.sym

theorem mem_countedSyms {freq : Table Count Config.nsym} {y : Byte} : y ∈ countedSyms freq ↔ freq.sym y ≠ 0 := by
  rw [countedSyms, List.mem_map]
  constructor
  · rintro ⟨n, hn, rfl⟩
    obtain ⟨y, hy, rfl⟩ := mem_leafList.1 hn
    exact hy
  · intro hy
    exact ⟨_, mem_leafList.2 ⟨y, hy, rfl⟩, rfl⟩

theorem nodup_countedSyms (freq : Table Count Config.nsym) : (countedSyms freq).Nodup :=
  List.pairwise_map.2 ((pairwise_leafList freq).imp fun hlt heq => absurd (heq ▸ hlt) (Nat.lt_irrefl _))

/-- The leaves' frequencies are the counts of the counted symbols (R120 step 1). -/
theorem map_freq_leafList (freq : Table Count Config.nsym) :
    ((leafList freq).map fun n => n.freq.toNat) = (countedSyms freq).map fun y => (freq.sym y).toNat := by
  rw [countedSyms, List.map_map]
  refine List.map_congr_left fun n hn => ?_
  obtain ⟨y, -, rfl⟩ := mem_leafList.1 hn
  exact toNat_zext40 _

/-- Lists without repeats sum to the same where one holds all that counts of the other. -/
theorem sum_map_of_subset {α : Type} [DecidableEq α] {f : α → Nat} {l m : List α} (hl : l.Nodup) (hm : m.Nodup)
    (hsub : l ⊆ m) (hzero : ∀ a ∈ m, a ∉ l → f a = 0) : (l.map f).sum = (m.map f).sum := by
  rw [← List.sum_toFinset f hl, ← List.sum_toFinset f hm]
  exact Finset.sum_subset (fun a ha => List.mem_toFinset.2 (hsub (List.mem_toFinset.1 ha)))
    fun a ha hna => hzero a (List.mem_toFinset.1 ha) fun h => hna (List.mem_toFinset.2 h)

/-- A cost is the sum over any symbols among which are all with a count (R131). -/
theorem costOf_eq_sum {freq : Table Count Config.nsym} (c : Byte → BitSeq) {syms : List Byte} (hnodup : syms.Nodup)
    (hsyms : ∀ y, freq.sym y ≠ 0 → y ∈ syms) :
    costOf freq c = (syms.map fun y => (freq.sym y).toNat * (c y).length).sum := by
  have hinj : ∀ i ∈ List.range 256, ∀ j ∈ List.range 256, BitVec.ofNat 8 i = BitVec.ofNat 8 j → i = j := by
    intro i hi j hj h
    have hnat := congrArg BitVec.toNat h
    rw [BitVec.toNat_ofNat, BitVec.toNat_ofNat] at hnat
    rw [List.mem_range] at hi hj
    omega
  have hall : ∀ y : Byte, y ∈ (List.range 256).map (BitVec.ofNat 8) := fun y =>
    List.mem_map.2 ⟨y.toNat, List.mem_range.2 y.isLt, by rw [BitVec.ofNat_toNat, BitVec.setWidth_eq]⟩
  rw [sum_map_of_subset hnodup (List.nodup_range.map_on hinj) (fun y _ => hall y), List.map_map]
  · rfl
  · intro y _ hy
    have hzero : freq.sym y = 0 := by_contra fun h => hy (hsyms y h)
    rw [hzero]
    exact Nat.zero_mul _

/-- The codes of the counted symbols meet Kraft's inequality. -/
theorem PrefixFreeAssignment.kraftSum_le_one {freq : Table Count Config.nsym} {c : Byte → BitSeq}
    (hc : PrefixFreeAssignment freq c) : kraftSum ((countedSyms freq).map fun y => (c y).length) ≤ 1 := by
  obtain ⟨hne, hfree⟩ := hc
  have hsame : ∀ y ∈ countedSyms freq, ∀ z ∈ countedSyms freq, c y <+: c z → y = z := fun y hy z hz h =>
    by_contra fun hyz => hfree y z hyz (mem_countedSyms.1 hy) (mem_countedSyms.1 hz) h
  have hcodes : kraftSum (((countedSyms freq).map c).map List.length) ≤ 1 := by
    refine Machine.kraftSum_le_one
      ((nodup_countedSyms freq).map_on fun y hy z hz h => hsame y hy z hz (h ▸ List.prefix_refl _)) (fun hmem => ?_) ?_
    · obtain ⟨y, hy, hnil⟩ := List.mem_map.1 hmem
      exact hne y (mem_countedSyms.1 hy) hnil
    · simp only [List.forall_mem_map]
      exact fun y hy z hz h => congrArg c (hsame y hy z hz h)
  rwa [List.map_map] at hcodes

/-- Non-empty codes none of which begins another cost at least what the merges of BUILD add up to (R131). -/
theorem mergedFreq_buildNodes_le {freq : Table Count Config.nsym} {c : Byte → BitSeq}
    (hc : PrefixFreeAssignment freq c) : mergedFreq (buildNodes freq).1 ≤ costOf freq c := by
  have hleaf : ∀ n ∈ leafList freq, n.kind = .leaf := fun n hn => by
    obtain ⟨y, -, rfl⟩ := mem_leafList.1 hn
    rfl
  have hstart : mergedFreq (leafList freq) = 0 :=
    List.sum_eq_zero (List.forall_mem_map.2 fun n hn => if_neg (by rw [hleaf n hn]; decide))
  have hweights : ((List.range (leafList freq).length).map fun i => (freqAt (leafList freq) i).toNat) =
      (countedSyms freq).map fun y => (freq.sym y).toNat :=
    (map_range_getD (fun n => n.freq.toNat) (leafList freq) Node.free).trans (map_freq_leafList freq)
  have hle := mergedFreq_mergeLoop_le (length_leafList_le freq) (sum_leafList freq ▸ totalCount_lt freq)
    (leafList freq).length (Forest.start hleaf)
    (pairs := (countedSyms freq).map fun y => ((freq.sym y).toNat, (c y).length))
    (by rw [hweights, List.map_map]; exact List.Perm.refl _)
    (by rw [List.map_map]; exact hc.kraftSum_le_one)
  rw [hstart, Nat.zero_add, weightedLength, List.map_map] at hle
  rw [costOf_eq_sum c (nodup_countedSyms freq) fun y => mem_countedSyms.2]
  exact hle

end Sys2Proof.Machine
end

section
/-! PROOFS, 41_tree_builder.md, optimality, the tree. The codes of BUILD and GEN cost what the merges add up to, which is the least cost (R131). -/

namespace Sys2Proof.Machine

/-! ### The cost of a code tree's paths -/

namespace CodeTree

/-- The frequency of a node of the store. -/
def freqIn (store : Table Node Config.nnode) (i : NodeIdx) : Nat := (nodeAt store i).freq.toNat

section
variable {store : Table Node Config.nnode}
  (hsum : ∀ i, (nodeAt store i).kind = .internal →
    freqIn store i = freqIn store (nodeAt store i).left + freqIn store (nodeAt store i).right)

include hsum

/-- A tree's leaves sum to its root, when inner nodes sum their children (R130 (e)). -/
theorem In.sum_leaf_freq {T : CodeTree} (h : T.In store) :
    (T.leafPaths.map fun e => freqIn store e.1).sum = freqIn store T.root := by
  induction T with
  | leaf i => simp [leafPaths, root]
  | node i l r ihl ihr =>
    obtain ⟨hkind, hleft, hright, hl, hr⟩ := h
    rw [leafPaths, List.map_append, List.sum_append, List.map_map, List.map_map, root, hsum i hkind, hleft, hright,
      ← ihl hl, ← ihr hr]
    rfl

/-- The leaves' frequencies times their depths sum to the frequencies of the inner nodes. -/
theorem In.sum_path_cost {T : CodeTree} (h : T.In store) :
    (T.leafPaths.map fun e => freqIn store e.1 * e.2.length).sum =
      (T.indices.map fun i => internalFreq (nodeAt store i)).sum := by
  induction T with
  | leaf i =>
    have hkind : (nodeAt store i).kind = .leaf := h
    simp [leafPaths, indices, internalFreq, hkind]
  | node i l r ihl ihr =>
    obtain ⟨hkind, hleft, hright, hl, hr⟩ := h
    have hdeeper : ∀ (U : CodeTree) (b : Bool), U.In store →
        ((U.leafPaths.map fun e => (e.1, b :: e.2)).map fun e => freqIn store e.1 * e.2.length).sum =
          (U.leafPaths.map fun e => freqIn store e.1 * e.2.length).sum + freqIn store U.root := by
      intro U b hU
      rw [← hU.sum_leaf_freq hsum, ← List.sum_map_add, List.map_map]
      rfl
    have hroot : internalFreq (nodeAt store i) = freqIn store l.root + freqIn store r.root := by
      rw [internalFreq, if_pos hkind, ← hleft, ← hright]
      exact hsum i hkind
    rw [leafPaths, List.map_append, List.sum_append, hdeeper l false hl, hdeeper r true hr, ihl hl, ihr hr, indices,
      List.map_cons, List.map_append, List.sum_cons, List.sum_append, hroot]
    omega

end

end CodeTree

open CodeTree (freqIn)

namespace TreeOk

variable {s : State} (h : TreeOk s)

include h

/-- An INTERNAL entry's frequency is the sum of its children's (R130 (b), (e)). -/
theorem freqIn_of_internal (i : NodeIdx) (hkind : (nodeAt s.node i).kind = .internal) :
    freqIn s.node i = freqIn s.node (nodeAt s.node i).left + freqIn s.node (nodeAt s.node i).right := by
  have hlt : i.toNat < 2 * s.nleaf.val - 1 := by
    by_contra hle
    simp [h.free_of_root_lt (i := i) (by omega), Node.free] at hkind
  have hle : s.nleaf.val ≤ i.toNat := by
    by_contra hlt
    simp [h.kind_of_lt_nleaf (i := i) (by omega)] at hkind
  simp only [freqIn, nodeAt_eq_nodeNo]
  exact h.sums _ hlt hle

/-- A LEAF entry's frequency is its symbol's count (R130 (a)). -/
theorem freqIn_of_leaf {i : NodeIdx} (hkind : (nodeAt s.node i).kind = .leaf) :
    freqIn s.node i = (s.freq.sym (nodeAt s.node i).sym).toNat := by
  rw [freqIn, nodeAt_eq_nodeNo, (h.leaves _ (h.lt_nleaf_of_leaf hkind)).2]
  exact toNat_zext40 _

variable {T : CodeTree} (hT : T.root = s.root) (hIn : T.In s.node)

include hT hIn

/-- The entries up to the root are the nodes of the root's tree (R130 (d)). -/
theorem indices_perm_range : (T.indices.map BitVec.toNat).Perm (List.range (s.root.toNat + 1)) := by
  have hnodup := (h.nodup_indices hT hIn).map (f := BitVec.toNat) fun _ _ => BitVec.eq_of_toNat_eq
  refine (List.perm_ext_iff_of_nodup hnodup List.nodup_range).2 fun n => ?_
  rw [List.mem_map, List.mem_range]
  constructor
  · rintro ⟨j, hj, rfl⟩
    exact Nat.lt_succ_of_le (h.le_root_of_mem hT hIn hj)
  · intro hn
    have hroot := s.root.isLt
    have hidx : (BitVec.ofNat 9 n).toNat = n := by rw [BitVec.toNat_ofNat]; omega
    refine ⟨BitVec.ofNat 9 n, List.count_pos_iff.1 ?_, hidx⟩
    rw [h.count_indices hT hIn (by omega)]
    exact Nat.one_pos

/-- The cost of the root's tree is the sum of the INTERNAL entries' frequencies (R130 (e), R131). -/
theorem sum_path_cost : (T.leafPaths.map fun e => freqIn s.node e.1 * e.2.length).sum =
    ((List.range (s.root.toNat + 1)).map fun n => internalFreq (s.nodeNo n)).sum := by
  rw [hIn.sum_path_cost h.freqIn_of_internal, ← ((h.indices_perm_range hT hIn).map _).sum_eq, List.map_map]
  exact congrArg List.sum (List.map_congr_left fun i _ => by rw [nodeAt_eq_nodeNo]; rfl)

/-- The cost of the codes GEN writes is that of the root's tree (R131, R142). -/
theorem costOf_table : costOf s.freq (fun y => (codeOf (T.table s.node) y).getD []) =
    (T.leafPaths.map fun e => freqIn s.node e.1 * e.2.length).sum := by
  rw [costOf_eq_sum _ (h.nodup_leaf_syms hT hIn), List.map_map]
  · refine congrArg List.sum (List.map_congr_left fun e he => ?_)
    have hcode := (h.codeOf_table hT hIn).2 ⟨e.1, he, rfl⟩
    rw [h.freqIn_of_leaf (hIn.follow he).2, Function.comp_apply, hcode, Option.getD_some]
  · intro y hy
    obtain ⟨c, hc⟩ := Option.isSome_iff_exists.1 ((h.isSome_codeOf_table hT hIn y).2 hy)
    obtain ⟨j, hj, hsym⟩ := (h.codeOf_table hT hIn).1 hc
    exact List.mem_map.2 ⟨(j, c), hj, hsym⟩

end TreeOk

/-- The INTERNAL entries BUILD leaves are the nodes its merges made (R120). -/
theorem sum_internalFreq_buildTree {s : State} (hne : leafList s.freq ≠ []) :
    ((List.range (s.buildTree.root.toNat + 1)).map fun n => internalFreq (s.buildTree.nodeNo n)).sum =
      mergedFreq (buildNodes s.freq).1 := by
  obtain ⟨r, -, hforest⟩ := buildNodes_forest hne
  obtain ⟨-, hroot⟩ := (buildTree_treeOk hne).counts
  have hsize := hforest.size
  have hleaves := length_leafList_le s.freq
  have hnleaf : s.buildTree.nleaf.val = (leafList s.freq).length := by
    rw [buildTree_of_leaves hne]
    exact Nat.mod_eq_of_lt (by omega)
  have hnode : s.buildTree.node = .ofPrefix (buildNodes s.freq).1 Node.free := by rw [buildTree_of_leaves hne]
  rw [List.length_singleton] at hsize
  have hlen : s.buildTree.root.toNat + 1 = (buildNodes s.freq).1.length := by omega
  simp only [nodeNo_eq_getD hnode (show (buildNodes s.freq).1.length ≤ 511 by omega)]
  rw [hlen, map_range_getD internalFreq, mergedFreq]

/-! ### Least cost (R131) -/

/-- With one leaf the only code is one bit long, which no non-empty code is shorter than (R143). -/
theorem TableOk.costOf_le_of_single {s : State} (h : TableOk s) (hone : s.nleaf.val = 1) {c : Byte → BitSeq}
    (hne : ∀ y, s.freq.sym y ≠ 0 → c y ≠ []) :
    costOf s.freq (fun y => (codeOf s.code y).getD []) ≤ costOf s.freq c := by
  refine List.sum_le_sum fun n _ => ?_
  by_cases hy : s.freq.sym (BitVec.ofNat 8 n) = 0
  · rw [hy]
    exact (Nat.zero_mul _).trans_le (Nat.zero_le _)
  · obtain ⟨d, hd⟩ := Option.isSome_iff_exists.1 ((h.validIff _).2 hy)
    simp only [hd, Option.getD_some, h.single hone _ d hd]
    exact Nat.mul_le_mul_left _ (List.length_pos_iff.2 (hne _ hy))

/-- The table GEN makes of BUILD's tree has at most the cost of any other non-empty codes none of which begins another (R131). -/
theorem costOf_generate_le {s : State} (hne : leafList s.freq ≠ []) {table : Table CodeEntry Config.nsym}
    (hgen : generate s.buildTree.node s.buildTree.root = .ok table) {c : Byte → BitSeq}
    (hc : PrefixFreeAssignment s.freq c) :
    costOf s.freq (fun y => (codeOf table y).getD []) ≤ costOf s.freq c := by
  have htree := buildTree_treeOk hne
  obtain ⟨-, hpos⟩ := htree.leafCount
  have hfreq : s.buildTree.freq = s.freq := by rw [buildTree_of_leaves hne]; rfl
  by_cases hone : s.buildTree.nleaf.val = 1
  · have htable : TableOk { s.buildTree with code := table } :=
      (htree.of_frame (changed := [.code]) (frame_iff.2 (by simp)) (by simp)).tableOk hgen
    have hle := htable.costOf_le_of_single hone (c := c)
    simp only [hfreq] at hle
    exact hle hc.1
  · obtain ⟨T, hT, hIn⟩ := htree.exists_codeTree (Nat.le_refl _)
    rw [htree.generate_eq (by omega) hT hIn] at hgen
    cases hgen
    have hcost := htree.costOf_table hT hIn
    rw [htree.sum_path_cost hT hIn, sum_internalFreq_buildTree hne, hfreq] at hcost
    rw [hcost]
    exact mergedFreq_buildNodes_le hc

/-- Settles O29: GEN completes on BUILD's tree, and its codes cost what the merges add up to. -/
theorem huffmanCodesAreOptimal : Obligations.HuffmanCodesAreOptimal := by
  rintro s hok ⟨y, hy⟩
  have hne : leafList s.freq ≠ [] := fun hnil => hy (leafList_eq_nil_iff.1 hnil y)
  obtain ⟨hokT, hphase, -, -, htree⟩ := exec_build_completes (exec_build hok) hok ⟨y, hy⟩
  obtain ⟨table, hgen⟩ := htree.exists_generate
  refine ⟨_, _, exec_build hok, exec_gen hokT (by rw [hphase]; decide), ?_⟩
  rcases genTable_cases s.buildTree with ⟨table', hgen', heq⟩ | ⟨i, n, herr, -⟩
  · rw [heq]
    exact ⟨rfl, fun c hc => costOf_generate_le hne hgen' hc⟩
  · rw [hgen] at herr
    cases herr

end Sys2Proof.Machine
end

section
/-! PROOFS, 42_code_table.md, the walk. What one visit of GEN's walk does, and that the recursion of R142 and the path register of R151 make the same visits on every node store (R142, R144, R151). -/

namespace Sys2Proof.Machine

section
variable {store : Table Node Config.nnode} {i : NodeIdx} {path : BitSeq}

/-! ### The three kinds of visit (R142, R144) -/

/-- A visit at which the walk raises, whatever visits are left: no leaf and no internal node, a child missing, or a path too long to extend (R144 (a) to (c)). -/
def VisitRaises (store : Table Node Config.nnode) (i : NodeIdx) (path : BitSeq) : Prop :=
  (nodeAt store i).kind = .free ∨ (nodeAt store i).kind = .reserved ∨
    ((nodeAt store i).kind = .internal ∧
      (((nodeAt store i).left = Config.nil ∨ (nodeAt store i).right = Config.nil) ∨ path.length = Config.maxLen))

/-- A visit at which the walk goes on to two children (R142). -/
def VisitDescends (store : Table Node Config.nnode) (i : NodeIdx) (path : BitSeq) : Prop :=
  (nodeAt store i).kind = .internal ∧
    ¬((nodeAt store i).left = Config.nil ∨ (nodeAt store i).right = Config.nil) ∧ path.length ≠ Config.maxLen

/-- Every visit writes a leaf's code, raises, or goes on to two children. -/
theorem visit_cases (store : Table Node Config.nnode) (i : NodeIdx) (path : BitSeq) :
    (nodeAt store i).kind = .leaf ∨ VisitRaises store i path ∨ VisitDescends store i path := by
  unfold VisitRaises VisitDescends
  cases (nodeAt store i).kind with
  | leaf => exact .inl rfl
  | free => exact .inr (.inl (.inl rfl))
  | reserved => exact .inr (.inl (.inr (.inl rfl)))
  | internal => tauto

/-! ### The stack walk, visit by visit (R142) -/

section
variable (fuel : Nat) (rest : List (NodeIdx × BitSeq)) (table : Table CodeEntry Config.nsym)

/-- With no visit pending the walk is done. -/
@[simp] theorem walk_nil : walk store fuel [] table = .ok table := by
  cases fuel <;> rfl

theorem walk_of_leaf (h : (nodeAt store i).kind = .leaf) :
    walk store (fuel + 1) ((i, path) :: rest) table =
      walk store fuel rest (table.setSym (nodeAt store i).sym (CodeEntry.ofPath path)) := by
  rw [walk, h]

theorem walk_of_raises (h : VisitRaises store i path) :
    walk store (fuel + 1) ((i, path) :: rest) table = .error (i, path.length) := by
  rcases h with h | h | ⟨h, hnil | hlen⟩ <;> rw [walk, h]
  · exact if_pos hnil
  · exact (congrArg _ (if_pos hlen)).trans (ite_self _)

theorem walk_of_descends (h : VisitDescends store i path) :
    walk store (fuel + 1) ((i, path) :: rest) table =
      walk store fuel (((nodeAt store i).left, path ++ [false]) :: ((nodeAt store i).right, path ++ [true]) :: rest)
        table := by
  obtain ⟨h, hnil, hlen⟩ := h
  rw [walk, h]
  exact (if_neg hnil).trans (if_neg hlen)

end

/-! ### The recursion, visit by visit (R142) -/

section
variable {depth visits : Nat} {table : Table CodeEntry Config.nsym}

/-- Past 511 visits the recursion raises (R144 (d)). -/
theorem walkRec_of_spent (hvisits : Config.nnode < visits + 1) :
    walkRec store depth i path visits table = .error (i, path.length) := by
  rw [walkRec, if_pos hvisits]

theorem walkRec_of_leaf (hvisits : ¬Config.nnode < visits + 1) (h : (nodeAt store i).kind = .leaf) :
    walkRec store depth i path visits table =
      .ok (visits + 1, table.setSym (nodeAt store i).sym (CodeEntry.ofPath path)) := by
  rw [walkRec, if_neg hvisits, h]

/-- The depth left is spent exactly when the path has 255 bits. -/
theorem walkRec_of_raises (hvisits : ¬Config.nnode < visits + 1) (hdepth : depth + path.length = Config.maxLen)
    (h : VisitRaises store i path) :
    walkRec store depth i path visits table = .error (i, path.length) := by
  rcases h with h | h | ⟨h, hnil | hlen⟩ <;> rw [walkRec, if_neg hvisits, h]
  · exact if_pos hnil
  · obtain rfl : depth = 0 := by omega
    exact ite_self _

theorem walkRec_of_descends (hvisits : ¬Config.nnode < visits + 1) (h : VisitDescends store i path) :
    walkRec store (depth + 1) i path visits table =
      (walkRec store depth (nodeAt store i).left (path ++ [false]) (visits + 1) table).bind fun p =>
        walkRec store depth (nodeAt store i).right (path ++ [true]) p.1 p.2 := by
  obtain ⟨h, hnil, -⟩ := h
  rw [walkRec, if_neg hvisits, h]
  simp only [if_neg hnil]
  cases walkRec store depth (nodeAt store i).left (path ++ [false]) (visits + 1) table <;> rfl

/-- The stack walk makes the visits of the recursion below one pending node, then goes on with the others: the fuel is the visits the counter has left (R142, R144 (d)). -/
theorem walk_eq_walkRec_bind (hdepth : depth + path.length = Config.maxLen) (rest : List (NodeIdx × BitSeq)) :
    walk store (Config.nnode - visits) ((i, path) :: rest) table =
      (walkRec store depth i path visits table).bind fun p => walk store (Config.nnode - p.1) rest p.2 := by
  induction depth using Nat.strong_induction_on generalizing i path visits table rest with
  | _ depth ih =>
    by_cases hvisits : Config.nnode < visits + 1
    · rw [walkRec_of_spent hvisits, Nat.sub_eq_zero_of_le (Nat.le_of_lt_succ hvisits)]
      rfl
    rw [show Config.nnode - visits = Config.nnode - (visits + 1) + 1 by omega]
    rcases visit_cases store i path with h | h | h
    · rw [walk_of_leaf _ _ _ h, walkRec_of_leaf hvisits h]
      rfl
    · rw [walk_of_raises _ _ _ h, walkRec_of_raises hvisits hdepth h]
      rfl
    · obtain ⟨d, rfl⟩ : ∃ d, depth = d + 1 := Nat.exists_eq_succ_of_ne_zero fun hzero => h.2.2 (by omega)
      have hchild (b : Bool) : d + (path ++ [b]).length = Config.maxLen := by
        rw [List.length_append, List.length_singleton]; omega
      rw [walk_of_descends _ _ _ h, walkRec_of_descends hvisits h, ih d (Nat.lt_succ_self d) (hchild false)]
      cases walkRec store d (nodeAt store i).left (path ++ [false]) (visits + 1) table with
      | error e => rfl
      | ok p => exact ih d (Nat.lt_succ_self d) (hchild true) rest

end

/-! ### The path register, visit by visit (R151) -/

section
variable {fuel : Nat} {stack : List (NodeIdx × Nat)} {table : Table CodeEntry Config.nsym}

theorem registerWalk_of_leaf_nil (h : (nodeAt store i).kind = .leaf) :
    registerWalk store (fuel + 1) i path [] table =
      .ok (table.setSym (nodeAt store i).sym (CodeEntry.ofPath path)) := by
  rw [registerWalk, h]

theorem registerWalk_of_leaf_cons (h : (nodeAt store i).kind = .leaf) (r : NodeIdx) (n : Nat) :
    registerWalk store (fuel + 1) i path ((r, n) :: stack) table =
      registerWalk store fuel r (path.take n ++ [true]) stack
        (table.setSym (nodeAt store i).sym (CodeEntry.ofPath path)) := by
  rw [registerWalk, h]

theorem registerWalk_of_raises (h : VisitRaises store i path) :
    registerWalk store (fuel + 1) i path stack table = .error (i, path.length) := by
  rcases h with h | h | ⟨h, hnil | hlen⟩ <;> rw [registerWalk.eq_def] <;> simp only [h]
  · exact if_pos hnil
  · exact (congrArg _ (if_pos hlen)).trans (ite_self _)

theorem registerWalk_of_descends (h : VisitDescends store i path) :
    registerWalk store (fuel + 1) i path stack table =
      registerWalk store fuel (nodeAt store i).left (path ++ [false]) (((nodeAt store i).right, path.length) :: stack)
        table := by
  obtain ⟨h, hnil, hlen⟩ := h
  rw [registerWalk.eq_def]
  simp only [h]
  exact (if_neg hnil).trans (if_neg hlen)

/-- The pending visits a register stack stands for: each right child, with the register truncated to its parent's path and extended by the bit 1 (R151). -/
def pendingVisits (reg : BitSeq) (stack : List (NodeIdx × Nat)) : List (NodeIdx × BitSeq) :=
  stack.map fun e => (e.1, reg.take e.2 ++ [true])

/-- A register with the same first bits stands for the same pending visits. -/
theorem pendingVisits_congr {reg reg' : BitSeq} {n : Nat} (h : reg'.take n = reg.take n) (hstack : ∀ e ∈ stack, e.2 ≤ n) :
    pendingVisits reg' stack = pendingVisits reg stack := by
  refine List.map_congr_left fun e he => ?_
  rw [← Nat.min_eq_left (hstack e he), ← List.take_take, h, List.take_take]

/-- The walk with one path register makes the visits of the stack walk, when the lengths on its stack are of parents on the register's path, the deepest first (R151). -/
theorem registerWalk_eq_walk (hpath : ∀ e ∈ stack, e.2 ≤ path.length) (hstack : stack.Pairwise fun d e => e.2 ≤ d.2) :
    registerWalk store fuel i path stack table = walk store fuel ((i, path) :: pendingVisits path stack) table := by
  induction fuel generalizing i path stack table with
  | zero => rfl
  | succ fuel ih =>
    rcases visit_cases store i path with h | h | h
    · rw [walk_of_leaf _ _ _ h]
      rcases stack with _ | ⟨⟨r, n⟩, stack⟩
      · rw [registerWalk_of_leaf_nil h]
        exact (walk_nil _ _).symm
      · obtain ⟨hn, hpath⟩ := List.forall_mem_cons.1 hpath
        obtain ⟨hle, hstack⟩ := List.pairwise_cons.1 hstack
        have hlen : (path.take n).length = n := List.length_take_of_le hn
        have hpop : (path.take n ++ [true]).take n = path.take n := List.take_left' hlen
        rw [registerWalk_of_leaf_cons h, ih (fun e he => ?_) hstack, pendingVisits_congr hpop hle]
        · rfl
        · rw [List.length_append, hlen]
          exact Nat.le_add_right_of_le (hle e he)
    · rw [registerWalk_of_raises h, walk_of_raises _ _ _ h]
    · have hpush : (path ++ [false]).take path.length = path.take path.length := by
        rw [List.take_left, List.take_length]
      rw [registerWalk_of_descends h, walk_of_descends _ _ _ h,
        ih (List.forall_mem_cons.2 ⟨?_, fun e he => ?_⟩) (List.pairwise_cons.2 ⟨hpath, hstack⟩)]
      · rw [pendingVisits, List.map_cons, List.take_left, ← pendingVisits, pendingVisits_congr hpush hpath]
      · exact List.length_append ▸ Nat.le_add_right _ _
      · exact List.length_append ▸ Nat.le_add_right_of_le (hpath e he)

end

end

/-- Settles O36: from the root, with no other visit pending and no visit made. -/
theorem stackWalkAgreesWithRecursion : Obligations.StackWalkAgreesWithRecursion := by
  intro store root table
  rw [show Config.nnode = Config.nnode - 0 from rfl, walk_eq_walkRec_bind (depth := Config.maxLen) rfl]
  cases walkRec store Config.maxLen root [] 0 table with
  | error e => rfl
  | ok p => exact walk_nil _ _

/-- Settles O37: from the root, with an empty stack and an empty register. -/
theorem registerWalkAgrees : Obligations.RegisterWalkAgrees := fun _ _ _ =>
  registerWalk_eq_walk (fun _ he => nomatch he) .nil

end Sys2Proof.Machine
end

section
/-! PROOFS, 42_code_table.md, GEN. What GEN answers at each kind of root and what its effect then is, and that the codes it writes are paths of leaves (R140 to R144). -/

namespace Sys2Proof.Machine

/-! ### What GEN answers, by the root (R140, R143, R144) -/

section
variable {store : Table Node Config.nnode} {root : NodeIdx}

/-- NIL names no entry of the store: it reads as FREE (log entry 9). -/
theorem nodeAt_nil : nodeAt store Config.nil = Node.free := dif_neg (by decide)

/-- A node that is not FREE is an entry of the store. -/
theorem ne_nil_of_kind {k : NodeKind} (h : (nodeAt store root).kind = k) (hk : k ≠ .free) : root ≠ Config.nil := by
  rintro rfl
  exact hk (h.symm.trans (by rw [nodeAt_nil]; rfl))

theorem generate_of_nil : generate store Config.nil = .error (Config.nil, 0) := if_pos rfl

theorem generate_of_leaf (h : (nodeAt store root).kind = .leaf) :
    generate store root =
      .ok ((Table.fill CodeEntry.invalid).setSym (nodeAt store root).sym (CodeEntry.ofPath [false])) := by
  rw [generate, if_neg (ne_nil_of_kind h (by decide)), if_pos h]

theorem generate_of_not_leaf (hnil : root ≠ Config.nil) (h : (nodeAt store root).kind ≠ .leaf) :
    generate store root = walk store Config.nnode [(root, [])] (.fill CodeEntry.invalid) := by
  rw [generate, if_neg hnil, if_neg h]

/-- At a root that is a FREE or reserved entry, or lacks a child, GEN raises with the root and no path (R144 (a), (b)). -/
theorem generate_of_raises (hnil : root ≠ Config.nil) (h : VisitRaises store root []) :
    generate store root = .error (root, 0) := by
  rw [generate_of_not_leaf hnil, show Config.nnode = 510 + 1 from rfl, walk_of_raises _ _ _ h]
  · rfl
  · rcases h with h | h | ⟨h, -⟩ <;> simp [h]

end

/-! ### GEN's effect (R140, R144) -/

section
variable {s : State}

/-- GEN on an accepting machine with a tree that gives a table (R140). -/
theorem exec_gen_of_ok (hok : s.err = .none) (hp : s.phase ≠ .collect) {table : Table CodeEntry Config.nsym}
    (hgen : generate s.node s.root = .ok table) : exec .gen s = .next { s with code := table, phase := .ready } := by
  rw [exec_gen hok hp, State.genTable, hgen]

/-- GEN on an accepting machine with a malformed tree (R144). -/
theorem exec_gen_of_error (hok : s.err = .none) (hp : s.phase ≠ .collect) {i : NodeIdx} {n : Nat}
    (hgen : generate s.node s.root = .error (i, n)) :
    exec .gen s = .next ({ s with code := .fill CodeEntry.invalid, phase := .built }.raise .malformedTree (zext16Idx i)
      (BitVec.ofNat 32 n)) := by
  rw [exec_gen hok hp, State.genTable, hgen]

/-- A GEN that completes writes CODE and PHASE alone. -/
theorem withTable_frame (s : State) (table : Table CodeEntry Config.nsym) :
    Frame [.code, .phase] s { s with code := table, phase := .ready } :=
  frame_iff.2 (by simp)

end

/-- Settles O31: GEN answers a table on the tree, and that table meets R150 over the same tree. -/
theorem genCompletesOnTree : Obligations.GenCompletesOnTree := by
  intro s hok hp htree
  obtain ⟨table, hgen⟩ := htree.exists_generate
  have hframe := withTable_frame s table
  refine ⟨_, exec_gen_of_ok hok hp hgen, rfl, ?_, hframe⟩
  exact (htree.of_frame hframe (by simp)).tableOk hgen

/-! ### The codes GEN writes (R141, R142, R143) -/

theorem codeOf_fill_invalid (y : Byte) : codeOf (.fill CodeEntry.invalid) y = none :=
  codeOf_of_invalid (by rw [Table.sym_fill]; rfl)

/-- Writing a path makes it the code of its symbol, and keeps the other codes (R142). -/
theorem codeOf_setSym_ofPath (table : Table CodeEntry Config.nsym) (y z : Byte) {path : BitSeq}
    (hlen : path.length ≤ Config.maxLen) :
    codeOf (table.setSym y (CodeEntry.ofPath path)) z = if z = y then some path else codeOf table z := by
  rw [codeOf, Table.sym_setSym]
  split
  · rw [CodeEntry.code_ofPath path hlen]; rfl
  · rfl

/-- A path extended by a bit leads on to that bit's child (R141). -/
theorem follow_concat {store : Table Node Config.nnode} {root i : NodeIdx} {path : BitSeq}
    (h : follow store root path = some i) (hkind : (nodeAt store i).kind = .internal) (b : Bool) :
    follow store root (path ++ [b]) = some (childOf store i b) := by
  induction path generalizing root with
  | nil =>
    obtain rfl : root = i := Option.some.inj h
    rw [List.nil_append, follow, if_pos hkind, follow]
  | cons a path ih =>
    rw [follow] at h
    split at h
    next hroot => rw [List.cons_append, follow, if_pos hroot, ih h]
    next => cases h

/-- Every code of a table leads from the root to a leaf of its symbol (R141). -/
def CodesArePaths (store : Table Node Config.nnode) (root : NodeIdx) (table : Table CodeEntry Config.nsym) : Prop :=
  ∀ y c, codeOf table y = some c →
    ∃ i, follow store root c = some i ∧ (nodeAt store i).kind = .leaf ∧ (nodeAt store i).sym = y

section
variable {store : Table Node Config.nnode} {root : NodeIdx} {table : Table CodeEntry Config.nsym}

theorem codesArePaths_fill_invalid : CodesArePaths store root (.fill CodeEntry.invalid) := fun y c hc => by
  rw [codeOf_fill_invalid] at hc
  cases hc

/-- A visit to a leaf writes a path that leads to it. -/
theorem CodesArePaths.setSym (h : CodesArePaths store root table) {i : NodeIdx} {path : BitSeq}
    (hfollow : follow store root path = some i) (hlen : path.length ≤ Config.maxLen)
    (hleaf : (nodeAt store i).kind = .leaf) :
    CodesArePaths store root (table.setSym (nodeAt store i).sym (CodeEntry.ofPath path)) := by
  intro y c hc
  rw [codeOf_setSym_ofPath table _ y hlen] at hc
  split at hc
  next hy =>
    obtain rfl := Option.some.inj hc
    exact ⟨i, hfollow, hleaf, hy.symm⟩
  next => exact h y c hc

/-- The walk writes paths of leaves alone, when each pending path leads to its node and fits an entry (R142). -/
theorem walk_codesArePaths {fuel : Nat} {stack : List (NodeIdx × BitSeq)} {out : Table CodeEntry Config.nsym}
    (hstack : ∀ e ∈ stack, follow store root e.2 = some e.1 ∧ e.2.length ≤ Config.maxLen)
    (htable : CodesArePaths store root table) (hwalk : walk store fuel stack table = .ok out) :
    CodesArePaths store root out := by
  induction fuel generalizing stack table with
  | zero =>
    rcases stack with _ | ⟨_, rest⟩
    · cases hwalk; exact htable
    · cases hwalk
  | succ fuel ih =>
    rcases stack with _ | ⟨⟨i, path⟩, rest⟩
    · cases hwalk; exact htable
    obtain ⟨⟨hfollow, hlen⟩, hrest⟩ := List.forall_mem_cons.1 hstack
    rcases visit_cases store i path with h | h | h
    · rw [walk_of_leaf _ _ _ h] at hwalk
      exact ih hrest (htable.setSym hfollow hlen h) hwalk
    · rw [walk_of_raises _ _ _ h] at hwalk
      cases hwalk
    · rw [walk_of_descends _ _ _ h] at hwalk
      obtain ⟨hkind, -, hmax⟩ := h
      have hchild (b : Bool) : follow store root (path ++ [b]) = some (childOf store i b) ∧
          (path ++ [b]).length ≤ Config.maxLen :=
        ⟨follow_concat hfollow hkind b, List.length_append ▸ Nat.lt_of_le_of_ne hlen hmax⟩
      exact ih (List.forall_mem_cons.2 ⟨hchild false, List.forall_mem_cons.2 ⟨hchild true, hrest⟩⟩) htable hwalk

/-- On any node store with an INTERNAL root the codes GEN writes are paths of leaves. -/
theorem generate_codesArePaths (hkind : (nodeAt store root).kind = .internal) (hgen : generate store root = .ok table) :
    CodesArePaths store root table := by
  rw [generate_of_not_leaf (ne_nil_of_kind hkind (by decide)) (by simp [hkind])] at hgen
  refine walk_codesArePaths (fun e he => ?_) codesArePaths_fill_invalid hgen
  obtain rfl := List.mem_singleton.1 he
  exact ⟨rfl, Nat.zero_le _⟩

end

/-- Settles O32, by the paths the walk writes: a GEN that raised leaves an error. -/
theorem genCodesArePathsOfLeaves : Obligations.GenCodesArePathsOfLeaves := by
  intro s t hok hp hkind hexec hdone
  rw [exec_gen hok hp] at hexec
  cases hexec
  rcases genTable_cases s with ⟨table, hgen, heq⟩ | ⟨i, n, -, heq⟩
  · rw [heq]
    exact generate_codesArePaths hkind hgen
  · rw [heq] at hdone
    cases hdone

/-- Settles O33, by the one entry GEN writes at a LEAF root. -/
theorem genOneSymbolCodeIsZero : Obligations.GenOneSymbolCodeIsZero := by
  intro s hok hp _ hleaf
  have hgen := generate_of_leaf hleaf
  refine ⟨_, exec_gen_of_ok hok hp hgen, rfl, withTable_frame s _, fun y => ?_, fun y => ?_⟩
  · rw [Table.sym_setSym, Table.sym_fill]
    rfl
  · rw [codeOf_setSym_ofPath _ _ y (by decide), codeOf_fill_invalid]

/-! ### A GEN that raises, and a second GEN (R140, R144) -/

/-- Settles O34, by the effect of a GEN that raises, and its details at each bad root. -/
theorem genMalformedTreeLeavesNoTable : Obligations.GenMalformedTreeLeavesNoTable := by
  intro s hok hp
  have hraises {i : NodeIdx} (hgen : generate s.node s.root = .error (i, 0)) :
      ∃ t, exec .gen s = .next t ∧ t.err = .malformedTree ∧ t.errinfo = zext16Idx i ∧ t.errpos = 0 :=
    ⟨_, exec_gen_of_error hok hp hgen, rfl, rfl, rfl⟩
  refine ⟨fun t hexec herr => ?_, fun hnil => ?_, fun hnil hroot => ?_⟩
  · have hframe := exec_frame_of_ok hok hexec
    rw [exec_gen hok hp] at hexec
    cases hexec
    rcases genTable_cases s with ⟨table, -, heq⟩ | ⟨i, n, -, heq⟩
    · rw [heq] at herr
      exact absurd hok herr
    · refine ⟨?_, ?_, fun y => ?_, hframe⟩ <;> rw [heq]
      exact Table.sym_fill _ y
  · exact hraises (i := Config.nil) (by rw [hnil, generate_of_nil])
  · refine hraises (generate_of_raises hnil (hroot.imp_right (Or.imp_right ?_)))
    exact And.imp_right .inl

/-- Settles O35: a GEN that completed completes the same again, and after one that raised the second is dropped (R228). -/
theorem genTwiceGivesSameState : Obligations.GenTwiceGivesSameState := by
  intro s t hok hp hexec
  rw [exec_gen hok hp] at hexec
  cases hexec
  rcases genTable_cases s with ⟨table, hgen, heq⟩ | ⟨i, n, -, heq⟩ <;> rw [heq]
  · exact exec_gen_of_ok (s := { s with code := table, phase := .ready }) hok (by simp) hgen
  · exact exec_of_fault (by simp) (by decide)

end Sys2Proof.Machine
end

section
/-! PROOFS, 43_bit_packer.md, the stream. A bit sequence is its whole bytes and a residue below 8 bits, and both pass through concatenation; so the payload is the whole bytes and one last byte of residue and pad bits, and the streaming packer writes it (R162 to R164, R168). -/

namespace Sys2Proof.Machine

/-! ### Whole bytes and the residue -/

theorem groupBytes_add (m n : Nat) (q : BitSeq) :
    groupBytes (m + n) q = groupBytes m q ++ groupBytes n (q.drop (8 * m)) := by
  induction m generalizing q with
  | zero => simp [groupBytes]
  | succ m ih =>
    rw [Nat.succ_add, groupBytes, groupBytes, ih, List.drop_drop, Nat.mul_succ, Nat.add_comm 8, List.cons_append]

/-- Groups that lie within the first part of a sequence are groups of that part. -/
theorem groupBytes_append {n : Nat} {w : BitSeq} (h : 8 * n ≤ w.length) (q : BitSeq) :
    groupBytes n (w ++ q) = groupBytes n w := by
  induction n generalizing w with
  | zero => rfl
  | succ n ih =>
    rw [groupBytes, groupBytes, List.take_append_of_le_length (by omega), List.drop_append_of_le_length (by omega),
      ih (by rw [List.length_drop]; omega)]

/-- The bytes of the groups of 8 bits that a bit sequence fills. -/
def wholeBytes (w : BitSeq) : List Byte := groupBytes (w.length / 8) w

/-- The bits behind the last whole byte: `ACC` of R168. -/
def residue (w : BitSeq) : BitSeq := w.drop (8 * (w.length / 8))

@[simp] theorem length_wholeBytes (w : BitSeq) : (wholeBytes w).length = w.length / 8 := length_groupBytes _ w

@[simp] theorem length_residue (w : BitSeq) : (residue w).length = w.length % 8 := by
  rw [residue, List.length_drop]
  omega

theorem wholeBytes_of_lt {w : BitSeq} (h : w.length < 8) : wholeBytes w = [] := by
  rw [wholeBytes, Nat.div_eq_of_lt h, groupBytes]

theorem residue_of_lt {w : BitSeq} (h : w.length < 8) : residue w = w := by
  rw [residue, Nat.div_eq_of_lt h, Nat.mul_zero, List.drop_zero]

theorem wholeBytes_of_le {w : BitSeq} (h : 8 ≤ w.length) : wholeBytes w = byteOf (w.take 8) :: wholeBytes (w.drop 8) := by
  have hlen : w.length / 8 = (w.drop 8).length / 8 + 1 := by
    rw [List.length_drop]
    omega
  rw [wholeBytes, hlen, groupBytes, wholeBytes]

theorem residue_of_le {w : BitSeq} (h : 8 ≤ w.length) : residue w = residue (w.drop 8) := by
  rw [residue, residue, List.drop_drop, List.length_drop]
  congr 1
  omega

/-- Bits that follow a sequence are grouped behind its residue. -/
theorem length_append_div (w q : BitSeq) : (w ++ q).length / 8 = w.length / 8 + (residue w ++ q).length / 8 := by
  rw [List.length_append, List.length_append, length_residue]
  omega

theorem drop_append_residue (w q : BitSeq) : (w ++ q).drop (8 * (w.length / 8)) = residue w ++ q :=
  List.drop_append_of_le_length (Nat.mul_div_le _ 8)

theorem wholeBytes_append (w q : BitSeq) : wholeBytes (w ++ q) = wholeBytes w ++ wholeBytes (residue w ++ q) := by
  rw [wholeBytes, length_append_div, groupBytes_add, groupBytes_append (Nat.mul_div_le _ 8), drop_append_residue]
  rfl

theorem residue_append (w q : BitSeq) : residue (w ++ q) = residue (residue w ++ q) := by
  rw [residue, length_append_div, Nat.mul_add, ← List.drop_drop, drop_append_residue]
  rfl

/-! ### The payload (R162 to R164) -/

/-- The last payload byte of a bit sequence: its residue, then pad bits (R162, R164). -/
def lastByte (q : BitSeq) : Byte := byteOf (residue q ++ zeros (8 - (residue q).length))

/-- The payload is the whole bytes of the code bits and one last byte (R164). -/
theorem packBits_eq_wholeBytes (q : BitSeq) :
    packBits q = BitVec.ofNat 8 (padAmount q.length) :: (wholeBytes q ++ [lastByte q]) := by
  have hlen : (residue q ++ zeros (padAmount q.length)).length = 8 := by
    rw [List.length_append, length_residue, length_zeros, padAmount]
    omega
  have hlast : wholeBytes (residue q ++ zeros (padAmount q.length)) = [lastByte q] := by
    rw [wholeBytes_of_le hlen.ge, List.take_of_length_le hlen.le, List.drop_eq_nil_of_le hlen.le, lastByte, length_residue]
    rfl
  have hpayload : groupBytes ((q.length + padAmount q.length) / 8) (q ++ zeros (padAmount q.length)) =
      wholeBytes (q ++ zeros (padAmount q.length)) := by
    rw [wholeBytes, List.length_append, length_zeros]
  rw [packBits, hpayload, wholeBytes_append, hlast]

/-- The pad bits are the low bits of the last byte, and are 0 (R162, R164). -/
theorem getLsbD_lastByte {q : BitSeq} {k : Nat} (hk : k < padAmount q.length) : (lastByte q).getLsbD k = false := by
  rw [padAmount] at hk
  have hbit := getLsbD_packMsb 8 (residue q ++ zeros (8 - (residue q).length)) (7 - k) (by omega)
  rw [show 8 - 1 - (7 - k) = k by omega] at hbit
  rw [lastByte, byteOf, hbit, List.getD_append_right _ _ _ _ (by rw [length_residue]; omega), zeros,
    List.getD_eq_getElem?_getD, List.getElem?_getD_replicate_default_eq]

/-! ### The streaming packer (R168) -/

/-- The inner loop writes the whole bytes and leaves the residue. -/
theorem drainBytes_eq {fuel : Nat} {w : BitSeq} (h : w.length ≤ fuel) : drainBytes fuel w = (wholeBytes w, residue w) := by
  induction fuel generalizing w with
  | zero => rw [drainBytes, wholeBytes_of_lt (by omega), residue_of_lt (by omega)]
  | succ fuel ih =>
    rw [drainBytes]
    split
    next hw => rw [ih (by rw [List.length_drop]; omega), wholeBytes_of_le hw, residue_of_le hw]
    next hw => rw [wholeBytes_of_lt (by omega), residue_of_lt (by omega)]

/-- The outer loop, from a residue, writes the whole bytes of the residue and the code bits behind it, or meets the first symbol without a code. -/
theorem streamSymbols_eq (table : Table CodeEntry Config.nsym) (bytes : List Byte) (i : Nat) {acc : BitSeq}
    (hacc : acc.length < 8) :
    streamSymbols table i acc bytes =
      (concatCodes table i bytes).map fun q => (wholeBytes (acc ++ q), residue (acc ++ q)) := by
  induction bytes generalizing i acc with
  | nil => simp [streamSymbols, concatCodes, Except.map, wholeBytes_of_lt hacc, residue_of_lt hacc]
  | cons y ys ih =>
    rw [streamSymbols, concatCodes]
    cases codeOf table y with
    | none => rfl
    | some c =>
      simp only [drainBytes_eq (Nat.le_refl (acc ++ c).length)]
      rw [ih (i + 1) (acc := residue (acc ++ c)) (by rw [length_residue]; omega)]
      cases concatCodes table (i + 1) ys with
      | error e => rfl
      | ok q => simp only [Except.map, ← List.append_assoc, wholeBytes_append (acc ++ c) q, residue_append (acc ++ c) q]

/-- Settles O48: from the empty residue the outer loop writes the payload but for its last byte, which the final flush writes. -/
theorem streamingPackerAgrees : Obligations.StreamingPackerAgrees := by
  intro table bytes
  rw [streamPack, streamSymbols_eq table bytes 0 (by simp)]
  cases concatCodes table 0 bytes with
  | error e => rfl
  | ok q =>
    simp only [packBits_eq_wholeBytes, padAmount, lastByte, ← length_residue]
    rfl

end Sys2Proof.Machine
end

section
/-! PROOFS, 43_bit_packer.md, ENCODE. What ENCODE answers in READY when the stream fits, when it does not, and when a symbol has no code (R160 to R166); what then holds of every stream (R74, R169), and the round trip (R190). -/

namespace Sys2Proof.Machine

/-! ### The number of code bits (R161, R167) -/

/-- The code bits of coded symbols are as many as the code lengths add up to. -/
theorem length_codeBits {table : Table CodeEntry Config.nsym} {bytes : List Byte} (h : AllCoded table bytes) :
    (codeBits table bytes).length = (bytes.map fun y => (table.sym y).len.toNat).sum := by
  rw [codeBits, List.length_flatMap]
  congr 1
  refine List.map_congr_left fun y hy => ?_
  rw [codeOf_of_valid (h y hy), Option.getD_some, CodeEntry.length_code]

/-- A buffer's code bits are fewer than `2 ^ 24`, so a stream's length fits `ERRPOS` (R167). -/
theorem length_codeBits_lt {table : Table CodeEntry Config.nsym} {b : Buffer} (h : AllCoded table b.bytes) :
    (codeBits table b.bytes).length < 2 ^ 24 := by
  have hlen : b.bytes.length ≤ 65536 := b.fits
  have hsum := List.sum_le_card_nsmul (b.bytes.map fun y => (table.sym y).len.toNat) 255 (by
    simp only [List.mem_map]
    rintro _ ⟨y, -, rfl⟩
    exact Nat.le_of_lt_succ (table.sym y).len.isLt)
  rw [List.length_map, smul_eq_mul] at hsum
  rw [length_codeBits h]
  omega

/-! ### What ENCODE answers in READY (R160, R165, R166) -/

/-- An effect that writes OBUF alone. -/
theorem withObuf_frame (s : State) (b : Buffer) : Frame [.obuf] s { s with obuf := b } := frame_iff.2 (by simp)

section
variable {s : State} (hok : s.err = .none) (hp : s.phase = .ready)

include hok hp

/-- A stream that fits is left in OBUF (R160). -/
theorem exec_encode_of_fits (hs : AllCoded s.code s.ibuf.bytes)
    (hfits : (codeBits s.code s.ibuf.bytes).length / 8 + 2 ≤ Config.bufCap) :
    ∃ out : Buffer, out.bytes = packBits (codeBits s.code s.ibuf.bytes) ∧
      exec .encode s = .next { s with obuf := out } := by
  have hconcat := concatCodes_of_allCoded hs 0
  rw [exec_encode hok hp]
  rcases packInput_cases s with ⟨_, _, herr, -⟩ | ⟨q, hq, hlong, -⟩ | ⟨q, out, hq, hout, heq⟩
  · rw [hconcat] at herr; cases herr
  · rw [hconcat] at hq; cases hq
    rw [length_packBits] at hlong
    omega
  · rw [hconcat] at hq; cases hq
    exact ⟨out, hout, congrArg _ heq⟩

/-- A stream longer than OBUF raises BufferOverflow (R166). -/
theorem exec_encode_of_overflow (hs : AllCoded s.code s.ibuf.bytes)
    (hlong : Config.bufCap < (codeBits s.code s.ibuf.bytes).length / 8 + 2) :
    exec .encode s = .next { s with
      obuf := .empty, err := .bufferOverflow, errinfo := 1
      errpos := BitVec.ofNat 32 ((codeBits s.code s.ibuf.bytes).length / 8 + 2) } := by
  have hconcat := concatCodes_of_allCoded hs 0
  rw [exec_encode hok hp]
  rcases packInput_cases s with ⟨_, _, herr, -⟩ | ⟨q, hq, -, heq⟩ | ⟨q, out, hq, hout, -⟩
  · rw [hconcat] at herr; cases herr
  · rw [hconcat] at hq; cases hq
    rw [heq, length_packBits]
  · rw [hconcat] at hq; cases hq
    have := out.fits
    rw [hout, length_packBits] at this
    omega

/-- The first symbol without a code raises UnknownSymbol (R165). -/
theorem exec_encode_of_uncoded {pre post : List Byte} {y : Byte} (hin : s.ibuf.bytes = pre ++ y :: post)
    (hpre : AllCoded s.code pre) (hy : (s.code.sym y).valid = false) :
    exec .encode s = .next { s with
      obuf := .empty, err := .unknownSymbol, errinfo := zext16 y, errpos := BitVec.ofNat 32 pre.length } := by
  have hconcat : concatCodes s.code 0 s.ibuf.bytes = .error (y, pre.length) := by
    rw [hin, concatCodes_of_uncoded hpre hy, Nat.zero_add]
  rw [exec_encode hok hp]
  rcases packInput_cases s with ⟨_, _, herr, heq⟩ | ⟨_, hq, -⟩ | ⟨_, _, hq, -⟩
  · rw [hconcat] at herr; cases herr
    rw [heq]
  · rw [hconcat] at hq; cases hq
  · rw [hconcat] at hq; cases hq

/-- An ENCODE that raised nothing had codes for all of IBUF and a stream that fits, and left it in OBUF (R160). -/
theorem exec_encode_inv {t : State} (hexec : exec .encode s = .next t) (hdone : t.err = .none) :
    AllCoded s.code s.ibuf.bytes ∧ (codeBits s.code s.ibuf.bytes).length / 8 + 2 ≤ Config.bufCap ∧
      t.obuf.bytes = packBits (codeBits s.code s.ibuf.bytes) := by
  rcases allCoded_or_first_uncoded s.code s.ibuf.bytes with hs | ⟨pre, y, post, hin, hpre, hy⟩
  · by_cases hfits : (codeBits s.code s.ibuf.bytes).length / 8 + 2 ≤ Config.bufCap
    · obtain ⟨out, hout, heq⟩ := exec_encode_of_fits hok hp hs hfits
      rw [heq] at hexec; cases hexec
      exact ⟨hs, hfits, hout⟩
    · rw [exec_encode_of_overflow hok hp hs (Nat.lt_of_not_le hfits)] at hexec; cases hexec
      cases hdone
  · rw [exec_encode_of_uncoded hok hp hin hpre hy] at hexec; cases hexec
    cases hdone

/-- DECODE leaves the symbols of the stream in OBUF when they fit (R180). -/
theorem exec_decode_of_ok {syms : List Byte} (hunpack : unpackBytes (lookup s.code) s.ibuf.bytes = .ok syms)
    (hfits : syms.length ≤ Config.bufCap) :
    ∃ out : Buffer, out.bytes = syms ∧ exec .decode s = .next { s with obuf := out } := by
  rw [exec_decode hok hp]
  rcases unpackInput_cases s with ⟨_, _, herr, -⟩ | ⟨_, hq, hlong, -⟩ | ⟨_, out, hq, hout, heq⟩
  · rw [hunpack] at herr; cases herr
  · rw [hunpack] at hq; cases hq
    exact absurd hlong (Nat.not_lt.2 hfits)
  · rw [hunpack] at hq; cases hq
    exact ⟨out, hout, congrArg _ heq⟩

end

/-! ### Streams and errors of ENCODE (R162 to R170) -/

/-- Settles O43, by the header, length and bits of the stream ENCODE leaves. -/
theorem encodeProducesPackedStream : Obligations.EncodeProducesPackedStream := by
  intro s hok hp hs q hfits
  obtain ⟨out, hout, hexec⟩ := exec_encode_of_fits hok hp hs hfits
  obtain ⟨payload, hpack, hlen, hbits⟩ := packBits_eq q
  exact ⟨_, _, payload, hexec, hout.trans hpack, (toNat_header q.length).1, hlen, hbits, withObuf_frame s out⟩

/-- Settles O44: concatenation stops at the first symbol without a code, whose index fits `ERRPOS`. -/
theorem encodeUnknownSymbolAtFirst : Obligations.EncodeUnknownSymbolAtFirst := by
  intro s pre post y hok hp hin hpre hy
  have hexec := exec_encode_of_uncoded hok hp hin hpre hy
  have hlen : s.ibuf.bytes.length ≤ 65536 := s.ibuf.fits
  rw [hin, List.length_append] at hlen
  exact ⟨_, hexec, rfl, rfl, (BitVec.toNat_ofNat ..).trans (Nat.mod_eq_of_lt (by omega)), rfl,
    exec_frame_of_ok hok hexec⟩

/-- Settles O45: all symbols are coded, and the stream's length fits `ERRPOS` (R167). -/
theorem encodeOverflowRaises : Obligations.EncodeOverflowRaises := by
  intro s hok hp hs hlong
  have hexec := exec_encode_of_overflow hok hp hs hlong
  have hlen := length_codeBits_lt hs
  exact ⟨_, hexec, rfl, rfl, (BitVec.toNat_ofNat ..).trans (Nat.mod_eq_of_lt (by omega)), rfl,
    exec_frame_of_ok hok hexec⟩

/-- Settles O46: every stream is a header, whole bytes and a last byte that ends in the pad bits, and IBUF and CODE decide it. -/
theorem encodedStreamFacts : Obligations.EncodedStreamFacts := by
  intro s t hok hp hexec hdone
  obtain ⟨hs, hfits, hout⟩ := exec_encode_inv hok hp hexec hdone
  obtain ⟨hheader, hpos, hle⟩ := toNat_header (codeBits s.code s.ibuf.bytes).length
  refine ⟨⟨_, _, _, hout.trans (packBits_eq_wholeBytes _), ?_⟩, ?_, fun s' t' hok' hp' hibuf hcode hexec' => ?_⟩
  · rw [hheader, length_wholeBytes, ← length_codeBits hs]
    refine ⟨hpos, hle, ?_, fun k hk => getLsbD_lastByte hk⟩
    rw [padAmount]
    omega
  · rw [hout, length_packBits]
    exact Nat.le_add_left 2 _
  · rw [← hibuf, ← hcode] at hs hfits hout
    obtain ⟨out, hout', heq⟩ := exec_encode_of_fits hok' hp' hs hfits
    rw [heq] at hexec'
    cases hexec'
    exact Buffer.ext_bytes (hout'.trans hout.symm)

/-- Settles O47: no code bits make a stream of 8 pad bits, and 8 pad bits leave none to decode under any table. -/
theorem emptyInputGivesPadOnlyStream : Obligations.EmptyInputGivesPadOnlyStream := by
  refine ⟨fun s hok hp hin => ?_, fun s hok hp hin => ?_⟩
  · have hs : AllCoded s.code s.ibuf.bytes := by simp [AllCoded, hin]
    have hbits : codeBits s.code s.ibuf.bytes = [] := by rw [hin, codeBits_nil]
    obtain ⟨out, hout, hexec⟩ := exec_encode_of_fits hok hp hs (by rw [hbits]; decide)
    exact ⟨_, hexec, by rw [hout, hbits]; decide, withObuf_frame s out⟩
  · obtain ⟨out, hout, hexec⟩ := exec_decode_of_ok (syms := []) hok hp (by rw [hin]; rfl) (Nat.zero_le _)
    exact ⟨_, hexec, hout, withObuf_frame s out⟩

/-! ### The round trip (R190) -/

/-- Settles O56: ENCODE leaves the stream of IBUF's codes, and DECODE undoes it under the same table. -/
theorem roundTripInReadyState : Obligations.RoundTripInReadyState := by
  intro s t hok hp hprefix hne hs hexec hdone
  obtain ⟨hready, hout⟩ := exec_encode_completes hexec ⟨hok, hp, hprefix, hne, hs⟩ rfl (by simp [hdone])
  have hreadyU : ReadyFor s.ibuf.bytes { t with ibuf := t.obuf } := hready.of_eq rfl rfl rfl
  obtain ⟨v, hdecode, -⟩ := exec_answers_next .decode { t with ibuf := t.obuf }
  exact ⟨_, v, exec_xfer hdone, hdecode, exec_decode_completes hdecode hreadyU hout s.ibuf.fits⟩

end Sys2Proof.Machine
end

section
/-! PROOFS, 44_bit_unpacker.md, DECODE. A stream with an accepted header decodes as its code bits scan, whatever its pad bits (R181 to R184); what DECODE answers when the scan completes, leaves a candidate over or yields too many symbols (R180, R185, R186), and what it does not detect (R191). -/

namespace Sys2Proof.Machine

/-! ### The bits that are scanned (R181 to R183, R187) -/

/-- With an accepted header the scan reads the payload's bits but the last `pad`, which are not inspected (R183). -/
theorem unpackBytes_eq_scan {look : BitSeq → Option Byte} {header : Byte} {payload : List Byte} {d tail : BitSeq}
    (hle : header.toNat ≤ 8) (hbits : expandBytes payload = d ++ tail) (hpad : tail.length = header.toNat) :
    unpackBytes look (header :: payload) = (scan look d [] 0 0).mapError fun start => (4, start) := by
  have htotal := congrArg List.length hbits
  rw [length_expandBytes, List.length_append, hpad] at htotal
  have htake : (expandBytes payload).take (8 * payload.length - header.toNat) = d := by
    rw [htotal, Nat.add_sub_cancel, hbits, List.take_left]
  simp only [unpackBytes]
  rw [if_neg (by omega), if_neg (by omega), htake]
  cases scan look d [] 0 0 <;> rfl

/-- A header above 8 is rejected, whatever the payload (R182). -/
theorem unpackBytes_of_header_gt {look : BitSeq → Option Byte} {header : Byte} {payload : List Byte}
    (hgt : 8 < header.toNat) : unpackBytes look (header :: payload) = .error (2, header.toNat) := if_pos hgt

/-- A header of 1 to 8 without a payload leaves nothing to strip from (R183). -/
theorem unpackBytes_of_header_alone {look : BitSeq → Option Byte} {header : Byte} (hpos : 1 ≤ header.toNat)
    (hle : header.toNat ≤ 8) : unpackBytes look [header] = .error (3, header.toNat) :=
  (if_neg (Nat.not_lt.2 hle)).trans (if_pos hpos)

/-- A buffer's payload has fewer than `2 ^ 20` bits, so positions and symbol counts fit `ERRPOS` (R187). -/
theorem length_expandBytes_lt {b : Buffer} {header : Byte} {payload : List Byte} (hin : b.bytes = header :: payload) :
    (expandBytes payload).length < 2 ^ 20 := by
  have hlen : b.bytes.length ≤ 65536 := b.fits
  rw [hin, List.length_cons] at hlen
  rw [length_expandBytes]
  omega

/-- Each symbol takes at least one code bit (R187). -/
theorem length_le_length_codeBits {table : Table CodeEntry Config.nsym} {syms : List Byte} (hn : NonEmptyCodes table)
    (hs : AllCoded table syms) : syms.length ≤ (codeBits table syms).length := by
  induction syms with
  | nil => exact Nat.zero_le _
  | cons y ys ih =>
    rw [allCoded_cons] at hs
    have hc := codeOf_of_valid hs.1
    have hpos : (table.sym y).code.length ≠ 0 := fun h => hn y (List.length_eq_zero_iff.1 h ▸ hc)
    have hys := ih hs.2
    rw [codeBits_cons, hc, Option.getD_some, List.length_append, List.length_cons]
    omega

/-- The codes of a symbol sequence, then bits that start with no code: the sequence if there are no such bits, else CorruptStream at their start (R184, R185). -/
theorem ReadyFor.unpackBytes_eq {syms : List Byte} {s : State} (h : ReadyFor syms s) {header : Byte}
    {payload : List Byte} {rest tail : BitSeq} (hin : s.ibuf.bytes = header :: payload) (hle : header.toNat ≤ 8)
    (hbits : expandBytes payload = codeBits s.code syms ++ rest ++ tail) (hpad : tail.length = header.toNat)
    (hrest : ∀ y c, codeOf s.code y = some c → ¬ c <+: rest) :
    unpackBytes (lookup s.code) s.ibuf.bytes =
      if rest = [] then .ok syms else .error (4, (codeBits s.code syms).length) := by
  have hnone : ∀ p, p <+: rest → p ≠ [] → lookup s.code ([] ++ p) = none := fun p hp _ =>
    lookup_eq_none.2 fun y hy => hrest y p hy hp
  rw [hin, unpackBytes_eq_scan hle hbits hpad, scan_codes h.prefixFree h.nonEmpty h.coded, scan_unmatched hnone]
  by_cases hnil : rest = [] <;> simp [hnil, Except.map, Except.mapError]

/-- The codes of a symbol sequence and pad bits unpack to the sequence (R184). -/
theorem ReadyFor.unpackBytes_codes {syms : List Byte} {s : State} (h : ReadyFor syms s) {header : Byte}
    {payload : List Byte} {tail : BitSeq} (hin : s.ibuf.bytes = header :: payload) (hle : header.toNat ≤ 8)
    (hbits : expandBytes payload = codeBits s.code syms ++ tail) (hpad : tail.length = header.toNat) :
    unpackBytes (lookup s.code) s.ibuf.bytes = .ok syms := by
  rw [h.unpackBytes_eq (rest := []) hin hle (by rwa [List.append_nil]) hpad, if_pos rfl]
  intro y c hc hpre
  exact h.nonEmpty y (List.prefix_nil.1 hpre ▸ hc)

/-! ### What DECODE answers in READY (R180, R185, R186) -/

section
variable {s : State} (hok : s.err = .none) (hp : s.phase = .ready)

include hok hp

/-- A stream that does not unpack raises CorruptStream (R185). -/
theorem exec_decode_of_error {cause pos : Nat}
    (hunpack : unpackBytes (lookup s.code) s.ibuf.bytes = .error (cause, pos)) :
    exec .decode s = .next { s with
      obuf := .empty, err := .corruptStream, errinfo := BitVec.ofNat 16 cause, errpos := BitVec.ofNat 32 pos } := by
  rw [exec_decode hok hp]
  rcases unpackInput_cases s with ⟨_, _, herr, heq⟩ | ⟨_, hq, -⟩ | ⟨_, _, hq, -⟩
  · rw [hunpack] at herr; cases herr
    rw [heq]
  · rw [hunpack] at hq; cases hq
  · rw [hunpack] at hq; cases hq

/-- More symbols than OBUF holds raise BufferOverflow (R186). -/
theorem exec_decode_of_overflow {syms : List Byte} (hunpack : unpackBytes (lookup s.code) s.ibuf.bytes = .ok syms)
    (hlong : Config.bufCap < syms.length) :
    exec .decode s = .next { s with
      obuf := .empty, err := .bufferOverflow, errinfo := 2, errpos := BitVec.ofNat 32 syms.length } := by
  rw [exec_decode hok hp]
  rcases unpackInput_cases s with ⟨_, _, herr, -⟩ | ⟨_, hq, -, heq⟩ | ⟨_, out, hq, hout, -⟩
  · rw [hunpack] at herr; cases herr
  · rw [hunpack] at hq; cases hq
    rw [heq]
  · rw [hunpack] at hq; cases hq
    have := out.fits
    rw [hout] at this
    omega

/-- The state CorruptStream leaves, the position read as a number that fits `ERRPOS` (R185, R187). -/
theorem exec_decode_raises_corruptStream {cause pos : Nat}
    (hunpack : unpackBytes (lookup s.code) s.ibuf.bytes = .error (cause, pos)) (hpos : pos < 2 ^ 32) :
    ∃ t, exec .decode s = .next t ∧ t.err = .corruptStream ∧ t.errinfo = BitVec.ofNat 16 cause ∧
      t.errpos.toNat = pos ∧ t.obuf.bytes = [] ∧ Frame [.obuf, .err, .errinfo, .errpos] s t :=
  have hexec := exec_decode_of_error hok hp hunpack
  ⟨_, hexec, rfl, rfl, (BitVec.toNat_ofNat ..).trans (Nat.mod_eq_of_lt hpos), rfl, exec_frame_of_ok hok hexec⟩

end

/-! ### Streams and errors of DECODE (R180 to R186) -/

/-- Settles O49, by the scan of the codes, which ends with no candidate. -/
theorem decodeRecoversCodedSymbols : Obligations.DecodeRecoversCodedSymbols := by
  intro s header payload syms tail hok hp hprefix hne hin hle hbits hpad hs hfits
  have hunpack := ReadyFor.unpackBytes_codes ⟨hok, hp, hprefix, hne, hs⟩ hin hle hbits hpad
  obtain ⟨out, hout, hexec⟩ := exec_decode_of_ok hok hp hunpack hfits
  exact ⟨_, hexec, hout, withObuf_frame s out⟩

/-- Settles O50, by what unpacking answers in each of the four cases. -/
theorem corruptStreamCauses : Obligations.CorruptStreamCauses := by
  intro s hok hp raised
  have hraised {cause pos : Nat} := exec_decode_raises_corruptStream (cause := cause) (pos := pos) hok hp
  refine ⟨fun hin => ?_, fun header payload hin hgt => ?_, fun header hin hpos hle => ?_,
    fun header payload syms cand tail hprefix hne hin hle hbits hpad hs hcand hnone => ?_⟩
  · exact hraised (by rw [hin]; rfl) (by decide)
  · exact hraised (by rw [hin, unpackBytes_of_header_gt hgt]) (by omega)
  · exact hraised (by rw [hin, unpackBytes_of_header_alone hpos hle]) (by omega)
  · have hunpack := ReadyFor.unpackBytes_eq ⟨hok, hp, hprefix, hne, hs⟩ hin hle hbits hpad hnone
    rw [if_neg hcand] at hunpack
    have hlen : (expandBytes payload).length = _ := congrArg List.length hbits
    rw [List.length_append, List.length_append] at hlen
    have hlt := length_expandBytes_lt hin
    exact hraised hunpack (by omega)

/-- Settles O51: the codes unpack to the symbols, whose number is at most that of the payload's bits. -/
theorem decodeOverflowRaises : Obligations.DecodeOverflowRaises := by
  intro s header payload syms tail hok hp hprefix hne hin hle hbits hpad hs hlong
  have hunpack := ReadyFor.unpackBytes_codes ⟨hok, hp, hprefix, hne, hs⟩ hin hle hbits hpad
  have hexec := exec_decode_of_overflow hok hp hunpack hlong
  have hsyms : syms.length < 2 ^ 32 := by
    have hlen : (expandBytes payload).length = _ := congrArg List.length hbits
    rw [List.length_append] at hlen
    have hcodes := length_le_length_codeBits hne hs
    have hlt := length_expandBytes_lt hin
    omega
  exact ⟨_, hexec, rfl, rfl, (BitVec.toNat_ofNat ..).trans (Nat.mod_eq_of_lt hsyms), rfl,
    exec_frame_of_ok hok hexec⟩

/-! ### What DECODE does not detect (R183, R191) -/

/-- Streams of one header and the same code bits unpack alike (R183). -/
theorem unpackBytes_congr_pad (look : BitSeq → Option Byte) {header : Byte} {p p' : List Byte} {d tail tail' : BitSeq}
    (hbits : expandBytes p = d ++ tail) (hbits' : expandBytes p' = d ++ tail') (hpad : tail.length = header.toNat)
    (hpad' : tail'.length = header.toNat) : unpackBytes look (header :: p) = unpackBytes look (header :: p') := by
  rcases Nat.lt_or_ge 8 header.toNat with hgt | hle
  · rw [unpackBytes_of_header_gt hgt, unpackBytes_of_header_gt hgt]
  · rw [unpackBytes_eq_scan hle hbits hpad, unpackBytes_eq_scan hle hbits' hpad']

/-- Settles O52: the two streams unpack alike, and DECODE's answer depends on what unpacking answers. -/
theorem decodeIgnoresPadBits : Obligations.DecodeIgnoresPadBits := by
  intro s s' t t' header p p' d tail tail' hok hok' hp hp' hcode hinfo hpos hin hin' hbits hbits' hpad hpad' hexec hexec'
  have hsame : unpackBytes (lookup s'.code) s'.ibuf.bytes = unpackBytes (lookup s.code) s.ibuf.bytes := by
    rw [hin, hin', hcode]
    exact unpackBytes_congr_pad _ hbits' hbits hpad' hpad
  rcases hunpack : unpackBytes (lookup s.code) s.ibuf.bytes with ⟨cause, pos⟩ | syms <;> rw [hunpack] at hsame
  · rw [exec_decode_of_error hok hp hunpack] at hexec
    rw [exec_decode_of_error hok' hp' hsame] at hexec'
    cases hexec; cases hexec'
    exact ⟨rfl, rfl, rfl, rfl⟩
  · rcases Nat.lt_or_ge Config.bufCap syms.length with hlong | hfits
    · rw [exec_decode_of_overflow hok hp hunpack hlong] at hexec
      rw [exec_decode_of_overflow hok' hp' hsame hlong] at hexec'
      cases hexec; cases hexec'
      exact ⟨rfl, rfl, rfl, rfl⟩
    · obtain ⟨out, hout, h⟩ := exec_decode_of_ok hok hp hunpack hfits
      obtain ⟨out', hout', h'⟩ := exec_decode_of_ok hok' hp' hsame hfits
      rw [h] at hexec
      rw [h'] at hexec'
      cases hexec; cases hexec'
      exact ⟨Buffer.ext_bytes (hout.trans hout'.symm), hok.trans hok'.symm, hinfo, hpos⟩

/-- The codes of the document's example: A is "10", B is "11", C is "0" (R180, R191). -/
def exampleCodes : List (Byte × BitSeq) := [(0x41, [true, false]), (0x42, [true, true]), (0x43, [false])]

/-- None of the example's codes is empty or begins another. -/
theorem exampleCodes_prefixFree : ∀ a ∈ exampleCodes, a.2 ≠ [] ∧ ∀ b ∈ exampleCodes, a.2 <+: b.2 → a.1 = b.1 := by
  decide

/-- Settles O53: the bits of AF are the codes of A, A and B, and two pad bits. -/
theorem truncatedStreamDecodesSilently : Obligations.TruncatedStreamDecodesSilently := by
  intro s hok hp hin hcodes
  have hmem : ∀ y c, codeOf s.code y = some c → (y, c) ∈ exampleCodes := by
    intro y c hc
    rw [hcodes] at hc
    split_ifs at hc <;> cases hc <;> simp [exampleCodes, *]
  have hprefix : PrefixFree s.code := fun y z c d hne hc hd hpre =>
    hne ((exampleCodes_prefixFree _ (hmem y c hc)).2 _ (hmem z d hd) hpre)
  have hne : NonEmptyCodes s.code := fun y hy => (exampleCodes_prefixFree _ (hmem y [] hy)).1 rfl
  have hs : AllCoded s.code [0x41, 0x41, 0x42] := by
    have hA := (codeOf_eq_some.1 (hcodes 0x41)).1
    exact allCoded_cons.2 ⟨hA, allCoded_cons.2 ⟨hA, allCoded_cons.2 ⟨(codeOf_eq_some.1 (hcodes 0x42)).1, nofun⟩⟩⟩
  have hbits : expandBytes [0xAF] = codeBits s.code [0x41, 0x41, 0x42] ++ [true, true] := by
    simp only [codeBits, hcodes]
    decide
  have hunpack := ReadyFor.unpackBytes_codes ⟨hok, hp, hprefix, hne, hs⟩ hin (by decide) hbits rfl
  obtain ⟨out, hout, hexec⟩ := exec_decode_of_ok hok hp hunpack (by decide)
  exact ⟨_, hexec, hok, hout, withObuf_frame s out⟩

end Sys2Proof.Machine
end

section
/-! PROOFS, 44_bit_unpacker.md, the matchers. The scan of DECODE, the matcher that stops at 255 bits, and the walk of NODE from ROOT give the same symbols or the same candidate start (R184, R188, R189). -/

namespace Sys2Proof.Machine

/-! ### One bit of each matcher (R184, R188, R189) -/

section
variable {look : BitSeq → Option Byte} {cand : BitSeq} {b : Bool} {y : Byte} (rest : BitSeq) (start k : Nat)

/-- A bit that completes no symbol joins the candidate (R184). -/
theorem scan_cons_of_none (hlook : look (cand ++ [b]) = none) :
    scan look (b :: rest) cand start k = scan look rest (cand ++ [b]) start (k + 1) := by
  simp only [scan, hlook]

/-- A bit that completes a symbol emits it and empties the candidate (R184). -/
theorem scan_cons_of_some (hlook : look (cand ++ [b]) = some y) :
    scan look (b :: rest) cand start k = (scan look rest [] (k + 1) (k + 1)).map (y :: ·) := by
  simp only [scan, hlook]
  cases scan look rest [] (k + 1) (k + 1) <;> rfl

/-- The capped matcher stops at a candidate of 255 bits (R188). -/
theorem cappedScan_cons_of_full (hfull : cand.length = Config.maxLen) :
    cappedScan look (b :: rest) cand start k = .error start := if_pos hfull

/-- Below 255 bits, a bit that completes no symbol joins the capped matcher's candidate (R188). -/
theorem cappedScan_cons_of_none (hshort : cand.length ≠ Config.maxLen) (hlook : look (cand ++ [b]) = none) :
    cappedScan look (b :: rest) cand start k = cappedScan look rest (cand ++ [b]) start (k + 1) := by
  simp only [cappedScan, if_neg hshort, hlook]

/-- Below 255 bits, a bit that completes a symbol emits it and empties the capped matcher's candidate (R188). -/
theorem cappedScan_cons_of_some (hshort : cand.length ≠ Config.maxLen) (hlook : look (cand ++ [b]) = some y) :
    cappedScan look (b :: rest) cand start k = (cappedScan look rest [] (k + 1) (k + 1)).map (y :: ·) := by
  simp only [cappedScan, if_neg hshort, hlook]
  cases cappedScan look rest [] (k + 1) (k + 1) <;> rfl

variable {store : Table Node Config.nnode} {root cur : NodeIdx}

/-- A bit that leads to a leaf emits its symbol and returns to the root (R189). -/
theorem treeScan_cons_of_leaf (hleaf : (nodeAt store (childOf store cur b)).kind = .leaf) :
    treeScan store root (b :: rest) cur start k =
      (treeScan store root rest root (k + 1) (k + 1)).map ((nodeAt store (childOf store cur b)).sym :: ·) := by
  rw [treeScan, if_pos hleaf]
  cases treeScan store root rest root (k + 1) (k + 1) <;> rfl

/-- A bit that leads to no leaf moves to the child (R189). -/
theorem treeScan_cons_of_not_leaf (hleaf : (nodeAt store (childOf store cur b)).kind ≠ .leaf) :
    treeScan store root (b :: rest) cur start k = treeScan store root rest (childOf store cur b) start (k + 1) :=
  if_neg hleaf

/-- With one leaf, bit 0 emits its symbol (R189). -/
theorem oneSymbolScan_false :
    oneSymbolScan y (false :: rest) k = (oneSymbolScan y rest (k + 1)).map (y :: ·) := by
  rw [oneSymbolScan]
  cases oneSymbolScan y rest (k + 1) <;> rfl

/-- With one leaf, bit 1 starts a candidate that is left over (R189). -/
theorem oneSymbolScan_true : oneSymbolScan y (true :: rest) k = .error k := rfl

end

/-! ### The streaming unpacker (R188) -/

/-- No candidate longer than a code can be is looked up to a symbol (R32, R188). -/
theorem lookup_of_length_gt {table : Table CodeEntry Config.nsym} {q : BitSeq} (hlong : Config.maxLen < q.length) :
    lookup table q = none :=
  lookup_eq_none.2 fun _ hy => Nat.not_le.2 hlong (codeOf_length hy)

/-- From a candidate of at most 255 bits the capped matcher answers as the scan does (R188). -/
theorem cappedScan_eq_scan (table : Table CodeEntry Config.nsym) (d : BitSeq) {cand : BitSeq}
    (hcand : cand.length ≤ Config.maxLen) (start k : Nat) :
    cappedScan (lookup table) d cand start k = scan (lookup table) d cand start k := by
  induction d generalizing cand start k with
  | nil => rfl
  | cons b rest ih =>
    by_cases hfull : cand.length = Config.maxLen
    · have hnone : ∀ p, p <+: b :: rest → p ≠ [] → lookup table (cand ++ p) = none := fun p _ hne =>
        lookup_of_length_gt (by
          have := List.length_pos_iff.2 hne
          rw [List.length_append]
          omega)
      rw [cappedScan_cons_of_full _ _ _ hfull, scan_unmatched hnone, if_neg (by simp)]
    · cases hlook : lookup table (cand ++ [b]) with
      | none =>
        rw [cappedScan_cons_of_none _ _ _ hfull hlook, scan_cons_of_none _ _ _ hlook,
          ih (by rw [List.length_append, List.length_singleton]; omega)]
      | some y =>
        rw [cappedScan_cons_of_some _ _ _ hfull hlook, scan_cons_of_some _ _ _ hlook, ih (Nat.zero_le _)]

/-- The bits presented to the matcher are the payload's first bits (R188). -/
theorem presentBits_eq_take (rem : Nat) (payload : List Byte) :
    presentBits rem payload = (expandBytes payload).take rem := by
  induction payload generalizing rem with
  | nil => rw [presentBits, expandBytes_nil, List.take_nil]
  | cons b rest ih => rw [presentBits, ih, expandBytes_cons, List.take_append, length_bits8]

/-- Settles O54, from the empty candidate. -/
theorem streamingUnpackerAgrees : Obligations.StreamingUnpackerAgrees :=
  ⟨fun table d => cappedScan_eq_scan table d (Nat.zero_le _) 0 0, presentBits_eq_take⟩

/-! ### Nodes on the way from the root (R130, R141) -/

/-- The child a bit leads to is one of an internal entry's children. -/
theorem childOf_mem_childrenAt {store : Table Node Config.nnode} {i : NodeIdx}
    (hkind : (nodeAt store i).kind = .internal) (b : Bool) : childOf store i b ∈ CodeTree.childrenAt store i := by
  rw [CodeTree.childrenAt, if_pos hkind]
  cases b <;> simp [childOf]

namespace TreeOk

variable {s : State} (h : TreeOk s)

include h

/-- A child of an internal entry is internal unless it is a leaf. -/
theorem childOf_internal {i : NodeIdx} (hkind : (nodeAt s.node i).kind = .internal) {b : Bool}
    (hleaf : (nodeAt s.node (childOf s.node i b)).kind ≠ .leaf) :
    (nodeAt s.node (childOf s.node i b)).kind = .internal := by
  obtain ⟨hlt, hle⟩ := h.lt_of_mem_childrenAt (childOf_mem_childrenAt hkind b)
  obtain ⟨-, hroot⟩ := h.counts
  refine (h.internal_of_le (by omega) ?_).1
  by_contra hbelow
  exact hleaf (h.kind_of_lt_nleaf (by omega))

/-- The child of an internal entry is not the root (R130 (d)). -/
theorem childOf_ne_root {i : NodeIdx} (hkind : (nodeAt s.node i).kind = .internal) (b : Bool) :
    childOf s.node i b ≠ s.root := fun hroot =>
  h.root_not_child i (hroot ▸ childOf_mem_childrenAt hkind b)

/-- With two or more leaves the root is internal. -/
theorem root_internal (hmany : 2 ≤ s.nleaf.val) : (nodeAt s.node s.root).kind = .internal := by
  obtain ⟨-, hroot⟩ := h.counts
  exact (h.internal_of_le (by omega) (by omega)).1

/-- One path leads from the root to a leaf (R130 (d)). -/
theorem path_unique {i : NodeIdx} (hleaf : (nodeAt s.node i).kind = .leaf) {p q : BitSeq}
    (hp : follow s.node s.root p = some i) (hq : follow s.node s.root q = some i) : p = q := by
  obtain ⟨T, hT, hIn⟩ := h.exists_codeTree (Nat.le_refl _)
  rw [← hT] at hp hq
  have hnodup : (T.leafPaths.map Prod.fst).Nodup := (h.nodup_indices hT hIn).sublist T.leaves_sublist
  have heq := List.inj_on_of_nodup_map hnodup (hIn.mem_leafPaths_of_follow hp hleaf)
    (hIn.mem_leafPaths_of_follow hq hleaf) rfl
  exact congrArg Prod.snd heq

/-- The symbol of a leaf has a code (R130 (a), R150 (a)). -/
theorem exists_codeOf_leaf (htable : TableOk s) {i : NodeIdx} (hleaf : (nodeAt s.node i).kind = .leaf) :
    ∃ c, codeOf s.code (nodeAt s.node i).sym = some c := by
  rw [← Option.isSome_iff_exists, htable.validIff, nodeAt_eq_nodeNo]
  exact (h.leaves _ (h.lt_nleaf_of_leaf hleaf)).1

/-- The symbol of a leaf is the one that its path from the root codes (R150 (b)). -/
theorem codeOf_leaf (htable : TableOk s) (hmany : 2 ≤ s.nleaf.val) {i : NodeIdx} {q : BitSeq}
    (hfollow : follow s.node s.root q = some i) (hleaf : (nodeAt s.node i).kind = .leaf) :
    codeOf s.code (nodeAt s.node i).sym = some q := by
  obtain ⟨c, hc⟩ := h.exists_codeOf_leaf htable hleaf
  obtain ⟨j, hj, hjleaf, hsym⟩ := htable.paths hmany _ c hc
  obtain rfl := h.leaf_sym_inj hjleaf hleaf hsym
  rwa [h.path_unique hleaf hfollow hj]

/-- Looking up a path over CODE is looking at the node it leads to (R189). -/
theorem lookup_path (htable : TableOk s) (hmany : 2 ≤ s.nleaf.val) {i : NodeIdx} {q : BitSeq}
    (hfollow : follow s.node s.root q = some i) :
    lookup s.code q = if (nodeAt s.node i).kind = .leaf then some (nodeAt s.node i).sym else none := by
  split
  next hleaf => exact htable.inverse _ q (h.codeOf_leaf htable hmany hfollow hleaf)
  next hleaf =>
    refine lookup_eq_none.2 fun y hy => hleaf ?_
    obtain ⟨j, hj, hjleaf, -⟩ := htable.paths hmany y q hy
    obtain rfl := Option.some.inj (hfollow.symm.trans hj)
    exact hjleaf

/-! ### Matching by tree walk (R189) -/

/-- The walk from the node a candidate leads to answers as the scan from the candidate does. -/
theorem scan_eq_treeScan (htable : TableOk s) (hmany : 2 ≤ s.nleaf.val) (d : BitSeq) {cand : BitSeq} {cur : NodeIdx}
    (hfollow : follow s.node s.root cand = some cur) (hkind : (nodeAt s.node cur).kind = .internal)
    (hroot : cur = s.root ↔ cand = []) (start k : Nat) :
    scan (lookup s.code) d cand start k = treeScan s.node s.root d cur start k := by
  induction d generalizing cand cur start k with
  | nil => simp only [scan, treeScan, hroot, List.isEmpty_iff]
  | cons b rest ih =>
    have hnext := follow_concat hfollow hkind b
    have hlook := h.lookup_path htable hmany hnext
    by_cases hleaf : (nodeAt s.node (childOf s.node cur b)).kind = .leaf
    · rw [if_pos hleaf] at hlook
      rw [scan_cons_of_some _ _ _ hlook, treeScan_cons_of_leaf _ _ _ hleaf,
        ih rfl (h.root_internal hmany) (iff_of_true rfl rfl)]
    · rw [if_neg hleaf] at hlook
      rw [scan_cons_of_none _ _ _ hlook, treeScan_cons_of_not_leaf _ _ _ hleaf]
      exact ih hnext (h.childOf_internal hkind hleaf) (iff_of_false (h.childOf_ne_root hkind b) (by simp)) _ _

/-- With one leaf the only code is "0", of the root's symbol (R143, R150 (b)). -/
theorem lookup_of_one (htable : TableOk s) (hone : s.nleaf.val = 1) (q : BitSeq) :
    lookup s.code q = if q = [false] then some (nodeAt s.node s.root).sym else none := by
  split
  next hq =>
    obtain ⟨-, hroot⟩ := h.counts
    obtain ⟨c, hc⟩ := h.exists_codeOf_leaf htable (h.kind_of_lt_nleaf (i := s.root) (by omega))
    obtain rfl := htable.single hone _ c hc
    exact htable.inverse _ q (hq ▸ hc)
  next hq => exact lookup_eq_none.2 fun y hy => hq (htable.single hone y q hy)

/-- With one leaf the scan emits its symbol for each bit 0, and matches nothing from the first bit 1 on. -/
theorem scan_eq_oneSymbolScan (htable : TableOk s) (hone : s.nleaf.val = 1) (d : BitSeq) (k : Nat) :
    scan (lookup s.code) d [] k k = oneSymbolScan (nodeAt s.node s.root).sym d k := by
  induction d generalizing k with
  | nil => rfl
  | cons b rest ih =>
    cases b with
    | false =>
      have hlook : lookup s.code ([] ++ [false]) = some (nodeAt s.node s.root).sym :=
        (h.lookup_of_one htable hone [false]).trans (if_pos rfl)
      rw [scan_cons_of_some _ _ _ hlook, oneSymbolScan_false, ih]
    | true =>
      have hnone : ∀ p, p <+: true :: rest → p ≠ [] → lookup s.code ([] ++ p) = none := by
        intro p hp _
        rw [List.nil_append, h.lookup_of_one htable hone, if_neg]
        rintro rfl
        simp at hp
      rw [scan_unmatched hnone, if_neg (by simp), oneSymbolScan_true]

end TreeOk

/-- Settles O55, by the walk from the root with no candidate. -/
theorem treeWalkMatcherAgrees : Obligations.TreeWalkMatcherAgrees := fun _ d htree htable =>
  ⟨fun hmany => htree.scan_eq_treeScan htable hmany d rfl (htree.root_internal hmany) (iff_of_true rfl rfl) 0 0,
    fun hone => htree.scan_eq_oneSymbolScan htable hone d 0⟩

end Sys2Proof.Machine
end

section
/-! PROOFS, 45_buffer_control.md. What the buffer and control commands leave: CLEAR the reset state (R201), NOP all as it was (R200), RSTIN and XFER a new IBUF (R203, R204), and PUT one byte more, or BufferOverflow (R202). -/

namespace Sys2Proof.Machine

/-! ### CLEAR (R201) -/

/-- Settles O11: CLEAR's own effect is the reset state, and its exact word is one of the two inputs that reset. -/
theorem clearRestoresReset : Obligations.ClearRestoresReset :=
  ⟨fun _ => rfl, fun _ _ hport => step_of_reset_or_clear hport (.inr rfl)⟩

/-! ### NOP, RSTIN and XFER (R200, R203, R204) -/

/-- A new IBUF, with its length, is the one piece changed (R34). -/
theorem withIbuf_frame (s : State) (b : Buffer) : Frame [.ibuf] s { s with ibuf := b } := frame_iff.2 (by simp)

/-- Settles O58: the three words are their commands' own, and RSTIN and XFER put the empty buffer and OBUF in IBUF's place. -/
theorem nopRstinXferEffects : Obligations.NopRstinXferEffects :=
  ⟨decode_encode .nop, decode_encode .rstin, decode_encode .xfer, fun _ => rfl,
    fun s hok => ⟨_, exec_rstin hok, rfl, rfl, withIbuf_frame s .empty⟩,
    fun s hok => ⟨_, exec_xfer hok, rfl, rfl, withIbuf_frame s s.obuf⟩⟩

/-! ### PUT (R202) -/

/-- `ILEN` is the length of IBUF: no buffer is too long for its 17 bits (R34). -/
theorem toNat_ilen (s : State) : s.ilen.toNat = s.ibuf.bytes.length := by
  have hfits : s.ibuf.bytes.length ≤ 65536 := s.ibuf.fits
  rw [State.ilen, BitVec.toNat_ofNat, Nat.mod_eq_of_lt (by omega)]

/-- An index of IBUF is read in the buffer's bytes (R66). -/
theorem readPort_ibuf (s : State) (i : BitVec 17) :
    s.readPort 4 i = s.ibuf.bytes[i.toNat]?.map (BitVec.setWidth 264) := rfl

section
variable {s t : State} {y : Byte} (h : t.ibuf.bytes = s.ibuf.bytes ++ [y])

include h

/-- With one byte more in IBUF, `ILEN` is one more. -/
theorem toNat_ilen_of_concat : t.ilen.toNat = s.ilen.toNat + 1 := by
  rw [toNat_ilen, toNat_ilen, h, List.length_append, List.length_singleton]

/-- With one byte more in IBUF, the old `ILEN` reads that byte (R66). -/
theorem readPort_ilen_of_concat : t.readPort 4 s.ilen = some (y.setWidth 264) := by
  rw [readPort_ibuf, toNat_ilen, h, List.getElem?_concat_length, Option.map_some]

/-- With one byte more in IBUF, every index but the old `ILEN` reads as before: a byte kept, or none (R66). -/
theorem readPort_ibuf_of_concat {i : BitVec 17} (hi : i ≠ s.ilen) : t.readPort 4 i = s.readPort 4 i := by
  have hne : i.toNat ≠ s.ibuf.bytes.length := fun hlen =>
    hi (BitVec.eq_of_toNat_eq (hlen.trans (toNat_ilen s).symm))
  rw [readPort_ibuf, readPort_ibuf, h]
  rcases hne.lt_or_gt with hlt | hgt
  · rw [List.getElem?_append_left hlt]
  · rw [List.getElem?_eq_none hgt.le, List.getElem?_eq_none (by simpa using hgt)]

end

section
variable {s : State} (hok : s.err = .none) (y : Byte)

include hok

/-- PUT without a held error and with room in IBUF appends its byte. -/
theorem exec_put_of_room (hroom : s.ibuf.bytes.length < Config.bufCap) :
    ∃ b : Buffer, b.bytes = s.ibuf.bytes ++ [y] ∧ exec (.put y) s = .next { s with ibuf := b } :=
  (exec_put_cases hok y).resolve_right fun ⟨hfull, _⟩ => hroom.ne hfull

/-- PUT without a held error on a full IBUF raises: no buffer holds one byte more. -/
theorem exec_put_of_full (hfull : s.ibuf.bytes.length = Config.bufCap) :
    exec (.put y) s = .next (s.raise .bufferOverflow 0 (BitVec.ofNat 32 (Config.bufCap + 1))) := by
  rcases exec_put_cases hok y with ⟨b, hb, -⟩ | ⟨-, hexec⟩
  · have hfits := b.fits
    rw [hb, List.length_append, hfull] at hfits
    exact absurd hfits (Nat.not_succ_le_self _)
  · exact hexec

end

/-- Settles O59, by the two cases of a buffer with room and a full one. -/
theorem putAppendsOrOverflows : Obligations.PutAppendsOrOverflows := by
  intro s y hok
  refine ⟨decode_encode (.put y), fun hroom => ?_, exec_put_of_full hok y⟩
  obtain ⟨b, hb, hexec⟩ := exec_put_of_room hok y hroom
  exact ⟨_, hexec, readPort_ilen_of_concat hb, toNat_ilen_of_concat hb, fun _ => readPort_ibuf_of_concat hb,
    withIbuf_frame s b⟩

end Sys2Proof.Machine
end

section
/-! PROOFS, 60_exceptions.md, the decoder. When a word is illegal and with which reason it raises (R225), and what the faulted and the idle core do with their input (R228, R233). -/

namespace Sys2Proof

/-! ### Why a word is no command (R94, R95) -/

section
variable {w : CmdWord}

/-- A reserved opcode is found first, whatever the operands (R95 (a)). -/
theorem decode_of_reserved (hop : 0x0A < (fieldsOf w).op.toNat) :
    decode w = .error (.reservedOpcode (fieldsOf w).op) := by
  rcases decodeFields_cases (fieldsOf w) with ⟨-, h⟩ | ⟨hle, -⟩ | ⟨i, hi, -⟩
  · exact h
  · exact absurd hop (Nat.not_lt.2 hle)
  · have hwf := (fields_wellFormed_and_op i).1
    rw [← hi, Fields.wellFormed, formatOf_of_reserved hop] at hwf
    cases hwf

/-- A known opcode with a non-zero unused field (R95 (b), (c)). -/
theorem decode_of_not_wellFormed (hop : (fieldsOf w).op.toNat ≤ 0x0A) (hwf : (fieldsOf w).wellFormed = false) :
    decode w = .error (.unusedField (fieldsOf w).op) := by
  rcases decodeFields_cases (fieldsOf w) with ⟨hgt, -⟩ | ⟨-, -, h⟩ | ⟨i, hi, -⟩
  · exact absurd hgt (Nat.not_lt.2 hop)
  · exact h
  · rw [hi, (fields_wellFormed_and_op i).1] at hwf
    cases hwf

/-- A word whose fields are a command's is the command's word (R90). -/
theorem decode_of_fields {i : Instr} (h : fieldsOf w = i.fields) : decode w = .ok i := by
  rw [fieldsOf_inj.1 (h.trans (fieldsOf_encode i).symm), decode_encode]

end

/-- Every known opcode but SETFREQ's and PUT's takes no operand (R93). -/
theorem formatOf_eq_z {op : Byte} (hle : op.toNat ≤ 0x0A) (hsetfreq : op ≠ 0x02) (hput : op ≠ 0x06) :
    formatOf op = some .z := by
  unfold formatOf
  split
  next h => exact absurd (BitVec.eq_of_toNat_eq h) hsetfreq
  next h => exact absurd (BitVec.eq_of_toNat_eq h) hput
  next => exact if_pos hle

/-- The opcode of an illegal word. -/
def Illegal.op : Illegal → Byte
  | .reservedOpcode op => op
  | .unusedField op => op

/-- The reason of R225 for which a word is illegal: 0 or 1. -/
def Illegal.reason : Illegal → BitVec 32
  | .reservedOpcode _ => 0
  | .unusedField _ => 1

namespace Machine

/-! ### IllegalCommand (R225) -/

/-- Without a held error an illegal word raises IllegalCommand with its opcode and reason. -/
theorem illegal_eq_raise {s : State} (h : s.err = .none) (e : Illegal) :
    s.illegal e = s.raise .illegalCommand (zext16 e.op) e.reason := by
  cases e with
  | reservedOpcode op => exact unlessFaulted_of_ok h fun s => s.raise .illegalCommand (zext16 op) 0
  | unusedField op => exact unlessFaulted_of_ok h fun s => s.raise .illegalCommand (zext16 op) 1

/-- A step that takes an illegal word without a held error raises, and changes nothing else. -/
theorem step_raises_of_decode_error {s : State} {w : CmdWord} {rest : List HostInput} {e : Illegal} (hok : s.err = .none)
    (hport : s.port = .command w :: rest) (hdec : decode w = .error e) :
    step s = .next ((s.setPort rest).raise .illegalCommand (zext16 e.op) e.reason) :=
  (step_of_decode_error hport hdec).trans (congrArg _ (illegal_eq_raise (s := s.setPort rest) hok e))

/-- Settles O5: the decoder finds reasons 0 and 1 on the fields of the word, and a command's own word meets the phase test. -/
theorem illegalCommandReasons : Obligations.IllegalCommandReasons := by
  intro s w rest hok hport op a b raised
  have unused {fmt : Format} (hle : op.toNat ≤ 0x0A) (hfmt : formatOf op = some fmt)
      (hfields : (fieldsOf w).unusedZero fmt = false) : step s = .next (raised 1) := by
    refine step_raises_of_decode_error hok hport (decode_of_not_wellFormed hle ?_)
    rw [Fields.wellFormed, show formatOf (fieldsOf w).op = some fmt from hfmt]
    exact hfields
  have refused {i : Instr} (hfields : i.fields = ⟨i.opcode, 0, 0⟩) (ha : a = 0) (hb : b = 0) (hop : op = i.opcode)
      (hexec : exec i (s.setPort rest) = .next ((s.setPort rest).raise .illegalCommand (zext16 i.opcode) 2)) :
      step s = .next (raised 2) := by
    have hdec : decode w = .ok i := decode_of_fields (by rw [hfields, ← ha, ← hb, ← hop]; rfl)
    rw [step_of_decode_ok hport hdec, hexec, ← hop]
    rfl
  refine ⟨fun hop => step_raises_of_decode_error hok hport (decode_of_reserved hop),
    fun hle hsetfreq hput hab => ?_, fun hop hb => ?_, fun ha hb hop hp => ?_, fun ha hb hop hp => ?_⟩
  · refine unused hle (formatOf_eq_z hle hsetfreq hput) ?_
    rw [Fields.unusedZero, Bool.and_eq_false_iff, beq_eq_false_iff_ne, beq_eq_false_iff_ne]
    exact hab
  · exact unused (fmt := .a) (by rw [hop]; decide) (by rw [hop]; rfl) (beq_eq_false_iff_ne.2 hb)
  · exact refused (i := .gen) rfl ha hb hop (exec_gen_of_collect (s := s.setPort rest) hok hp)
  · rcases hop with hop | hop
    · exact refused (i := .encode) rfl ha hb hop (exec_encode_of_not_ready (s := s.setPort rest) hok hp)
    · exact refused (i := .decode) rfl ha hb hop (exec_decode_of_not_ready (s := s.setPort rest) hok hp)

/-! ### The faulted and the idle core (R228, R233) -/

/-- Settles O12: illegal words are dropped, and a word other than CLEAR's is of a command that is. -/
theorem faultedDropsAllButClear : Obligations.FaultedDropsAllButClear := by
  intro s w rest hfault hport hw
  cases hdec : decode w with
  | error e =>
    rw [step_of_decode_error hport hdec, illegal_of_fault (s := s.setPort rest) hfault]
  | ok i =>
    have hi : i ≠ .clear := by
      rintro rfl
      exact hw (eq_encode_of_decode hdec)
    rw [step_of_decode_ok hport hdec, exec_of_fault (s := s.setPort rest) hfault hi]

/-- Settles O8: with no input there is none to take. -/
theorem idleCoreHoldsState : Obligations.IdleCoreHoldsState := by
  intro s hport
  rw [step, takeInput_nil hport]

end Machine

end Sys2Proof
end

section
/-! PROOFS, 60_exceptions.md, what errors leave. The ranges of the details each error raises with, and that every step keeps the row of R221 the held error is in (R221, R226, R228). -/

namespace Sys2Proof.Machine

/-! ### The ranges of details (R142, R165, R185, R187) -/

/-- A number that fits `ERRPOS` is read back from it. -/
theorem toNat_errpos {n : Nat} (h : n < 2 ^ 32) : (BitVec.ofNat 32 n).toNat = n :=
  (BitVec.toNat_ofNat ..).trans (Nat.mod_eq_of_lt h)

/-- A byte's zero extension is at most 255. -/
theorem toNat_zext16_le (y : Byte) : (zext16 y).toNat ≤ 255 := by
  rw [zext16, BitVec.toNat_setWidth_of_le (by decide)]
  exact Nat.le_of_lt_succ y.isLt

/-- A node index's zero extension is at most NIL's. -/
theorem toNat_zext16Idx_le (i : NodeIdx) : (zext16Idx i).toNat ≤ 0x1FF := by
  rw [zext16Idx, BitVec.toNat_setWidth_of_le (by decide)]
  exact Nat.le_of_lt_succ i.isLt

/-- The walk extends no path beyond 255 bits, so it raises at none longer (R144 (c)). -/
theorem walk_error_le {store : Table Node Config.nnode} {fuel : Nat} {stack : List (NodeIdx × BitSeq)}
    {table : Table CodeEntry Config.nsym} {i : NodeIdx} {n : Nat} (hstack : ∀ e ∈ stack, e.2.length ≤ Config.maxLen)
    (hwalk : walk store fuel stack table = .error (i, n)) : n ≤ Config.maxLen := by
  induction fuel generalizing stack table with
  | zero =>
    rcases stack with _ | ⟨⟨j, path⟩, rest⟩ <;> cases hwalk
    exact hstack _ List.mem_cons_self
  | succ fuel ih =>
    rcases stack with _ | ⟨⟨j, path⟩, rest⟩
    · cases hwalk
    obtain ⟨hlen, hrest⟩ := List.forall_mem_cons.1 hstack
    rcases visit_cases store j path with hleaf | hraises | hdescends
    · rw [walk_of_leaf _ _ _ hleaf] at hwalk
      exact ih hrest hwalk
    · rw [walk_of_raises _ _ _ hraises] at hwalk
      cases hwalk
      exact hlen
    · rw [walk_of_descends _ _ _ hdescends] at hwalk
      have hchild (b : Bool) : (path ++ [b]).length ≤ Config.maxLen := by
        rw [List.length_append, List.length_singleton]
        exact Nat.lt_of_le_of_ne hlen hdescends.2.2
      exact ih (List.forall_mem_cons.2 ⟨hchild false, List.forall_mem_cons.2 ⟨hchild true, hrest⟩⟩) hwalk

/-- GEN raises at a path of at most 255 bits (R144). -/
theorem generate_error_le {store : Table Node Config.nnode} {root i : NodeIdx} {n : Nat}
    (hgen : generate store root = .error (i, n)) : n ≤ Config.maxLen := by
  rw [generate] at hgen
  split at hgen
  · cases hgen
    exact Nat.zero_le _
  split at hgen
  · cases hgen
  · exact walk_error_le (by simp) hgen

section
variable {look : BitSeq → Option Byte}

/-- The scan emits no more symbols than it reads bits (R187). -/
theorem length_le_of_scan_ok {d cand : BitSeq} {start k : Nat} {out : List Byte}
    (h : scan look d cand start k = .ok out) : out.length ≤ d.length := by
  induction d generalizing cand start k out with
  | nil =>
    rw [scan] at h
    split at h <;> cases h
    exact Nat.le_refl _
  | cons b rest ih =>
    cases hlook : look (cand ++ [b]) with
    | none =>
      rw [scan_cons_of_none _ _ _ hlook] at h
      exact (ih h).trans (Nat.le_succ _)
    | some y =>
      rw [scan_cons_of_some _ _ _ hlook] at h
      cases hrest : scan look rest [] (k + 1) (k + 1) with
      | error e => rw [hrest] at h; cases h
      | ok syms => rw [hrest] at h; cases h; exact Nat.succ_le_succ (ih hrest)

/-- A candidate left over starts before the end of the bits (R185). -/
theorem lt_of_scan_error {d cand : BitSeq} {start k e : Nat} (hk : start + cand.length = k)
    (h : scan look d cand start k = .error e) : e < k + d.length := by
  induction d generalizing cand start k with
  | nil =>
    rw [scan] at h
    split at h
    · cases h
    next hne =>
      cases h
      have hpos : 0 < cand.length := List.length_pos_iff.2 (by simpa using hne)
      simp only [List.length_nil]
      omega
  | cons b rest ih =>
    rw [List.length_cons, Nat.add_comm rest.length, ← Nat.add_assoc]
    cases hlook : look (cand ++ [b]) with
    | none =>
      rw [scan_cons_of_none _ _ _ hlook] at h
      exact ih (by rw [List.length_append, ← Nat.add_assoc, hk]; rfl) h
    | some y =>
      rw [scan_cons_of_some _ _ _ hlook] at h
      cases hrest : scan look rest [] (k + 1) (k + 1) with
      | error e' => rw [hrest] at h; cases h; exact ih rfl hrest
      | ok syms => rw [hrest] at h; cases h

/-- Everything unpacking can do: reject an empty stream, a header above 8 or a payload with fewer bits than the header, or scan bits of the payload (R180 to R184). -/
theorem unpackBytes_cases (look : BitSeq → Option Byte) (bytes : List Byte) :
    unpackBytes look bytes = .error (1, 0) ∨
    (∃ header : Byte, 8 < header.toNat ∧ unpackBytes look bytes = .error (2, header.toNat)) ∨
    (∃ header : Byte, 1 ≤ header.toNat ∧ header.toNat ≤ 8 ∧ unpackBytes look bytes = .error (3, header.toNat)) ∨
    (∃ d, d.length ≤ 8 * (bytes.length - 1) ∧
      unpackBytes look bytes = (scan look d [] 0 0).mapError fun start => (4, start)) := by
  rcases bytes with _ | ⟨header, payload⟩
  · exact .inl rfl
  by_cases hgt : 8 < header.toNat
  · exact .inr (.inl ⟨header, hgt, unpackBytes_of_header_gt hgt⟩)
  by_cases hshort : 8 * payload.length < header.toNat
  · exact .inr (.inr (.inl ⟨header, by omega, by omega, (if_neg hgt).trans (if_pos hshort)⟩))
  · have hlen := length_expandBytes payload
    refine .inr (.inr (.inr ⟨(expandBytes payload).take (8 * payload.length - header.toNat), ?_, ?_⟩))
    · rw [List.length_take, hlen, List.length_cons]
      omega
    · refine unpackBytes_eq_scan (by omega) (List.take_append_drop _ _).symm ?_
      rw [List.length_drop, hlen]
      omega

/-- The symbols unpacked are no more than the payload's bits (R187). -/
theorem length_le_of_unpackBytes_ok {bytes out : List Byte} (h : unpackBytes look bytes = .ok out) :
    out.length ≤ 8 * (bytes.length - 1) := by
  rcases unpackBytes_cases look bytes with heq | ⟨_, -, heq⟩ | ⟨_, -, -, heq⟩ | ⟨d, hd, heq⟩ <;> rw [heq] at h
  · cases h
  · cases h
  · cases h
  · cases hscan : scan look d [] 0 0 with
    | error e => rw [hscan] at h; cases h
    | ok syms => rw [hscan] at h; cases h; exact (length_le_of_scan_ok hscan).trans hd

/-- The sub-causes of CorruptStream and their positions (R185). -/
theorem unpackBytes_error_cases {bytes : List Byte} {cause pos : Nat} (h : unpackBytes look bytes = .error (cause, pos)) :
    (cause = 1 ∧ pos = 0) ∨ (cause = 2 ∧ 9 ≤ pos ∧ pos ≤ 255) ∨ (cause = 3 ∧ 1 ≤ pos ∧ pos ≤ 8) ∨
      (cause = 4 ∧ pos < 8 * (bytes.length - 1)) := by
  rcases unpackBytes_cases look bytes with heq | ⟨header, hgt, heq⟩ | ⟨header, hpos, hle, heq⟩ | ⟨d, hd, heq⟩ <;>
    rw [heq] at h
  · cases h
    exact .inl ⟨rfl, rfl⟩
  · cases h
    exact .inr (.inl ⟨rfl, hgt, Nat.le_of_lt_succ header.isLt⟩)
  · cases h
    exact .inr (.inr (.inl ⟨rfl, hpos, hle⟩))
  · cases hscan : scan look d [] 0 0 with
    | error e =>
      have he : e < 0 + d.length := lt_of_scan_error rfl hscan
      rw [hscan] at h; cases h
      exact .inr (.inr (.inr ⟨rfl, by omega⟩))
    | ok syms => rw [hscan] at h; cases h

end

/-! ### The row of the held error (R221, R226) -/

/-- While no error is held the details are 0 (R27). -/
theorem errorForm_of_ok {s : State} (h : s.err = .none) : ErrorForm s ↔ s.errinfo = 0 ∧ s.errpos = 0 := by
  rw [ErrorForm, h]

/-- The inputs still to come are in no row. -/
theorem errorForm_setPort {s : State} {inputs : List HostInput} : ErrorForm (s.setPort inputs) ↔ ErrorForm s := Iff.rfl

/-- An IllegalCommand holds an opcode and one of three reasons, and promises nothing of the state (R225). -/
theorem errorForm_illegal (s : State) (op : Byte) {reason : BitVec 32} (h : reason.toNat ≤ 2) :
    ErrorForm (s.raise .illegalCommand (zext16 op) reason) := ⟨toNat_zext16_le op, h⟩

section
variable {s : State} (hok : s.err = .none) (h : ErrorForm s)

include hok h

/-- An effect that leaves the error registers alone raises nothing. -/
theorem ErrorForm.of_frame {changed : List Piece} {t : State} (hframe : Frame changed s t)
    (hkeep : ∀ p ∈ [Piece.err, .errinfo, .errpos], p ∉ changed) : ErrorForm t := by
  have herr : t.err = s.err := hframe .err (hkeep _ (by simp))
  have hinfo : t.errinfo = s.errinfo := hframe .errinfo (hkeep _ (by simp))
  have hpos : t.errpos = s.errpos := hframe .errpos (hkeep _ (by simp))
  rw [errorForm_of_ok (herr.trans hok), hinfo, hpos]
  exact (errorForm_of_ok hok).1 h

/-- BUILD completes, or leaves no tree (R121). -/
theorem ErrorForm.buildTree : ErrorForm s.buildTree := by
  rcases buildTree_cases s with ⟨-, heq⟩ | ⟨-, heq⟩ <;> rw [heq]
  · exact ⟨rfl, rfl, rfl, rfl, rfl, rfl, rfl, rfl⟩
  · exact h.of_frame hok (changed := [.node, .code, .nleaf, .nnodes, .root, .phase]) (frame_iff.2 (by simp))
      (by simp)

/-- GEN completes, or raises at a node and a path length and leaves no table (R144). -/
theorem ErrorForm.genTable : ErrorForm s.genTable := by
  rcases genTable_cases s with ⟨table, -, heq⟩ | ⟨i, n, hgen, heq⟩ <;> rw [heq]
  · exact h.of_frame hok (withTable_frame s table) (by simp)
  · have hn : n ≤ 255 := generate_error_le hgen
    exact ⟨toNat_zext16Idx_le i, (toNat_errpos (by omega)).trans_le hn, rfl, rfl⟩

/-- PUT appends, or raises on a full IBUF (R202). -/
theorem ErrorForm.put {t : State} (y : Byte) (hexec : exec (.put y) s = .next t) : ErrorForm t := by
  rcases exec_put_cases hok y with ⟨b, -, heq⟩ | ⟨hfull, heq⟩ <;> rw [heq] at hexec <;> cases hexec
  · exact h.of_frame hok (withIbuf_frame s b) (by simp)
  · have hpos : (BitVec.ofNat 32 (Config.bufCap + 1)).toNat = Config.bufCap + 1 := toNat_errpos (by decide)
    exact ⟨hpos.symm ▸ Nat.lt_succ_self _, .inl ⟨rfl, hpos, hfull⟩⟩

/-- ENCODE in READY completes, or raises and leaves OBUF empty (R165, R166). -/
theorem ErrorForm.encode {t : State} (hp : s.phase = .ready) (hexec : exec .encode s = .next t) : ErrorForm t := by
  have hcap : s.ibuf.bytes.length ≤ 65536 := s.ibuf.fits
  rcases allCoded_or_first_uncoded s.code s.ibuf.bytes with hs | ⟨pre, y, post, hin, hpre, hy⟩
  · by_cases hfits : (codeBits s.code s.ibuf.bytes).length / 8 + 2 ≤ Config.bufCap
    · obtain ⟨out, -, heq⟩ := exec_encode_of_fits hok hp hs hfits
      rw [heq] at hexec; cases hexec
      exact h.of_frame hok (withObuf_frame s out) (by simp)
    · have hlong := Nat.lt_of_not_le hfits
      have hbits := length_codeBits_lt hs
      rw [exec_encode_of_overflow hok hp hs hlong] at hexec; cases hexec
      exact ⟨hlong.trans_eq (toNat_errpos (by omega)).symm, .inr ⟨.inl rfl, hp, rfl⟩⟩
  · have hlt : pre.length < s.ibuf.bytes.length := by simp [hin]
    rw [exec_encode_of_uncoded hok hp hin hpre hy] at hexec; cases hexec
    exact ⟨toNat_zext16_le y, (toNat_errpos (by omega)).trans_lt hlt, hp, rfl⟩

/-- DECODE in READY completes, or raises and leaves OBUF empty (R185, R186). -/
theorem ErrorForm.decode {t : State} (hp : s.phase = .ready) (hexec : exec .decode s = .next t) : ErrorForm t := by
  have hcap : s.ibuf.bytes.length ≤ 65536 := s.ibuf.fits
  cases hunpack : unpackBytes (lookup s.code) s.ibuf.bytes with
  | ok syms =>
    by_cases hfits : syms.length ≤ Config.bufCap
    · obtain ⟨out, -, heq⟩ := exec_decode_of_ok hok hp hunpack hfits
      rw [heq] at hexec; cases hexec
      exact h.of_frame hok (withObuf_frame s out) (by simp)
    · have hlong := Nat.lt_of_not_le hfits
      have hsyms := length_le_of_unpackBytes_ok hunpack
      rw [exec_decode_of_overflow hok hp hunpack hlong] at hexec; cases hexec
      exact ⟨hlong.trans_eq (toNat_errpos (by omega)).symm, .inr ⟨.inr rfl, hp, rfl⟩⟩
  | error e =>
    obtain ⟨cause, pos⟩ := e
    rw [exec_decode_of_error hok hp hunpack] at hexec; cases hexec
    have hcases := unpackBytes_error_cases hunpack
    have hpos : (BitVec.ofNat 32 pos).toNat = pos := toNat_errpos (by omega)
    refine ⟨hp, rfl, ?_⟩
    rcases hcases with ⟨rfl, rfl⟩ | ⟨rfl, hge, hle⟩ | ⟨rfl, hge, hle⟩ | ⟨rfl, hlt⟩
    · exact .inl ⟨rfl, rfl⟩
    · exact .inr (.inl ⟨rfl, hpos.symm ▸ hge, hpos.symm ▸ hle⟩)
    · exact .inr (.inr (.inl ⟨rfl, hpos.symm ▸ hge, hpos.symm ▸ hle⟩))
    · exact .inr (.inr (.inr ⟨rfl, hpos.symm ▸ hlt⟩))

end

/-- Every command that is not dropped leaves no error, or one with its row. -/
theorem exec_keeps_errorForm {i : Instr} {s t : State} (hok : s.err = .none) (h : ErrorForm s)
    (hexec : exec i s = .next t) : ErrorForm t := by
  have hframe := exec_frame_of_ok hok hexec
  cases i with
  | nop | setfreq _ _ | count | rstin | xfer => exact h.of_frame hok hframe (by simp [writesOf])
  | clear => cases hexec; exact ⟨rfl, rfl⟩
  | build => rw [exec_build hok] at hexec; cases hexec; exact h.buildTree hok
  | gen =>
    by_cases hp : s.phase = .collect
    · rw [exec_gen_of_collect hok hp] at hexec; cases hexec; exact errorForm_illegal s 0x05 (reason := 2) (by decide)
    · rw [exec_gen hok hp] at hexec; cases hexec; exact h.genTable hok
  | put y => exact h.put hok y hexec
  | encode =>
    by_cases hp : s.phase = .ready
    · exact h.encode hok hp hexec
    · rw [exec_encode_of_not_ready hok hp] at hexec; cases hexec; exact errorForm_illegal s 0x08 (reason := 2) (by decide)
  | decode =>
    by_cases hp : s.phase = .ready
    · exact h.decode hok hp hexec
    · rw [exec_decode_of_not_ready hok hp] at hexec; cases hexec; exact errorForm_illegal s 0x09 (reason := 2) (by decide)

/-- The decoder gives reason 0 or 1 (R94). -/
theorem toNat_reason_le (e : Illegal) : e.reason.toNat ≤ 2 := by
  cases e <;> simp [Illegal.reason]

/-- Settles O42: a held error is kept or ends in the reset state, and without one a command or an illegal word raises none or one with its row. -/
theorem stepKeepsErrorForm : Obligations.StepKeepsErrorForm := by
  intro s t h hstep
  rcases step_cases s with ⟨-, heq⟩ | ⟨rest, -, heq⟩ | ⟨w, rest, i, -, -, heq⟩ | ⟨w, rest, e, -, -, heq⟩ <;>
    rw [heq] at hstep
  · cases hstep; exact h
  · cases hstep; exact ⟨rfl, rfl⟩
  · have hrest : ErrorForm (s.setPort rest) := errorForm_setPort.2 h
    by_cases hok : s.err = .none
    · exact exec_keeps_errorForm (s := s.setPort rest) hok hrest hstep
    · by_cases hi : i = .clear
      · subst hi; cases hstep; exact ⟨rfl, rfl⟩
      · rw [exec_of_fault (s := s.setPort rest) hok hi] at hstep; cases hstep; exact hrest
  · cases hstep
    by_cases hok : s.err = .none
    · rw [illegal_eq_raise (s := s.setPort rest) hok]
      exact errorForm_illegal _ _ (toNat_reason_le e)
    · rw [illegal_of_fault (s := s.setPort rest) hok]; exact errorForm_setPort.2 h

end Sys2Proof.Machine
end

section
/-! PROOFS, 70_reset_and_hazards.md. The state a hardware reset leaves (R260). -/

namespace Sys2Proof.Machine

/-- Settles O10: a hardware reset is one of the two inputs that reset, and of the state before only the inputs still to come stay (log entry 4). -/
theorem hardwareResetRestoresReset : Obligations.HardwareResetRestoresReset :=
  fun _ _ hport => step_of_reset_or_clear hport (.inl rfl)

end Sys2Proof.Machine
end
